-- ==== Sys2Proof/Word.lean ====
section
/-! DEFINITION. The word types of the core: registers are 64 bits wide (R5 REG_BITS, R21), memories
are byte-addressed (R80), match lengths are 16-bit symbols (R5 SYM_BITS). Every value is unsigned (R7). -/

namespace Sys2Proof

/-- A 64-bit register value, buffer position, frequency or tree weight (R5 REG_BITS, POS_BITS, FREQ_BITS). -/
abbrev Word := BitVec 64

/-- One byte of IN, OUT or RING (R80). -/
abbrev Byte := BitVec 8

/-- A match length used as a Huffman symbol (R5 SYM_BITS, R12 "Symbol"). -/
abbrev Sym := BitVec 16

end Sys2Proof
end

