-- ==== Sys2Proof/Config.lean ====
section
/-! DEFINITION. What is fixed for the machine: the parameters of R5 whose values the spec states, and
the FREE VALUES (opaque constants without a body) for what the spec leaves unspecified. The parameters
R5 marks OPEN (N_MAX, OUT_MAX, HASH3) are arguments of a run: they stand in `State.params`. -/

namespace Sys2Proof.Config

/-- MIN_MATCH of R5: shorter matches become literals. -/
@[simp] abbrev minMatch : Nat := 3
/-- MAX_CHAIN of R5: most chain entries one search visits. -/
@[simp] abbrev maxChain : Nat := 64
/-- WINDOW of R5: largest match distance, and the number of PREV entries (R42). -/
@[simp] abbrev window : Nat := 32768
/-- HASH_BUCKETS of R5: the number of HEAD entries (R41). -/
@[simp] abbrev hashBuckets : Nat := 65536
/-- MAX_MATCH of R5 (conflict C2): longest match the finder reports. -/
@[simp] abbrev maxMatch : Nat := 65535
/-- LIT_BITS of R5: literal payload width. -/
@[simp] abbrev litBits : Nat := 8
/-- DIST_BITS of R5: stored-distance width. -/
@[simp] abbrev distBits : Nat := 15
/-- RING_SIZE of R5: bytes in the replay history ring. -/
@[simp] abbrev ringSize : Nat := 32768
/-- CODE_MAX of R5: longest code the encoder emits. -/
@[simp] abbrev codeMax : Nat := 128
/-- The most entries FT holds (R44, R234). -/
@[simp] abbrev ftMax : Nat := 65535
/-- The bound R5 puts on N_MAX and OUT_MAX. -/
@[simp] abbrev capacityMax : Nat := 2 ^ 60

/-- The constant of the ID register (R24): "LZHC" and edition 7. -/
def idValue : Word := 0x4C5A484300000007

/-- The byte memories whose contents after reset the spec leaves unspecified (R52, R440). -/
inductive Space where
  /-- The input memory IN. -/
  | inMem
  /-- The output memory OUT. -/
  | outMem
  /-- The replay history RING. -/
  | ring
deriving DecidableEq, Repr

/-- FREE VALUE (log 3). The byte that cell `a` of a memory holds after the `e`-th hardware reset, until
something writes it: "unspecified contents" (R52, 93_implementation_defined.md I6, I7). -/
opaque powerOnByte : (e : Nat) → Space → (a : Nat) → Byte

/-- FREE VALUE (log 3). What PREV slot `a` holds after the `e`-th hardware reset, until an insertion
writes it (R42, R52, I6); `none` is NIL. -/
opaque powerOnPrev : (e : Nat) → (a : Nat) → Option Word

/-- FREE VALUE (log 5). The `k`-th unspecified value that a host register read during BUSY returns (R413, I8). -/
opaque freeWord : (k : Nat) → Word

/-- FREE VALUE (log 6). What an OUT byte reads as once the host has written `b` there and until the core writes
it, `k` counting the free values drawn: "any value" (R52, I7). -/
opaque hostOutByte : (k : Nat) → (b : Byte) → Byte

/-- FREE VALUE (log 2). The hash function number `k` other than the default: HASH3 is OPEN, "any function
from three bytes to 0..65535 is admitted" (R200, D3). -/
opaque hash3Other : (k : Nat) → Byte → Byte → Byte → BitVec 16

end Sys2Proof.Config
end

