-- ==== Sys2Proof/Syntax.lean ====
section
/-! DEFINITION. The syntax: Huffman trees, stream tokens, the host's register names and moves, and
`Instr`, one constructor per row of spec/opcode_table.json (31 commands, 2 tokens). -/

namespace Sys2Proof

/-- The tree nodes of R45. -/
inductive Node where
  /-- Carries a match-length symbol. -/
  | leaf (sym : Sym)
  /-- The empty branch of the one-entry tree; no symbol (R262). -/
  | guard
  /-- Two branches, code bit 0 to `left` and 1 to `right` (R263), and the summed weight. -/
  | internal (left right : Node) (weight : Word)
deriving DecidableEq, Repr

/-- A token: `Lit(b)` or `Match(d, L)` (R43). A match holds the stored distance `d − 1` of R125, so that
every value of the field is a distance in 1..32768. -/
inductive Token where
  /-- A literal byte. -/
  | lit (b : Byte)
  /-- A match of stored distance `x = d − 1` and length `len`. -/
  | pair (x : BitVec 15) (len : Sym)
deriving DecidableEq, Repr

/-- The true distance of a stored distance: "add 1 to recover true distance" (R126). -/
def distOf (x : BitVec 15) : Nat := x.toNat + 1

/-- One constructor per row of spec/opcode_table.json. The commands carry no operand field (R121): they
read ARG0 and ARG1. The two tokens are the replay engine's instructions (R125). -/
inductive Instr where
  /-- 0x00, R380. -/
  | nop
  /-- 0x01, R381. -/
  | softReset
  /-- 0x02, R290. -/
  | outReset
  /-- 0x10, R382. -/
  | compress
  /-- 0x11, R383. -/
  | decompress
  /-- 0x20, R207. -/
  | mfClear
  /-- 0x21, R208. -/
  | mfHash
  /-- 0x22, R209. -/
  | mfSearch
  /-- 0x23, R210. -/
  | mfInsert
  /-- 0x24, R211. -/
  | mfStep
  /-- 0x28, R231. -/
  | tokDerive
  /-- 0x29, R233. -/
  | tokRead
  /-- 0x2A, R235. -/
  | ftClear
  /-- 0x2B, R236. -/
  | ftTally
  /-- 0x2C, R237. -/
  | ftFromTokens
  /-- 0x2D, R238. -/
  | ftRead
  /-- 0x30, R261. -/
  | htBuild
  /-- 0x31, R264. -/
  | htCode
  /-- 0x32, R265. -/
  | hdWalk
  /-- 0x38, R296. -/
  | bwPutbits
  /-- 0x39, R297. -/
  | bwFlush
  /-- 0x3A, R298. -/
  | brGetbits
  /-- 0x40, R320. -/
  | hdrWrite
  /-- 0x41, R327. -/
  | hdrRead
  /-- 0x48, R321. -/
  | encLit
  /-- 0x49, R322. -/
  | encMatch
  /-- 0x4A, R323. -/
  | encTokens
  /-- 0x50, R354. -/
  | treLit
  /-- 0x51, R356. -/
  | treCopy
  /-- 0x52, R352. -/
  | treStep
  /-- 0x53, R355. -/
  | treRun
  /-- The token LIT, `0 b7 … b0` (R350). -/
  | litTok (b : Byte)
  /-- The token MATCH, `1 x14 … x0 code(len)` (R353). -/
  | matchTok (x : BitVec 15) (len : Sym)
deriving DecidableEq, Repr

/-- The instruction a stream token is. -/
def Token.toInstr : Token → Instr
  | .lit b => .litTok b
  | .pair x len => .matchTok x len

/-- The register block (R21); `reserved k` is offset 0x88 + 8·k, up to 0xF8 (R22). The host reaches
whole aligned registers only (R92), so a register name is the only address it has. -/
inductive Reg where
  | id | cmd | status | ctrl | inLen | outCap | outLen | arg0 | arg1 | res0 | res1 | finfo
  | bwState | brPos | origLen | tblInfo | tokCnt
  | reserved (k : Fin 15)
deriving DecidableEq, Repr

/-- The byte offset of a register in the block (R21). -/
def Reg.offset : Reg → Nat
  | .id => 0x00 | .cmd => 0x08 | .status => 0x10 | .ctrl => 0x18 | .inLen => 0x20 | .outCap => 0x28
  | .outLen => 0x30 | .arg0 => 0x38 | .arg1 => 0x40 | .res0 => 0x48 | .res1 => 0x50 | .finfo => 0x58
  | .bwState => 0x60 | .brPos => 0x68 | .origLen => 0x70 | .tblInfo => 0x78 | .tokCnt => 0x80
  | .reserved k => 0x88 + 8 * k.val

/-- One move of the host (R20, R80, R440): it acts only between commands. -/
inductive HostOp where
  /-- A 64-bit register write (`wr` of R124). A write to CMD submits a command (R25). -/
  | wr (r : Reg) (v : Word)
  /-- A 64-bit register read (`rd` of R124). -/
  | rd (r : Reg)
  /-- A byte write to IN (`in` of R124). -/
  | inWr (a : Nat) (b : Byte)
  /-- A byte read of IN. -/
  | inRd (a : Nat)
  /-- A byte write to OUT (R452). -/
  | outWr (a : Nat) (b : Byte)
  /-- A byte read of OUT. -/
  | outRd (a : Nat)
  /-- The reset input RST is driven to a level (R440). -/
  | rst (level : Bool)
deriving DecidableEq, Repr

end Sys2Proof
end

