-- ==== Sys2Proof/WellFormed.lean ====
section
/-! DEFINITION. Well-formed instructions, tokens and trees. -/

namespace Sys2Proof

/-- Some leaf of the tree carries the symbol. -/
def Node.hasSym : Node → Sym → Bool
  | .leaf t, s => t == s
  | .guard, _ => false
  | .internal l r _, s => l.hasSym s || r.hasSym s

/-- The root is an Internal node: "A built tree always has an Internal root" (R45). -/
def Node.isInternal : Node → Bool
  | .internal _ _ _ => true
  | .leaf _ => false
  | .guard => false

/-- An instruction is well-formed against the tree its stream is coded with when a bit string spells it:
a MATCH needs a leaf for its length (R125, R263). Commands and literals are always well-formed (R128). -/
def Instr.wf (tree : Node) : Instr → Bool
  | .matchTok _ len => tree.hasSym len
  | _ => true

/-- A TOKBUF token is well-formed when a match has 3 ≤ L (R43); 1 ≤ d ≤ 32768 and L ≤ 65535 hold by type. -/
def Token.wf : Token → Bool
  | .lit _ => true
  | .pair _ len => decide (Config.minMatch ≤ len.toNat)

/-- The tokens LIT and MATCH; every other instruction is a command. -/
def Instr.isToken : Instr → Bool
  | .litTok _ => true
  | .matchTok _ _ => true
  | _ => false

end Sys2Proof
end

