-- ==== Sys2Proof/Decode.lean ====
section
/-! DEFINITION. Decoding of the two encodings the core executes, command words (R120, R122) and the token
stream (R125, R126, R127), total and rejecting by name, and after it the encoder. The token decoder is
written once over any source of bits: the machine runs it over IN at BR_POS, `decodeToken` over a list. -/

namespace Sys2Proof

/-- Why a word or a bit string is no instruction. -/
inductive Reject where
  /-- RSV = bits 63:8 of a command word are not 0 (R120). -/
  | reservedNotZero
  /-- OP is one of the 225 unassigned codes (R123). -/
  | unassignedOp
  /-- The bits end inside the token (R352, "STOP"). -/
  | streamEnds
  /-- The code bits lead to the Guard: "the only bit pattern that spells no token" (R128). -/
  | guardCode
deriving DecidableEq, Repr

/-! ## Command words -/

/-- The opcode map of R122. -/
def decodeOp (op : BitVec 8) : Option Instr :=
  match op.toNat with
  | 0x00 => some .nop
  | 0x01 => some .softReset
  | 0x02 => some .outReset
  | 0x10 => some .compress
  | 0x11 => some .decompress
  | 0x20 => some .mfClear
  | 0x21 => some .mfHash
  | 0x22 => some .mfSearch
  | 0x23 => some .mfInsert
  | 0x24 => some .mfStep
  | 0x28 => some .tokDerive
  | 0x29 => some .tokRead
  | 0x2A => some .ftClear
  | 0x2B => some .ftTally
  | 0x2C => some .ftFromTokens
  | 0x2D => some .ftRead
  | 0x30 => some .htBuild
  | 0x31 => some .htCode
  | 0x32 => some .hdWalk
  | 0x38 => some .bwPutbits
  | 0x39 => some .bwFlush
  | 0x3A => some .brGetbits
  | 0x40 => some .hdrWrite
  | 0x41 => some .hdrRead
  | 0x48 => some .encLit
  | 0x49 => some .encMatch
  | 0x4A => some .encTokens
  | 0x50 => some .treLit
  | 0x51 => some .treCopy
  | 0x52 => some .treStep
  | 0x53 => some .treRun
  | _ => none

/-- R120: a word is legal exactly when OP = bits 7:0 is assigned and RSV = bits 63:8 is 0. -/
def decodeCommand (w : Word) : Except Reject Instr :=
  if w.extractLsb' 8 56 = 0 then
    match decodeOp (w.extractLsb' 0 8) with
    | some i => .ok i
    | none => .error .unassignedOp
  else .error .reservedNotZero

/-! ## Tokens, over any bit source `get`, which answers `none` at the end of its bits -/

/-- R294: `w` bits, first bit most significant, onto the value `v` read so far; `none` when the bits end. -/
def readBitsWith {σ : Type} (get : σ → Option Bool × σ) : Nat → Nat → σ → Option Nat × σ
  | 0, v, s => (some v, s)
  | w + 1, v, s =>
    match get s with
    | (none, s') => (none, s')
    | (some b, s') => readBitsWith get w (2 * v + b.toNat) s'

/-- How a tree walk ends (R265). -/
inductive WalkResult where
  /-- At a leaf. -/
  | symbol (s : Sym)
  /-- At the Guard. -/
  | guardReached
  /-- At the end of the bits. -/
  | endOfStream
deriving DecidableEq, Repr

/-- R265 `Walk`: one bit per edge from the root, 0 to the left child and 1 to the right. -/
def walkWith {σ : Type} (get : σ → Option Bool × σ) : Node → σ → WalkResult × σ
  | .leaf sym, s => (.symbol sym, s)
  | .guard, s => (.guardReached, s)
  | .internal l r _, s =>
    match get s with
    | (none, s') => (.endOfStream, s')
    | (some false, s') => walkWith get l s'
    | (some true, s') => walkWith get r s'

/-- How reading one token ends. -/
inductive TokenRead where
  /-- The whole token was read. -/
  | token (t : Token)
  /-- Its code bits reached the Guard. -/
  | guardReached
  /-- The bits ended inside it. -/
  | endOfStream
deriving DecidableEq, Repr

/-- R125–R127: the flag bit, then 8 literal bits, or 15 distance bits and the code of the length. -/
def readTokenWith {σ : Type} (get : σ → Option Bool × σ) (tree : Node) (s : σ) : TokenRead × σ :=
  match get s with
  | (none, s₁) => (.endOfStream, s₁)
  | (some false, s₁) =>
    match readBitsWith get Config.litBits 0 s₁ with
    | (none, s₂) => (.endOfStream, s₂)
    | (some v, s₂) => (.token (.lit (BitVec.ofNat 8 v)), s₂)
  | (some true, s₁) =>
    match readBitsWith get Config.distBits 0 s₁ with
    | (none, s₂) => (.endOfStream, s₂)
    | (some x, s₂) =>
      match walkWith get tree s₂ with
      | (.endOfStream, s₃) => (.endOfStream, s₃)
      | (.guardReached, s₃) => (.guardReached, s₃)
      | (.symbol len, s₃) => (.token (.pair (BitVec.ofNat 15 x) len), s₃)

/-- The bit source that is a list of bits. -/
def listBit : List Bool → Option Bool × List Bool
  | [] => (none, [])
  | b :: bs => (some b, bs)

/-- Decodes the first token of a bit string against a tree; the answer holds the bits after it. -/
def decodeToken (tree : Node) (bits : List Bool) : Except Reject (Token × List Bool) :=
  match readTokenWith listBit tree bits with
  | (.token t, rest) => .ok (t, rest)
  | (.guardReached, _) => .error .guardCode
  | (.endOfStream, _) => .error .streamEnds

/-! ## One decoder for both encodings -/

/-- What stands where an instruction is taken from: a word written to CMD, or stream bits. -/
inductive Encoding where
  /-- A command word (R120). -/
  | word (w : Word)
  /-- Stream bits, first bit first (R8, R125). -/
  | bits (l : List Bool)
deriving DecidableEq, Repr

/-- The instruction an encoding begins with. -/
def decode (tree : Node) : Encoding → Except Reject Instr
  | .word w => decodeCommand w
  | .bits l =>
    match decodeToken tree l with
    | .ok (t, _) => .ok t.toInstr
    | .error e => .error e

/-! ## Encoding -/

/-- The OP code of a command (R122); the tokens have none. -/
def opcode? : Instr → Option (BitVec 8)
  | .nop => some 0x00
  | .softReset => some 0x01
  | .outReset => some 0x02
  | .compress => some 0x10
  | .decompress => some 0x11
  | .mfClear => some 0x20
  | .mfHash => some 0x21
  | .mfSearch => some 0x22
  | .mfInsert => some 0x23
  | .mfStep => some 0x24
  | .tokDerive => some 0x28
  | .tokRead => some 0x29
  | .ftClear => some 0x2A
  | .ftTally => some 0x2B
  | .ftFromTokens => some 0x2C
  | .ftRead => some 0x2D
  | .htBuild => some 0x30
  | .htCode => some 0x31
  | .hdWalk => some 0x32
  | .bwPutbits => some 0x38
  | .bwFlush => some 0x39
  | .brGetbits => some 0x3A
  | .hdrWrite => some 0x40
  | .hdrRead => some 0x41
  | .encLit => some 0x48
  | .encMatch => some 0x49
  | .encTokens => some 0x4A
  | .treLit => some 0x50
  | .treCopy => some 0x51
  | .treStep => some 0x52
  | .treRun => some 0x53
  | .litTok _ => none
  | .matchTok _ _ => none

/-- The command word `zext_64(OP)` of R120 and R124. -/
def encodeCommand (i : Instr) : Option Word := (opcode? i).map (BitVec.setWidth 64)

/-- `bits_w(v)` of R8: the `w`-bit string of `v`, most significant bit first. -/
def bitsOf : Nat → Nat → List Bool
  | 0, _ => []
  | w + 1, v => v.testBit w :: bitsOf w v

/-- R263: the code of a symbol, the path to its first leaf in preorder, first bit nearest the root. -/
def codeOf : Node → Sym → Option (List Bool)
  | .leaf t, s => if t = s then some [] else none
  | .guard, _ => none
  | .internal l r _, s =>
    match codeOf l s with
    | some c => some (false :: c)
    | none => (codeOf r s).map (true :: ·)

/-- The token formats of R125; `none` when the tree has no code for the length. -/
def encodeToken (tree : Node) : Token → Option (List Bool)
  | .lit b => some (false :: bitsOf Config.litBits b.toNat)
  | .pair x len => (codeOf tree len).map (fun c => true :: (bitsOf Config.distBits x.toNat ++ c))

/-- The encoding of an instruction; `none` for an instruction that is not well-formed against the tree. -/
def encode (tree : Node) : Instr → Option Encoding
  | .litTok b => (encodeToken tree (.lit b)).map .bits
  | .matchTok x len => (encodeToken tree (.pair x len)).map .bits
  | i => (encodeCommand i).map .word

/-! ## The host's table words -/

/-- The tree an empty table gives (R262 (a)): Internal(Leaf 3, Guard) of weight 1. The tree the host's
token words are read against, since a word alone brings no table (log 8). -/
def placeholderTree : Node := .internal (.leaf 3) .guard 1

/-- The stream bits of a token row's word: bit `k` of the word is stream bit `k`, since the table numbers
the flag, the stream's first bit, "bit 0 of the token". 24 bits hold the longest token of
`placeholderTree`, 17 bits. -/
def tableTokenBits (w : Nat) : List Bool := (List.range 24).map w.testBit

/-- The instruction read from a table row's word (see the host's numbering): 64-bit rows are command
words, shorter rows are tokens. -/
def decodeTableWord (nbits w : Nat) : Option Instr :=
  if 64 ≤ nbits then (decodeCommand (BitVec.ofNat 64 w)).toOption
  else (decode placeholderTree (.bits (tableTokenBits w))).toOption

end Sys2Proof
end

