-- ==== Sys2Proof/Machine/State.lean ====
section
/-! DEFINITION. The state of the core as plain data: every register and internal item of 10_state.md, the
three byte memories of 20_memory.md, the moves the host has still to make, and the machine after reset. -/

namespace Sys2Proof.Machine

/-- A sparse array: (index, value) pairs, indexes strictly rising (`Sparse.wf`). An unlisted index is one
nothing has written since reset. -/
abbrev Sparse (α : Type) := List (Nat × α)

/-- A byte memory in the same form. -/
abbrev Memory := List Host.Cell

/-- The canonical form: strictly rising indexes. Unlisted means unwritten, so no entry repeats what an
unlisted index holds, and equal arrays are equal lists (`Sparse.ext`). -/
abbrev Sparse.wf {α : Type} (m : Sparse α) : Prop := (m.map Prod.fst).Pairwise (· < ·)

/-- The canonical form of a byte memory. -/
abbrev Memory.wf (m : Memory) : Prop := Sparse.wf m

/-- The hash function of the build: HASH3 is OPEN with a stated default (R5, R200, D3). -/
inductive HashSel where
  /-- The default formula of R200. -/
  | default
  /-- Another function, about which nothing is known (`Config.hash3Other k`). -/
  | other (k : Nat)
deriving DecidableEq, Repr

/-- A capacity of R5: a natural number, at most 2^60. -/
abbrev Capacity := Fin (Config.capacityMax + 1)

/-- The OPEN parameters of R5, which the model takes as arguments. No step changes them. -/
structure Params where
  /-- N_MAX: bytes in IN. -/
  nMax : Capacity
  /-- OUT_MAX: bytes in OUT. -/
  outMax : Capacity
  /-- HASH3. -/
  hash3 : HashSel
deriving DecidableEq, Repr

/-- The fields of STATUS (R26). The reserved bits have no storage: they read 0. -/
structure Status where
  /-- Bit 0: a command executes. -/
  busy : Bool
  /-- Bit 1: a command ended without a fault. -/
  done : Bool
  /-- Bit 2: a command ended in a fault. -/
  fault : Bool
  /-- Bit 3: a decode stopped before ORIG_LEN bytes. -/
  trunc : Bool
  /-- Bit 4: a bit read met the end of IN. -/
  eos : Bool
  /-- Bit 5: a host write or command was ignored. -/
  ign : Bool
  /-- Bits 15:8: the code of the recorded fault, 0 for none (R400). -/
  fcode : BitVec 8
deriving DecidableEq, Repr

/-- One entry of the frequency table (R44). -/
structure FtEntry where
  /-- The match length counted. -/
  sym : Sym
  /-- How often it occurs. -/
  freq : Word
deriving DecidableEq, Repr

/-- The whole state. INVENTORY.md lists each field with the rule that names it. -/
structure State where
  /-- MODEL's own: the OPEN parameters of R5. -/
  params : Params
  /-- MODEL's own: the host's moves still to come, first one first (R444). -/
  pending : List HostOp
  /-- MODEL's own: what the host's latest read returned. -/
  hostData : Word
  /-- MODEL's own: how many unspecified values have been drawn (index of `Config.freeWord` and
  `Config.hostOutByte`). -/
  draws : Nat
  /-- MODEL's own: how many times RST has been driven (index of the power-on free values). -/
  resets : Nat
  /-- The level of the reset input RST (R440). -/
  rst : Bool
  /-- STATUS (R26). -/
  status : Status
  /-- CTRL bit 0, IE (R28). -/
  ie : Bool
  /-- IN_LEN (R29). -/
  inLen : Word
  /-- OUT_CAP (R30). -/
  outCap : Word
  /-- OUT_LEN (R31). -/
  outLen : Word
  /-- ARG0 (R32). -/
  arg0 : Word
  /-- ARG1 (R32). -/
  arg1 : Word
  /-- RES0 (R33). -/
  res0 : Word
  /-- RES1 (R33). -/
  res1 : Word
  /-- FINFO (R34). -/
  finfo : Word
  /-- BR_POS (R36). -/
  brPos : Word
  /-- ORIG_LEN (R37). -/
  origLen : Word
  /-- BW_ACC (R47). -/
  bwAcc : BitVec 8
  /-- BW_CNT (R47). -/
  bwCnt : BitVec 3
  /-- HEAD (R41): bucket to position; an unlisted bucket is NIL. -/
  head : Sparse Word
  /-- PREV (R42): slot to link, `none` for NIL; an unlisted slot is unspecified. -/
  prev : Sparse (Option Word)
  /-- TOKBUF (R43). -/
  tokbuf : List Token
  /-- FT (R44), in serialization order. -/
  ft : List FtEntry
  /-- TREE (R45); `none` is NONE. -/
  tree : Option Node
  /-- RING (R48): slot to byte; an unlisted slot is unspecified. -/
  ring : Memory
  /-- IN (R80): the bytes placed there; an unlisted byte is unspecified. -/
  inMem : Memory
  /-- OUT (R80): the bytes written there; an unlisted byte is unspecified, and a byte the host wrote is listed
  as a free value (I7). -/
  outMem : Memory
deriving DecidableEq, Repr

/-- Why the machine stops. Only a host move stops it: every command goes on, and a fault of a command is
recorded in STATUS (R404), which is a next state. -/
inductive Fault where
  /-- Raised by a host access to IN at an index that IN does not have (`≥ N_MAX`, R80). Safe: the model
  stops where the platform's behaviour is not the core's. -/
  | noSuchInByte
  /-- Raised by a host access to OUT at an index that OUT does not have (`≥ OUT_MAX`, R80). Safe. -/
  | noSuchOutByte
deriving DecidableEq, Repr

/-- Why the machine refuses. -/
inductive Refusal where
  /-- An instruction without a meaning, by its mnemonic. No arm answers it: every row is modelled. Safe. -/
  | notModelled (mnemonic : String)
  /-- Raised by a host access to IN or OUT while BUSY = 1, which R451 forbids and
  93_implementation_defined.md I9 has a model refuse. Safe: no reachable state has BUSY = 1. -/
  | hostMemoryAccessWhileBusy
deriving DecidableEq, Repr

/-- STATUS = 0 (R26, R441). -/
def Status.clear : Status := ⟨false, false, false, false, false, false, 0⟩

/-- The parameters of a run from `State.reset`: both capacities at the bound R5 sets, and the default
HASH3 (DESIGN CHOICE, log 2). -/
def Params.reset : Params := ⟨⟨Config.capacityMax, by decide⟩, ⟨Config.capacityMax, by decide⟩, .default⟩

/-- The state after hardware reset (R52, R441): registers 0, HEAD all NIL, TOKBUF and FT empty, TREE NONE;
PREV, RING, IN and OUT unspecified, that is, nothing listed. The model's own fields start at nothing
pending and 0 (DESIGN CHOICE, log 4, log 5). -/
def State.reset : State where
  params := Params.reset
  pending := []
  hostData := 0
  draws := 0
  resets := 0
  rst := false
  status := Status.clear
  ie := false
  inLen := 0
  outCap := 0
  outLen := 0
  arg0 := 0
  arg1 := 0
  res0 := 0
  res1 := 0
  finfo := 0
  brPos := 0
  origLen := 0
  bwAcc := 0
  bwCnt := 0
  head := []
  prev := []
  tokbuf := []
  ft := []
  tree := none
  ring := []
  inMem := []
  outMem := []

end Sys2Proof.Machine
end

