-- ==== Sys2Proof/Machine/Ops.lean ====
section
/-! DEFINITION. The shared operations: sparse arrays and the byte memories, how a command ends (normal
completion, taking a fault, and the return from one), and the output write primitive with the ring. -/

namespace Sys2Proof.Machine

/-! ## Sparse arrays -/

/-- What is listed at an index; `none` when nothing has written it. -/
def Sparse.get? {α : Type} : Sparse α → Nat → Option α
  | [], _ => none
  | (k, v) :: m, a => if k = a then some v else Sparse.get? m a

/-- A write, which keeps the indexes rising. -/
def Sparse.set {α : Type} : Sparse α → Nat → α → Sparse α
  | [], a, v => [(a, v)]
  | (k, w) :: m, a, v =>
    if a < k then (a, v) :: (k, w) :: m
    else if a = k then (a, v) :: m
    else (k, w) :: Sparse.set m a v

/-- A sequence of writes at increasing indexes from `a`. -/
def Sparse.setAll {α : Type} : Sparse α → Nat → List α → Sparse α
  | m, _, [] => m
  | m, a, v :: vs => Sparse.setAll (Sparse.set m a v) (a + 1) vs

/-! ## Byte order (R84): LE_k, least significant byte first -/

/-- `LE_k(v)` of R9. -/
def leBytes : Nat → Nat → List Byte
  | 0, _ => []
  | k + 1, v => BitVec.ofNat 8 v :: leBytes k (v / 256)

/-- The number whose LE string a list of bytes is. -/
def leValue : List Byte → Nat
  | [] => 0
  | b :: bs => b.toNat + 256 * leValue bs

/-! ## The memories -/

/-- `MemRead(IN, a, 1)` (R81); a byte nothing has placed is unspecified (R52). -/
def inByte (s : State) (a : Nat) : Byte :=
  (Sparse.get? s.inMem a).getD (Config.powerOnByte s.resets .inMem a)

/-- The byte the host reads at OUT[a] (R89); a byte that the core did not write, or not since the host last
wrote it, is unspecified (R52, I7, log 6). -/
def outByte (s : State) (a : Nat) : Byte :=
  (Sparse.get? s.outMem a).getD (Config.powerOnByte s.resets .outMem a)

/-- `RingRead(a)` of R87. -/
def ringRead (s : State) (a : Nat) : Byte :=
  (Sparse.get? s.ring (a % Config.ringSize)).getD
    (Config.powerOnByte s.resets .ring (a % Config.ringSize))

/-- `k` bytes of IN from index `a`, in increasing address order (R85). -/
def inBytes (s : State) : Nat → Nat → List Byte
  | _, 0 => []
  | a, k + 1 => inByte s a :: inBytes s (a + 1) k

/-- HEAD[h] (R41); `none` is NIL. -/
def headAt (s : State) (h : Nat) : Option Word := Sparse.get? s.head h

/-- PREV[q mod 32768] (R42); a slot nothing has written is unspecified. -/
def prevAt (s : State) (q : Nat) : Option Word :=
  (Sparse.get? s.prev (q % Config.window)).getD (Config.powerOnPrev s.resets (q % Config.window))

/-! ## Command results and faults -/

/-- The fault codes of R400. -/
inductive FaultCode where
  | illegalCmd | inRange | outRange | badArg | badState | outOverflow | headerShort | freqOverflow
  | noTree | noCode | codeTooLong | guardCode | distOob | lengthOverrun
deriving DecidableEq, Repr

/-- The FCODE value of a fault (R400). -/
def FaultCode.code : FaultCode → BitVec 8
  | .illegalCmd => 0x01
  | .inRange => 0x02
  | .outRange => 0x03
  | .badArg => 0x04
  | .badState => 0x05
  | .outOverflow => 0x06
  | .headerShort => 0x07
  | .freqOverflow => 0x08
  | .noTree => 0x09
  | .noCode => 0x0A
  | .codeTooLong => 0x0B
  | .guardCode => 0x0C
  | .distOob => 0x0D
  | .lengthOverrun => 0x0E

/-- How a piece of pseudocode ends: with a value, or by `raise Fault(c, info)` (R401). Both keep the state
reached: a fault undoes nothing (R405). -/
inductive Res (α : Type) where
  /-- It ran to its end. -/
  | ok (a : α) (s : State)
  /-- It raised a fault. -/
  | fault (c : FaultCode) (info : Word) (s : State)
deriving DecidableEq, Repr

/-- Sequencing: "No later step of its pseudocode runs" after a fault (R401). -/
def Res.bind {α β : Type} : Res α → (α → State → Res β) → Res β
  | .ok a s, f => f a s
  | .fault c i s, _ => .fault c i s

/-- `if not cond: raise Fault(c, info)`. -/
def require (cond : Bool) (c : FaultCode) (info : Word) (s : State) : Res Unit :=
  if cond then .ok () s else .fault c info s

/-- A command's RES0 and RES1 writes; `none` where its rule writes none (R33). -/
structure Results where
  /-- RES0. -/
  r0 : Option Word
  /-- RES1. -/
  r1 : Option Word
deriving DecidableEq, Repr

/-- No results. -/
def Results.none : Results := ⟨Option.none, Option.none⟩

/-- RES0 alone. -/
def Results.one (a : Word) : Results := ⟨some a, Option.none⟩

/-- Both results. -/
def Results.two (a b : Word) : Results := ⟨some a, some b⟩

/-- R404, normal end: commit the results, BUSY 0, DONE 1. -/
def complete (r : Results) (s : State) : State :=
  { s with res0 := r.r0.getD s.res0, res1 := r.r1.getD s.res1,
           status := { s.status with busy := false, done := true } }

/-- TAKING A FAULT (R404, R410): BUSY 0, FAULT 1, FCODE and FINFO recorded; nothing else is saved, and
DONE, RES0 and RES1 keep their values. -/
def takeFault (c : FaultCode) (info : Word) (s : State) : State :=
  { s with status := { s.status with busy := false, fault := true, fcode := c.code }, finfo := info }

/-- THE RETURN FROM A FAULT (R411, R27): clearing FAULT also sets FCODE and FINFO to 0, and lifts the lock. -/
def acknowledgeFault (s : State) : State :=
  { s with status := { s.status with fault := false, fcode := 0 }, finfo := 0 }

/-- R402: the start of an accepted command, DONE 0 and BUSY 1. -/
def accept (s : State) : State := { s with status := { s.status with done := false, busy := true } }

/-- Completion of a command body as R404 says, in either case a next state. -/
def finish : Res Results → Host.Outcome State Fault Refusal
  | .ok r s => .next (complete r s)
  | .fault c i s => .next (takeFault c i s)

/-- The range checks of R403, in its order (ILLEGAL_CMD, the first, is the decoder's). -/
def startChecks (s : State) : Res Unit :=
  if s.params.nMax.val < s.inLen.toNat then .fault .inRange s.inLen s
  else if s.params.outMax.val < s.outCap.toNat then .fault .outRange s.outCap s
  else .ok () s

/-- A command: start checks (R403), its body, completion (R404). -/
def runCommand (body : State → Res Results) (s : State) : Host.Outcome State Fault Refusal :=
  finish ((startChecks s).bind fun _ s => body s)

/-! ## The output write primitive (R86) -/

/-- The effect of an OutWrite that passes its check. -/
def appendByte (v : Byte) (s : State) : State :=
  { s with outMem := Sparse.set s.outMem s.outLen.toNat v,
           ring := Sparse.set s.ring (s.outLen.toNat % Config.ringSize) v,
           outLen := s.outLen + 1 }

/-- `OutWrite(v)` of R86: the check comes before any effect. -/
def outWrite (v : Byte) (s : State) : Res Unit :=
  if s.outCap.toNat ≤ s.outLen.toNat then .fault .outOverflow s.outLen s
  else .ok () (appendByte v s)

/-- OutWrite of each byte in order. -/
def outWriteAll : List Byte → State → Res Unit
  | [], s => .ok () s
  | v :: vs, s => (outWrite v s).bind fun _ s => outWriteAll vs s

/-- The OUT_RESET body (R290): OUT_LEN, BW_ACC and BW_CNT become 0. -/
def outResetBody (s : State) : State := { s with outLen := 0, bwAcc := 0, bwCnt := 0 }

/-- `reg[STATUS].TRUNC <- 1`. -/
def setTrunc (s : State) : State := { s with status := { s.status with trunc := true } }

/-- `reg[STATUS].EOS <- 1`. -/
def setEos (s : State) : State := { s with status := { s.status with eos := true } }

/-- `STATUS.IGN <- 1`. -/
def setIgn (s : State) : State := { s with status := { s.status with ign := true } }

end Sys2Proof.Machine
end

