-- ==== Sys2Proof/Machine/Operands.lean ====
section
/-! DEFINITION. The operand domains (R121, D31): each reads ARG0 or ARG1 whole, and a value outside its
domain raises BAD_ARG with FINFO 0 for ARG0 and 1 for ARG1. -/

namespace Sys2Proof.Machine

/-- R200 `Hashable(p)`: p + 3 ≤ n. -/
def hashable (s : State) (p : Nat) : Bool := decide (p + Config.minMatch ≤ s.inLen.toNat)

/-- ARG0 when it passes a domain check. -/
def arg0Where (ok : Nat → Bool) (s : State) : Res Nat :=
  if ok s.arg0.toNat then .ok s.arg0.toNat s else .fault .badArg 0 s

/-- ARG1 when it passes a domain check. -/
def arg1Where (ok : Nat → Bool) (s : State) : Res Nat :=
  if ok s.arg1.toNat then .ok s.arg1.toNat s else .fault .badArg 1 s

/-- A position p < n (R209, R210, R211). -/
def argPosition (s : State) : Res Nat := arg0Where (fun p => decide (p < s.inLen.toNat)) s

/-- A hashable position (R208). -/
def argHashable (s : State) : Res Nat := arg0Where (hashable s) s

/-- A byte (R321, R354). -/
def argByte (s : State) : Res Nat := arg0Where (fun b => decide (b ≤ 255)) s

/-- A field width of at most 64 (R296, R298). -/
def argWidth (s : State) : Res Nat := arg0Where (fun w => decide (w ≤ 64)) s

/-- The list entry at index ARG0, which must be below the list's length (R233, R238). -/
def argIndexed {α : Type} (l : List α) (s : State) : Res α :=
  match l[s.arg0.toNat]? with
  | some a => .ok a s
  | none => .fault .badArg 0 s

/-- A symbol to tally, 1..65535 (R236). -/
def argTally (s : State) : Res Nat := arg0Where (fun v => decide (1 ≤ v ∧ v ≤ 65535)) s

/-- A symbol to look up, 0..65535 (R264). -/
def argSymbol (s : State) : Res Nat := arg0Where (fun v => decide (v ≤ 65535)) s

/-- The word index of HT_CODE, 0 or 1 (R264). -/
def argWordIndex (s : State) : Res Nat := arg1Where (fun j => decide (j ≤ 1)) s

/-- A distance, 1..32768 (R322, R356). -/
def argDistance (s : State) : Res Nat := arg0Where (fun d => decide (1 ≤ d ∧ d ≤ Config.window)) s

/-- A length, 0..65535, in ARG1 (R322, R356). -/
def argLength (s : State) : Res Nat := arg1Where (fun l => decide (l ≤ 65535)) s

end Sys2Proof.Machine
end

