-- ==== Sys2Proof/Machine/BitStream.lean ====
section
/-! DEFINITION. The bit-stream packer and unpacker (43_bitstream.md), OUT_RESET, and their commands. -/

namespace Sys2Proof.Machine

/-- R291 `PutBit(b)`: all-or-nothing, so a faulting OutWrite leaves BW_ACC and BW_CNT as they were. -/
def putBit (b : Bool) (s : State) : Res Unit :=
  let acc : Byte := (s.bwAcc <<< 1) ||| (BitVec.ofBool b).setWidth 8
  if s.bwCnt.toNat + 1 = 8 then
    (outWrite acc s).bind fun _ s => .ok () { s with bwAcc := 0, bwCnt := 0 }
  else .ok () { s with bwAcc := acc, bwCnt := s.bwCnt + 1 }

/-- PutBit of each bit, first to last. -/
def putBitList : List Bool → State → Res Unit
  | [], s => .ok () s
  | b :: bs, s => (putBit b s).bind fun _ s => putBitList bs s

/-- R292 `PutBits(w, v)`: bits v[w−1] down to v[0]. -/
def putBits (w v : Nat) (s : State) : Res Unit := putBitList (bitsOf w v) s

/-- R295 `Flush()`: the pending bits take the high positions and zeros the low ones; the answer is the
number of pad bits. -/
def flush (s : State) : Res Nat :=
  if s.bwCnt.toNat = 0 then .ok 0 s
  else
    (outWrite (s.bwAcc <<< (8 - s.bwCnt.toNat)) s).bind fun _ s' =>
      .ok (8 - s.bwCnt.toNat) { s' with bwAcc := 0, bwCnt := 0 }

/-- Bit `k` of the stream in IN (R36, R83): bit 7 − (k mod 8) of byte IN[k div 8]. -/
def streamBit (s : State) (k : Nat) : Bool := (inByte s (k / 8)).getLsbD (7 - k % 8)

/-- R293 `GetBit()`: EOS at 8·IN_LEN, without advancing; else the bit at BR_POS. -/
def getBit (s : State) : Option Bool × State :=
  if 8 * s.inLen.toNat ≤ s.brPos.toNat then (none, setEos s)
  else (some (streamBit s s.brPos.toNat), { s with brPos := s.brPos + 1 })

/-- R294 `GetBits(w)`: a field cut short is EOS as a whole, its bits consumed. -/
def getBits (w : Nat) (s : State) : Option Nat × State := readBitsWith getBit w 0 s

/-- OUT_RESET (R290). -/
def execOutReset (s : State) : Host.Outcome State Fault Refusal :=
  runCommand (fun s => .ok Results.none (outResetBody s)) s

/-- BW_PUTBITS (R296): the low w bits of ARG1. -/
def execBwPutbits (s : State) : Host.Outcome State Fault Refusal :=
  runCommand (fun s => (argWidth s).bind fun w s =>
    (putBits w (s.arg1.toNat % 2 ^ w) s).bind fun _ s => .ok Results.none s) s

/-- BW_FLUSH (R297). -/
def execBwFlush (s : State) : Host.Outcome State Fault Refusal :=
  runCommand (fun s => (flush s).bind fun pad s => .ok (Results.one (BitVec.ofNat 64 pad)) s) s

/-- RES0 and RES1 of a field read: the value and 0, or 0 and 1 at the end of the stream (R298, R265). -/
def fieldResults : Option Nat → Results
  | some v => Results.two (BitVec.ofNat 64 v) 0
  | none => Results.two 0 1

/-- BR_GETBITS (R298). -/
def execBrGetbits (s : State) : Host.Outcome State Fault Refusal :=
  runCommand (fun s => (argWidth s).bind fun w s =>
    .ok (fieldResults (getBits w s).1) (getBits w s).2) s

end Sys2Proof.Machine
end

