-- ==== Sys2Proof/Machine/MatchFinder.lean ====
section
/-! DEFINITION. The match finder (40_match_finder.md): hash, extension, search, insertion, and the five
MF commands. -/

namespace Sys2Proof.Machine

/-- The default HASH3 of R200: ((b0 << 8) XOR (b1 << 4) XOR b2) AND 0xFFFF. -/
def hash3Default (b₀ b₁ b₂ : Byte) : BitVec 16 :=
  (b₀.setWidth 16 <<< 8) ^^^ (b₁.setWidth 16 <<< 4) ^^^ b₂.setWidth 16

/-- HASH3 of the build (R200, D3). -/
def hash3 : HashSel → Byte → Byte → Byte → BitVec 16
  | .default, b₀, b₁, b₂ => hash3Default b₀ b₁ b₂
  | .other k, b₀, b₁, b₂ => Config.hash3Other k b₀ b₁ b₂

/-- R200 `h(p)`, the bucket of a hashable position. -/
def hashAt (s : State) (p : Nat) : Nat :=
  (hash3 s.params.hash3 (inByte s p) (inByte s (p + 1)) (inByte s (p + 2))).toNat

/-- How many of the next `k` byte pairs at q and p agree before the first that does not. -/
def matchRun (s : State) : Nat → Nat → Nat → Nat
  | 0, _, _ => 0
  | k + 1, q, p => if inByte s q = inByte s p then matchRun s k (q + 1) (p + 1) + 1 else 0

/-- R201 `Extend(q, p)`: to the first mismatch, the end of the input, or MAX_MATCH. -/
def extend (s : State) (q p : Nat) : Nat := matchRun s (min (s.inLen.toNat - p) Config.maxMatch) q p

/-- The chain walk of R202, over at most `k` more entries from `q`, holding the best (distance, length)
so far. A candidate replaces it only when strictly longer; one farther than WINDOW ends the walk; an entry
`q ≥ p` is counted and skipped (R205). -/
def searchLoop (s : State) (p : Nat) : Nat → Option Word → Nat × Nat → Nat × Nat
  | 0, _, best => best
  | _ + 1, none, best => best
  | k + 1, some q, best =>
    if q.toNat < p then
      if Config.window < p - q.toNat then best
      else
        let len := extend s q.toNat p
        searchLoop s p k (prevAt s q.toNat) (if best.2 < len then (p - q.toNat, len) else best)
    else searchLoop s p k (prevAt s q.toNat) best

/-- R202 `Search(p)`: (distance, length), or (0, 0) for "no match". -/
def search (s : State) (p : Nat) : Nat × Nat :=
  if hashable s p then
    let best := searchLoop s p Config.maxChain (headAt s (hashAt s p)) (0, 0)
    if best.2 < Config.minMatch then (0, 0) else best
  else (0, 0)

/-- R203 `Insert(p)`. -/
def insertPos (s : State) (p : Nat) : State :=
  if hashable s p then
    { s with prev := Sparse.set s.prev (p % Config.window) (headAt s (hashAt s p)),
             head := Sparse.set s.head (hashAt s p) (BitVec.ofNat 64 p) }
  else s

/-- The MF_CLEAR body (R207): every HEAD entry NIL. -/
def mfClearBody (s : State) : State := { s with head := [] }

/-- A (distance, length) pair as RES0 and RES1. -/
def pairResults (r : Nat × Nat) : Results := Results.two (BitVec.ofNat 64 r.1) (BitVec.ofNat 64 r.2)

/-- MF_CLEAR (R207). -/
def execMfClear (s : State) : Host.Outcome State Fault Refusal :=
  runCommand (fun s => .ok Results.none (mfClearBody s)) s

/-- MF_HASH (R208). -/
def execMfHash (s : State) : Host.Outcome State Fault Refusal :=
  runCommand (fun s => (argHashable s).bind fun p s =>
    .ok (Results.one (BitVec.ofNat 64 (hashAt s p))) s) s

/-- MF_SEARCH (R209). -/
def execMfSearch (s : State) : Host.Outcome State Fault Refusal :=
  runCommand (fun s => (argPosition s).bind fun p s => .ok (pairResults (search s p)) s) s

/-- MF_INSERT (R210). -/
def execMfInsert (s : State) : Host.Outcome State Fault Refusal :=
  runCommand (fun s => (argPosition s).bind fun p s => .ok Results.none (insertPos s p)) s

/-- MF_STEP (R211): the search happens before the insert. -/
def execMfStep (s : State) : Host.Outcome State Fault Refusal :=
  runCommand (fun s => (argPosition s).bind fun p s =>
    .ok (pairResults (search s p)) (insertPos s p)) s

end Sys2Proof.Machine
end

