-- ==== Sys2Proof/Machine/Tokens.lean ====
section
/-! DEFINITION. Token derivation and the length-frequency table (41_tokens_frequency.md). -/

namespace Sys2Proof.Machine

/-- The token that the scan emits at position p for a search result (R230, R231). -/
def tokenAt (s : State) (p : Nat) (r : Nat × Nat) : Token :=
  if Config.minMatch ≤ r.2 then .pair (BitVec.ofNat 15 (r.1 - 1)) (BitVec.ofNat 16 r.2)
  else .lit (inByte s p)

/-- How far the scan advances past that token. -/
def advanceOf (r : Nat × Nat) : Nat := if Config.minMatch ≤ r.2 then r.2 else 1

/-- The loop of R231 over the next `k` positions from `p`, with the next token due at `due`. -/
def deriveLoop : Nat → Nat → Nat → State → State
  | 0, _, _, s => s
  | k + 1, p, due, s =>
    if p = due then
      let r := search s p
      deriveLoop k (p + 1) (p + advanceOf r)
        (insertPos { s with tokbuf := s.tokbuf ++ [tokenAt s p r] } p)
    else deriveLoop k (p + 1) due (insertPos s p)

/-- The TOK_DERIVE body (R231): HEAD all NIL, TOKBUF empty, then the scan of positions 0..n−1. -/
def tokDeriveBody (s : State) : State :=
  deriveLoop s.inLen.toNat 0 0 { mfClearBody s with tokbuf := [] }

/-- TOK_CNT (R39). -/
def tokCount (s : State) : Word := BitVec.ofNat 64 s.tokbuf.length

/-- TOK_DERIVE (R231). -/
def execTokDerive (s : State) : Host.Outcome State Fault Refusal :=
  runCommand (fun s => let s := tokDeriveBody s; .ok (Results.one (tokCount s)) s) s

/-- RES0 and RES1 of TOK_READ (R233): kind, and the byte or (d << 32) OR L. -/
def tokenResults : Token → Results
  | .lit b => Results.two 0 (b.setWidth 64)
  | .pair x len => Results.two 1 ((BitVec.ofNat 64 (distOf x) <<< 32) ||| len.setWidth 64)

/-- TOK_READ (R233). -/
def execTokRead (s : State) : Host.Outcome State Fault Refusal :=
  runCommand (fun s => (argIndexed s.tokbuf s).bind fun t s => .ok (tokenResults t) s) s

/-! ## The frequency table -/

/-- The frequency of the first entry of a symbol (R234). -/
def ftFreq (ft : List FtEntry) (v : Sym) : Option Word :=
  match ft with
  | [] => none
  | e :: es => if e.sym = v then some e.freq else ftFreq es v

/-- Adds 1 to the first entry of a symbol (R234). -/
def ftBump : List FtEntry → Sym → List FtEntry
  | [], _ => []
  | e :: es, v => if e.sym = v then ⟨e.sym, e.freq + 1⟩ :: es else e :: ftBump es v

/-- Inserts (v, 1) just before the first entry with a larger symbol, or at the end (R234). -/
def ftInsert : List FtEntry → Sym → List FtEntry
  | [], v => [⟨v, 1⟩]
  | e :: es, v => if v.toNat < e.sym.toNat then ⟨v, 1⟩ :: e :: es else e :: ftInsert es v

/-- FT replaced and TREE set to NONE. -/
def setTable (ft : List FtEntry) (s : State) : State := { s with ft := ft, tree := none }

/-- `Tally(v)` of R234. -/
def tally (v : Sym) (s : State) : Res Unit :=
  match ftFreq s.ft v with
  | some f =>
    if f.toNat = 2 ^ 64 - 1 then .fault .freqOverflow (v.setWidth 64) s
    else .ok () (setTable (ftBump s.ft v) s)
  | none =>
    if s.ft.length = Config.ftMax then .fault .badState 65535 s
    else .ok () (setTable (ftInsert s.ft v) s)

/-- Tally of each match length of a token list, in order (R237). -/
def tallyTokens : List Token → State → Res Unit
  | [], s => .ok () s
  | .lit _ :: ts, s => tallyTokens ts s
  | .pair _ len :: ts, s => (tally len s).bind fun _ s => tallyTokens ts s

/-- The placeholder entry of R5: symbol 3, frequency 1. -/
def placeholderEntry : FtEntry := ⟨3, 1⟩

/-- The FT_FROM_TOKENS body (R237), with the empty-table substitution. -/
def ftFromTokensBody (s : State) : Res Unit :=
  (tallyTokens s.tokbuf { s with ft := [] }).bind fun _ s =>
    .ok () (setTable (if s.ft = [] then [placeholderEntry] else s.ft) s)

/-- FT_CLEAR (R235). -/
def execFtClear (s : State) : Host.Outcome State Fault Refusal :=
  runCommand (fun s => .ok Results.none (setTable [] s)) s

/-- FT_TALLY (R236): RES0 is the frequency of the entry Tally changed. -/
def execFtTally (s : State) : Host.Outcome State Fault Refusal :=
  runCommand (fun s => (argTally s).bind fun v s =>
    (tally (BitVec.ofNat 16 v) s).bind fun _ s =>
      .ok (Results.one ((ftFreq s.ft (BitVec.ofNat 16 v)).getD 0)) s) s

/-- FT_FROM_TOKENS (R237). -/
def execFtFromTokens (s : State) : Host.Outcome State Fault Refusal :=
  runCommand (fun s => (ftFromTokensBody s).bind fun _ s =>
    .ok (Results.one (BitVec.ofNat 64 s.ft.length)) s) s

/-- FT_READ (R238). -/
def execFtRead (s : State) : Host.Outcome State Fault Refusal :=
  runCommand (fun s => (argIndexed s.ft s).bind fun e s =>
    .ok (Results.two (e.sym.setWidth 64) e.freq) s) s

end Sys2Proof.Machine
end

