-- ==== Sys2Proof/Machine/Huffman.lean ====
section
/-! DEFINITION. The Huffman tree builder, the codes and the decoder tree walk (42_huffman.md). -/

namespace Sys2Proof.Machine

/-- An element of the builder's queue (R260): a node, its weight and its sequence number. -/
structure QItem where
  /-- The tree built so far. -/
  node : Node
  /-- Its weight. -/
  w : Word
  /-- Its sequence number. -/
  seq : Nat
deriving DecidableEq, Repr

/-- The order of ExtractMin: least (weight, seq), compared lexicographically (R260). -/
def QItem.before (a b : QItem) : Bool :=
  decide (a.w.toNat < b.w.toNat) || (decide (a.w = b.w) && decide (a.seq < b.seq))

/-- ExtractMin of the nonempty queue `best :: q` (R260): the least element and the others. -/
def extractMin (best : QItem) : List QItem → QItem × List QItem
  | [] => (best, [])
  | x :: q =>
    if x.before best then
      let r := extractMin x q
      (r.1, best :: r.2)
    else
      let r := extractMin best q
      (r.1, x :: r.2)

/-- The merged element of R260: the first extracted becomes the left child. -/
def mergeItems (a b : QItem) (c : Nat) : QItem := ⟨.internal a.node b.node (a.w + b.w), a.w + b.w, c⟩

/-- The loop of R260 on the nonempty queue `a :: q`, `c` the next sequence number; `none` when a weight
sum passes 2^64 − 1. The bound `k` is the number of merges left, `q.length` (`mergeLoop_fuel`); where the
merged element stands in the queue does not matter, since no two elements are equal in the order. -/
def mergeLoop : Nat → QItem → List QItem → Nat → Option Node
  | _, a, [], _ => some a.node
  | 0, a, _ :: _, _ => some a.node
  | k + 1, a, b :: q, c =>
    match extractMin a (b :: q) with
    | (m, []) => some m.node
    | (m, x :: r) =>
      let y := extractMin x r
      if 2 ^ 64 ≤ m.w.toNat + y.1.w.toNat then none
      else mergeLoop k (mergeItems m y.1 c) y.2 (c + 1)

/-- The leaves of the initial queue, with sequence numbers from `i` (R260). -/
def leafItems : List FtEntry → Nat → List QItem
  | [], _ => []
  | e :: es, i => ⟨.leaf e.sym, e.freq, i⟩ :: leafItems es (i + 1)

/-- R260 `BuildTree(E)`, `none` for FREQ_OVERFLOW; the degenerate tables of R262 come first. -/
def buildTree : List FtEntry → Option Node
  | [] => some (.internal (.leaf placeholderEntry.sym) .guard placeholderEntry.freq)
  | [e] => some (.internal (.leaf e.sym) .guard e.freq)
  | e :: f :: es =>
    mergeLoop (es.length + 1) ⟨.leaf e.sym, e.freq, 0⟩ (leafItems (f :: es) 1) (es.length + 2)

/-- The number of Leaf nodes (R261). -/
def leafCount : Node → Nat
  | .leaf _ => 1
  | .guard => 0
  | .internal l r _ => leafCount l + leafCount r

/-- The HT_BUILD body (R261): TREE is written only on success. The answer is the tree. -/
def htBuildBody (s : State) : Res Node :=
  match buildTree s.ft with
  | some t => .ok t { s with tree := some t }
  | none => .fault .freqOverflow 0xFFFFFFFFFFFFFFFF s

/-- HT_BUILD (R261). -/
def execHtBuild (s : State) : Host.Outcome State Fault Refusal :=
  runCommand (fun s => (htBuildBody s).bind fun t s =>
    .ok (Results.one (BitVec.ofNat 64 (leafCount t))) s) s

/-- TREE, or the fault NO_TREE (R400). -/
def needTree (s : State) : Res Node :=
  match s.tree with
  | some t => .ok t s
  | none => .fault .noTree 0 s

/-- code(v) of at most CODE_MAX bits, or the faults NO_CODE and CODE_TOO_LONG in that order (R264, R322). -/
def needCode (tree : Node) (v : Sym) (s : State) : Res (List Bool) :=
  match codeOf tree v with
  | none => .fault .noCode (v.setWidth 64) s
  | some c => if Config.codeMax < c.length then .fault .codeTooLong (v.setWidth 64) s else .ok c s

/-- The number whose `bits_k` string a bit list is (R8, R264). -/
def bitsValue (l : List Bool) : Nat := l.foldl (fun v b => 2 * v + b.toNat) 0

/-- HT_CODE (R264): the code's length, and its 64-bit word j. -/
def execHtCode (s : State) : Host.Outcome State Fault Refusal :=
  runCommand (fun s => (argSymbol s).bind fun v s =>
    (argWordIndex s).bind fun j s =>
    (needTree s).bind fun tree s =>
    (needCode tree (BitVec.ofNat 16 v) s).bind fun c s =>
    .ok (Results.two (BitVec.ofNat 64 c.length) (BitVec.ofNat 64 (bitsValue c >>> (64 * j)))) s) s

/-- R265 `Walk()` over IN at BR_POS. -/
def walk (tree : Node) (s : State) : WalkResult × State := walkWith getBit tree s

/-- HD_WALK (R265). -/
def execHdWalk (s : State) : Host.Outcome State Fault Refusal :=
  runCommand (fun s => (needTree s).bind fun tree s =>
    match walk tree s with
    | (.symbol v, s) => .ok (Results.two (v.setWidth 64) 0) s
    | (.endOfStream, s) => .ok (Results.two 0 1) s
    | (.guardReached, s) => .fault .guardCode s.brPos s) s

end Sys2Proof.Machine
end

