-- ==== Sys2Proof/Machine/Container.lean ====
section
/-! DEFINITION. The container header and token emission (44_container.md). -/

namespace Sys2Proof.Machine

/-- The header bytes of R320 and R130: LE_8(n), LE_2(M), then LE_2(sym) and LE_8(freq) per entry. -/
def headerBytes (n : Nat) (ft : List FtEntry) : List Byte :=
  leBytes 8 n ++ leBytes 2 ft.length ++
    ft.flatMap (fun e => leBytes 2 e.sym.toNat ++ leBytes 8 e.freq.toNat)

/-- The header's size for M entries (R130): 10 + 10·M. -/
def headerSize (m : Nat) : Nat := 10 + 10 * m

/-- The HDR_WRITE body (R320). -/
def hdrWriteBody (s : State) : Res Unit :=
  if s.bwCnt.toNat = 0 then outWriteAll (headerBytes s.inLen.toNat s.ft) s
  else .fault .badState (s.bwCnt.setWidth 64) s

/-- HDR_WRITE (R320). -/
def execHdrWrite (s : State) : Host.Outcome State Fault Refusal :=
  runCommand (fun s => (hdrWriteBody s).bind fun _ s =>
    .ok (Results.one (BitVec.ofNat 64 (headerSize s.ft.length))) s) s

/-- R321 `EncLit(b)`. -/
def encLitBody (b : Nat) (s : State) : Res Unit :=
  (putBit false s).bind fun _ s => putBits Config.litBits b s

/-- R322 `EncMatch(d, L)`: every check comes before any bit; the answer is |code(L)|. -/
def encMatchBody (d : Nat) (len : Sym) (s : State) : Res Nat :=
  (needTree s).bind fun tree s =>
  (needCode tree len s).bind fun c s =>
  (putBit true s).bind fun _ s =>
  (putBits Config.distBits (d - 1) s).bind fun _ s =>
  (putBitList c s).bind fun _ s => .ok c.length s

/-- ENC_LIT (R321). -/
def execEncLit (s : State) : Host.Outcome State Fault Refusal :=
  runCommand (fun s => (argByte s).bind fun b s =>
    (encLitBody b s).bind fun _ s => .ok Results.none s) s

/-- ENC_MATCH (R322). -/
def execEncMatch (s : State) : Host.Outcome State Fault Refusal :=
  runCommand (fun s => (argDistance s).bind fun d s =>
    (argLength s).bind fun l s =>
    (encMatchBody d (BitVec.ofNat 16 l) s).bind fun _ s => .ok Results.none s) s

/-- The token loop of R323; the answer is the number of bits emitted onto `n`. -/
def encTokenList : List Token → Nat → State → Res Nat
  | [], n, s => .ok n s
  | .lit b :: ts, n, s => (encLitBody b.toNat s).bind fun _ s => encTokenList ts (n + 9) s
  | .pair x len :: ts, n, s =>
    (encMatchBody (distOf x) len s).bind fun k s => encTokenList ts (n + (16 + k)) s

/-- The ENC_TOKENS body (R323). -/
def encTokensBody (s : State) : Res Nat :=
  (needTree s).bind fun _ s => encTokenList s.tokbuf 0 s

/-- ENC_TOKENS (R323). -/
def execEncTokens (s : State) : Host.Outcome State Fault Refusal :=
  runCommand (fun s => (encTokensBody s).bind fun n s =>
    .ok (Results.one (BitVec.ofNat 64 n)) s) s

/-! ## Header reading -/

/-- The LE number of `k` bytes of IN from index `a` (R325, R84). -/
def inNumber (s : State) (a k : Nat) : Nat := leValue (inBytes s a k)

/-- The `m` table entries of the header from index `a`, 10 bytes each (R130, R325). -/
def headerEntries (s : State) : Nat → Nat → List FtEntry
  | _, 0 => []
  | a, m + 1 =>
    ⟨BitVec.ofNat 16 (inNumber s a 2), BitVec.ofNat 64 (inNumber s (a + 2) 8)⟩ ::
      headerEntries s (a + 10) m

/-- The header's M field. -/
def headerCount (s : State) : Nat := inNumber s 8 2

/-- R325 `ParseHeader()`: the original length, M and the entries. -/
def parseHeader (s : State) : Res (Nat × Nat × List FtEntry) :=
  if s.inLen.toNat < 10 then .fault .headerShort s.inLen s
  else if s.inLen.toNat < headerSize (headerCount s) then .fault .headerShort s.inLen s
  else .ok (inNumber s 0 8, headerCount s, headerEntries s 10 (headerCount s)) s

/-- The HDR_READ body (R327); the answer is (n, M). -/
def hdrReadBody (s : State) : Res (Nat × Nat) :=
  (parseHeader s).bind fun h s =>
    .ok (h.1, h.2.1)
      { setTable h.2.2 s with origLen := BitVec.ofNat 64 h.1,
                              brPos := BitVec.ofNat 64 (8 * headerSize h.2.1) }

/-- HDR_READ (R327). -/
def execHdrRead (s : State) : Host.Outcome State Fault Refusal :=
  runCommand (fun s => (hdrReadBody s).bind fun h s =>
    .ok (Results.two (BitVec.ofNat 64 h.1) (BitVec.ofNat 64 h.2)) s) s

end Sys2Proof.Machine
end

