-- ==== Sys2Proof/Machine/Replay.lean ====
section
/-! DEFINITION. The token replay engine (45_replay.md): the tokens LIT and MATCH, the ring copy, and the
TRE commands. A token is read whole first, moving BR_POS past it (`fetchToken`), and then replayed: "The
whole token is read before any check on its values" (R353). -/

namespace Sys2Proof.Machine

/-! ## The two token instructions -/

/-- The effect of a LIT already read (R350); the answer is the number of bytes appended. -/
def replayLit (b : Byte) (s : State) : Res Word :=
  if s.origLen.toNat < s.outLen.toNat + 1 then .fault .lengthOverrun 1 s
  else (outWrite b s).bind fun _ s => .ok 1 s

/-- R351 `Copy(d, L)`: each byte is read from the ring before it is written. -/
def copyBytes (d : Nat) : Nat → State → Res Unit
  | 0, s => .ok () s
  | k + 1, s => (outWrite (ringRead s (s.outLen.toNat - d)) s).bind fun _ s => copyBytes d k s

/-- The effect of a MATCH already read (R353). -/
def replayMatch (x : BitVec 15) (len : Sym) (s : State) : Res Word :=
  if s.outLen.toNat < distOf x then .fault .distOob (BitVec.ofNat 64 (distOf x)) s
  else if s.origLen.toNat < s.outLen.toNat + len.toNat then .fault .lengthOverrun (len.setWidth 64) s
  else (copyBytes (distOf x) len.toNat s).bind fun _ s => .ok (len.setWidth 64) s

/-- Replays a token; the answer is the number of bytes appended. -/
def replayToken : Token → State → Res Word
  | .lit b, s => replayLit b s
  | .pair x len, s => replayMatch x len s

/-- RES0 of TRE_STEP for a token (R352): 0 = LIT, 1 = MATCH. -/
def tokenKind : Token → Word
  | .lit _ => 0
  | .pair _ _ => 1

/-- Reads the token at BR_POS, moving BR_POS past the bits read. -/
def fetchToken (tree : Node) (s : State) : TokenRead × State := readTokenWith getBit tree s

/-- R352 `StepToken()`: `none` is STOP, else (kind, bytes appended). -/
def stepToken (tree : Node) (s : State) : Res (Option (Word × Word)) :=
  match fetchToken tree s with
  | (.endOfStream, s) => .ok none s
  | (.guardReached, s) => .fault .guardCode s.brPos s
  | (.token t, s) => (replayToken t s).bind fun k s => .ok (some (tokenKind t, k)) s

/-- How a token ends as an instruction of its own (log 9): going on, or in a fault, which ends the command that
runs it (R401, R404). -/
def finishToken : Res Word → Host.Outcome State Fault Refusal
  | .ok _ s => .next s
  | .fault c i s => .next (takeFault c i s)

/-- The token LIT, already read (R350). -/
def execLitTok (b : Byte) (s : State) : Host.Outcome State Fault Refusal := finishToken (replayLit b s)

/-- The token MATCH, already read (R353). -/
def execMatchTok (x : BitVec 15) (len : Sym) (s : State) : Host.Outcome State Fault Refusal :=
  finishToken (replayMatch x len s)

/-! ## Commands -/

/-- The TRE_STEP body after its NO_TREE check (R352). -/
def treStepBody (tree : Node) (s : State) : Res Results :=
  (stepToken tree s).bind fun r s =>
    match r with
    | none => .ok (Results.two 2 0) (if s.outLen.toNat < s.origLen.toNat then setTrunc s else s)
    | some (kind, k) => .ok (Results.two kind k) s

/-- TRE_STEP (R352). -/
def execTreStep (s : State) : Host.Outcome State Fault Refusal :=
  runCommand (fun s => (needTree s).bind fun tree s => treStepBody tree s) s

/-- The loop of R355, at most `k` tokens; the answer is the truncated flag. Each token consumes at least 9
bits, so a bound above the number of bits left is never met (`treRunLoop_fuel`). -/
def treRunLoop (tree : Node) : Nat → State → Res Bool
  | 0, s => .ok false s
  | k + 1, s =>
    if s.outLen.toNat < s.origLen.toNat then
      (stepToken tree s).bind fun r s =>
        match r with
        | none => .ok true (setTrunc s)
        | some _ => treRunLoop tree k s
    else .ok false s

/-- A bound above the number of stream bits left. -/
def bitsLeft (s : State) : Nat := 8 * s.inLen.toNat - s.brPos.toNat

/-- The TRE_RUN body (R355), with its RES writes: RES0 = OUT_LEN, RES1 = the truncated flag. -/
def treRunBody (s : State) : Res Results :=
  (needTree s).bind fun tree s =>
    (treRunLoop tree (bitsLeft s + 2) s).bind fun t s =>
      .ok (Results.two s.outLen (if t then 1 else 0)) s

/-- TRE_RUN (R355). -/
def execTreRun (s : State) : Host.Outcome State Fault Refusal := runCommand treRunBody s

/-- TRE_LIT (R354). -/
def execTreLit (s : State) : Host.Outcome State Fault Refusal :=
  runCommand (fun s => (argByte s).bind fun b s =>
    (outWrite (BitVec.ofNat 8 b) s).bind fun _ s => .ok Results.none s) s

/-- TRE_COPY (R356): DIST_OOB comes even when L = 0. -/
def execTreCopy (s : State) : Host.Outcome State Fault Refusal :=
  runCommand (fun s => (argDistance s).bind fun d s =>
    (argLength s).bind fun l s =>
    (require (decide (d ≤ s.outLen.toNat)) .distOob (BitVec.ofNat 64 d) s).bind fun _ s =>
    (copyBytes d l s).bind fun _ s => .ok Results.none s) s

end Sys2Proof.Machine
end

