-- ==== Sys2Proof/Machine/Control.lean ====
section
/-! DEFINITION. Housekeeping commands and the whole transforms (46_control.md). -/

namespace Sys2Proof.Machine

/-- NOP (R380): no start checks; DONE is set at its end and nothing else changes. -/
def execNop (s : State) : Host.Outcome State Fault Refusal := .next (complete Results.none s)

/-- Every register and internal item at its reset value, PREV, RING, IN and OUT kept (R53). The model's own
fields and the level of RST are no state of the core's and stay. -/
def softResetState (s : State) : State :=
  { State.reset with
    params := s.params, pending := s.pending, hostData := s.hostData, draws := s.draws,
    resets := s.resets, rst := s.rst,
    prev := s.prev, ring := s.ring, inMem := s.inMem, outMem := s.outMem }

/-- SOFT_RESET (R381): STATUS = 0 afterwards, including DONE = 0. -/
def execSoftReset (s : State) : Host.Outcome State Fault Refusal := .next (softResetState s)

/-- What COMPRESS clears before its first step (R382). -/
def compressStart (s : State) : State :=
  outResetBody { mfClearBody (setTable [] s) with tokbuf := [] }

/-- The COMPRESS body (R382): the bodies of the named commands, without their checks and RES writes. -/
def compressBody (s : State) : Res Results :=
  (ftFromTokensBody (tokDeriveBody (compressStart s))).bind fun _ s =>
  (htBuildBody s).bind fun _ s =>
  (hdrWriteBody s).bind fun _ s =>
  (encTokensBody s).bind fun _ s =>
  (flush s).bind fun _ s =>
  .ok (Results.two s.outLen (tokCount s)) { s with origLen := s.inLen }

/-- COMPRESS (R382). -/
def execCompress (s : State) : Host.Outcome State Fault Refusal := runCommand compressBody s

/-- The DECOMPRESS body (R383). -/
def decompressBody (s : State) : Res Results :=
  (hdrReadBody s).bind fun _ s =>
  (htBuildBody s).bind fun _ s =>
  treRunBody (outResetBody s)

/-- DECOMPRESS (R383). -/
def execDecompress (s : State) : Host.Outcome State Fault Refusal := runCommand decompressBody s

end Sys2Proof.Machine
end

