-- ==== Sys2Proof/Machine/Dispatch.lean ====
section
/-! DEFINITION. The dispatch: one arm per constructor of Instr, one meaning each. -/

namespace Sys2Proof.Machine

def exec (i : Instr) (s : State) : Host.Outcome State Fault Refusal :=
  match i with
  | .nop => Sys2Proof.Machine.execNop s
  | .softReset => Sys2Proof.Machine.execSoftReset s
  | .outReset => Sys2Proof.Machine.execOutReset s
  | .compress => Sys2Proof.Machine.execCompress s
  | .decompress => Sys2Proof.Machine.execDecompress s
  | .mfClear => Sys2Proof.Machine.execMfClear s
  | .mfHash => Sys2Proof.Machine.execMfHash s
  | .mfSearch => Sys2Proof.Machine.execMfSearch s
  | .mfInsert => Sys2Proof.Machine.execMfInsert s
  | .mfStep => Sys2Proof.Machine.execMfStep s
  | .tokDerive => Sys2Proof.Machine.execTokDerive s
  | .tokRead => Sys2Proof.Machine.execTokRead s
  | .ftClear => Sys2Proof.Machine.execFtClear s
  | .ftTally => Sys2Proof.Machine.execFtTally s
  | .ftFromTokens => Sys2Proof.Machine.execFtFromTokens s
  | .ftRead => Sys2Proof.Machine.execFtRead s
  | .htBuild => Sys2Proof.Machine.execHtBuild s
  | .htCode => Sys2Proof.Machine.execHtCode s
  | .hdWalk => Sys2Proof.Machine.execHdWalk s
  | .bwPutbits => Sys2Proof.Machine.execBwPutbits s
  | .bwFlush => Sys2Proof.Machine.execBwFlush s
  | .brGetbits => Sys2Proof.Machine.execBrGetbits s
  | .hdrWrite => Sys2Proof.Machine.execHdrWrite s
  | .hdrRead => Sys2Proof.Machine.execHdrRead s
  | .encLit => Sys2Proof.Machine.execEncLit s
  | .encMatch => Sys2Proof.Machine.execEncMatch s
  | .encTokens => Sys2Proof.Machine.execEncTokens s
  | .treLit => Sys2Proof.Machine.execTreLit s
  | .treCopy => Sys2Proof.Machine.execTreCopy s
  | .treStep => Sys2Proof.Machine.execTreStep s
  | .treRun => Sys2Proof.Machine.execTreRun s
  | .litTok b => Sys2Proof.Machine.execLitTok b s
  | .matchTok x len => Sys2Proof.Machine.execMatchTok x len s

end Sys2Proof.Machine
end

