-- ==== Sys2Proof/Machine/Flags.lean ====
section
/-! DEFINITION. The flags: STATUS as software reads it, its write-1-to-clear bits, and the interrupt line. -/

namespace Sys2Proof.Machine

/-- A flag as a word with that bit at position `k`. -/
def flagBit (b : Bool) (k : Nat) : Word := if b then (1 : Word) <<< k else 0

/-- The STATUS register (R26): bits 7:6 and 63:16 read 0. -/
def Status.word (f : Status) : Word :=
  flagBit f.busy 0 ||| flagBit f.done 1 ||| flagBit f.fault 2 ||| flagBit f.trunc 3 |||
    flagBit f.eos 4 ||| flagBit f.ign 5 ||| (f.fcode.setWidth 64) <<< 8

/-- R27: a write of `w` clears each W1C bit i in 1..5 for which w[i] = 1; clearing FAULT also clears FCODE
and FINFO. All other bits of `w` are ignored. -/
def writeStatus (w : Word) (s : State) : State :=
  let s₁ := if w.getLsbD 2 then acknowledgeFault s else s
  { s₁ with status :=
      { s₁.status with
        done := s₁.status.done && !w.getLsbD 1
        trunc := s₁.status.trunc && !w.getLsbD 3
        eos := s₁.status.eos && !w.getLsbD 4
        ign := s₁.status.ign && !w.getLsbD 5 } }

/-- The interrupt output (R40, R412): CTRL.IE AND (DONE OR FAULT); low while RST = 1 (R440). -/
def irq (s : State) : Bool := !s.rst && (s.ie && (s.status.done || s.status.fault))

end Sys2Proof.Machine
end

