-- ==== Sys2Proof/Machine/HostPort.lean ====
section
/-! DEFINITION. The host's side: register reads and writes, command submission and acceptance, accesses to
IN and OUT, the reset input, and the host notation of R124. -/

namespace Sys2Proof.Machine

/-! ## Registers -/

/-- BW_STATE (R35). -/
def bwState (s : State) : Word := s.bwAcc.setWidth 64 ||| (s.bwCnt.setWidth 64) <<< 8

/-- TBL_INFO (R38). -/
def tblInfo (s : State) : Word :=
  (BitVec.ofNat 16 s.ft.length).setWidth 64 ||| flagBit s.tree.isSome 16

/-- The value of a register (R21–R39). CMD and the reserved offsets read 0 (R22, R25). -/
def readReg (s : State) : Reg → Word
  | .id => Config.idValue
  | .cmd => 0
  | .status => s.status.word
  | .ctrl => flagBit s.ie 0
  | .inLen => s.inLen
  | .outCap => s.outCap
  | .outLen => s.outLen
  | .arg0 => s.arg0
  | .arg1 => s.arg1
  | .res0 => s.res0
  | .res1 => s.res1
  | .finfo => s.finfo
  | .bwState => bwState s
  | .brPos => s.brPos
  | .origLen => s.origLen
  | .tblInfo => tblInfo s
  | .tokCnt => tokCount s
  | .reserved _ => 0

/-- A host write of a register other than CMD while BUSY = 0: RW registers store the value, STATUS clears
its W1C bits (R27), CTRL keeps bit 0 only (R28), and a write to a RO or reserved one has no effect (R22). -/
def writeReg (v : Word) (s : State) : Reg → State
  | .status => writeStatus v s
  | .ctrl => { s with ie := v.getLsbD 0 }
  | .inLen => { s with inLen := v }
  | .outCap => { s with outCap := v }
  | .arg0 => { s with arg0 := v }
  | .arg1 => { s with arg1 := v }
  | .brPos => { s with brPos := v }
  | .origLen => { s with origLen := v }
  | .id => s
  | .cmd => s
  | .outLen => s
  | .res0 => s
  | .res1 => s
  | .finfo => s
  | .bwState => s
  | .tblInfo => s
  | .tokCnt => s
  | .reserved _ => s

/-! ## Commands -/

/-- `execute w` of R402: the decoded command, or ILLEGAL_CMD, the first start check of R403. -/
def executeWord (w : Word) (s : State) : Host.Outcome State Fault Refusal :=
  match decodeCommand w with
  | .ok i => exec i s
  | .error _ => .next (takeFault .illegalCmd w s)

/-- R402 `OnCmdWrite(w)`: ignored while BUSY or under the fault lock (NOP and SOFT_RESET pass the lock). -/
def onCmdWrite (w : Word) (s : State) : Host.Outcome State Fault Refusal :=
  if s.status.busy then .next (setIgn s)
  else if w ≠ 0 ∧ w ≠ 1 ∧ s.status.fault = true then .next (setIgn s)
  else executeWord w (accept s)

/-- A host register write: ignored while RST = 1 (R440), ignored with IGN while BUSY = 1 (R413, every register:
log 1). -/
def hostWrite (r : Reg) (v : Word) (s : State) : Host.Outcome State Fault Refusal :=
  if s.rst then .next s
  else
    match r with
    | .cmd => onCmdWrite v s
    | r => if s.status.busy then .next (setIgn s) else .next (writeReg v s r)

/-- A host register read, at either level of RST (R440 excepts register writes only). While BUSY = 1 any register
but STATUS returns an unspecified value (R413, I8), a free value (log 5). -/
def hostRead (r : Reg) (s : State) : State :=
  if s.status.busy && r != .status then
    { s with hostData := Config.freeWord s.draws, draws := s.draws + 1 }
  else { s with hostData := readReg s r }

/-! ## IN, OUT and RST -/

/-- A host access to IN at `a`: refused while BUSY = 1 (R451, I9), stopped outside IN (R80) (log 7). -/
def hostIn (a : Nat) (s t : State) : Host.Outcome State Fault Refusal :=
  if s.status.busy then .refused .hostMemoryAccessWhileBusy
  else if s.params.nMax.val ≤ a then .fault .noSuchInByte
  else .next t

/-- A host access to OUT at `a`: refused while BUSY = 1 (R451, I9), stopped outside OUT (R80) (log 7). -/
def hostOut (a : Nat) (s t : State) : Host.Outcome State Fault Refusal :=
  if s.status.busy then .refused .hostMemoryAccessWhileBusy
  else if s.params.outMax.val ≤ a then .fault .noSuchOutByte
  else .next t

/-- The state a hardware reset gives, RST at `level` (R440, R52, log 10): PREV, RING, IN and OUT unspecified
anew. -/
def hardReset (level : Bool) (s : State) : State :=
  { State.reset with
    params := s.params, pending := s.pending, hostData := s.hostData, draws := s.draws,
    resets := s.resets + 1, rst := level }

/-- RST driven to a level (R440): nothing happens when it was low and stays low. -/
def driveRst (level : Bool) (s : State) : State := if level || s.rst then hardReset level s else s

/-- A host write of `b` to OUT[a]: the byte then reads as any value until the core writes it (R52, I7, log 6),
and RING is not written (R97, R452). -/
def hostWriteOut (a : Nat) (b : Byte) (s : State) : State :=
  { s with outMem := Sparse.set s.outMem a (Config.hostOutByte s.draws b), draws := s.draws + 1 }

/-- One host move (R20, R89). -/
def hostMove (op : HostOp) (s : State) : Host.Outcome State Fault Refusal :=
  match op with
  | .wr r v => hostWrite r v s
  | .rd r => .next (hostRead r s)
  | .inWr a b => hostIn a s { s with inMem := Sparse.set s.inMem a b }
  | .inRd a => hostIn a s { s with hostData := (inByte s a).setWidth 64 }
  | .outWr a b => hostOut a s (hostWriteOut a b s)
  | .outRd a => hostOut a s { s with hostData := (outByte s a).setWidth 64 }
  | .rst level => .next (driveRst level s)

/-! ## Where step takes its next instruction -/

/-- Nothing that would make the core ignore the next CMD write: RST, BUSY and the fault lock are off. -/
def unlocked (s : State) : State :=
  let s₁ := if s.status.fault then acknowledgeFault s else s
  { s₁ with rst := false, status := { s₁.status with busy := false } }

/-- The bytes a bit string fills, first bit in bit 7 (R83); a last partial byte is left out. -/
def packBytes (l : List Bool) : Nat → List Byte
  | 0 => []
  | k + 1 => BitVec.ofNat 8 (bitsValue (l.take 8)) :: packBytes (l.drop 8) k

/-- The word stands in a CMD write, the host's very next move (R25). -/
def withCommandWord (s : State) (w : Word) : State :=
  let s₁ := unlocked s
  { s₁ with pending := .wr .cmd w :: s₁.pending }

/-- The token stands at BR_POS = 0 of IN, TREE is the tree token words are read against, and the host's
very next move submits TRE_STEP, which runs one token (R352). -/
def withTokenBits (s : State) (bits : List Bool) : State :=
  let s₁ := withCommandWord s 0x52
  { s₁ with inMem := Sparse.setAll s₁.inMem 0 (packBytes bits 3), inLen := 3, brPos := 0,
            tree := some placeholderTree }

/-! ## The host notation of R124 -/

/-- `wait`: in the model a command is one atomic step, so one read of STATUS shows BUSY = 0. -/
def waitMoves : List HostOp := [.rd .status]

/-- `cmd X [a0=u] [a1=v]`. -/
def cmdMoves (w : Word) (a₀ a₁ : Option Word) : List HostOp :=
  (a₀.map (HostOp.wr .arg0)).toList ++ (a₁.map (HostOp.wr .arg1)).toList ++ [.wr .cmd w] ++ waitMoves

/-- `clr`: clears DONE, FAULT, TRUNC, EOS and IGN. -/
def clrMoves : List HostOp := [.wr .status 0x3E]

/-- `in a, b0 b1 …`. -/
def inMoves : Nat → List Byte → List HostOp
  | _, [] => []
  | a, b :: bs => .inWr a b :: inMoves (a + 1) bs

end Sys2Proof.Machine
end

