-- ==== Sys2Proof/Machine/Step.lean ====
section
/-! DEFINITION. One step of the machine: the host's next move, a submitted command running to its end
within it (R20); with no move pending the core is idle (R442). -/

namespace Sys2Proof.Machine

/-- One step. -/
def step (s : State) : Host.Outcome State Fault Refusal :=
  match s.pending with
  | [] => .next s
  | op :: ops => hostMove op { s with pending := ops }

/-- The state with an opcode-table word where `step` takes its next instruction: a command word in a
pending CMD write, a token at BR_POS under a pending TRE_STEP (log 8). -/
def State.withFetchWord (s : State) (nbits w : Nat) : State :=
  if 64 ≤ nbits then withCommandWord s (BitVec.ofNat 64 w)
  else withTokenBits s (tableTokenBits w)

end Sys2Proof.Machine
end

