-- ==== Sys2Proof/Safety.lean ====
section
/-! DEFINITION. The terms the claims are stated in: when a command may start, what a completed command
leaves in STATUS, the invariant of the machine, and the spec's derived notions (the stream in IN, the bits
in OUT, the chain a search visits, two-phase derivation, the bytes a token list denotes). -/

namespace Sys2Proof.Machine

/-! ## Starting and ending -/

/-- The start checks of R403 pass. -/
abbrev State.Ready (s : State) : Prop :=
  s.inLen.toNat ≤ s.params.nMax.val ∧ s.outCap.toNat ≤ s.params.outMax.val

/-- STATUS after a normal end (R404). -/
abbrev doneStatus (s : State) : Status := { s.status with busy := false, done := true }

/-- STATUS after a recorded fault of code `c` (R404). -/
abbrev faultStatus (c : BitVec 8) (s : State) : Status :=
  { s.status with busy := false, fault := true, fcode := c }

/-- The state after a recorded fault, when the command had no effect before it: STATUS and FINFO only. -/
abbrev faulted (c : BitVec 8) (info : Word) (s : State) : State :=
  { s with status := faultStatus c s, finfo := info }

/-! ## The invariant -/

/-- The invariant of the machine: what 10_state.md and 20_memory.md promise of every reachable state. -/
structure State.Inv (s : State) : Prop where
  /-- Between moves no command executes (R20, R413). -/
  idle : s.status.busy = false
  /-- No fault recorded: FCODE and FINFO are 0 (R26, R27, R34). -/
  noFault : s.status.fault = false → s.status.fcode = 0 ∧ s.finfo = 0
  /-- A recorded fault has one of the codes 0x01..0x0E (R400). -/
  someFault : s.status.fault = true → 1 ≤ s.status.fcode.toNat ∧ s.status.fcode.toNat ≤ 14
  /-- The memories and arrays keep their canonical form. -/
  inWf : Memory.wf s.inMem
  outWf : Memory.wf s.outMem
  ringWf : Memory.wf s.ring
  headWf : Sparse.wf s.head
  prevWf : Sparse.wf s.prev
  /-- Every listed index exists (R41, R42, R48, R80). -/
  inIndex : ∀ e ∈ s.inMem, e.1 < s.params.nMax.val
  outIndex : ∀ e ∈ s.outMem, e.1 < s.params.outMax.val
  ringIndex : ∀ e ∈ s.ring, e.1 < Config.ringSize
  headIndex : ∀ e ∈ s.head, e.1 < Config.hashBuckets
  prevIndex : ∀ e ∈ s.prev, e.1 < Config.window
  /-- BW_ACC < 2^BW_CNT (R47). -/
  pendingBits : s.bwAcc.toNat < 2 ^ s.bwCnt.toNat
  /-- FT holds at most 65535 entries (R44). -/
  tableSize : s.ft.length ≤ Config.ftMax
  /-- TOKBUF holds well-formed tokens, at most N_MAX of them (R43). -/
  tokens : ∀ t ∈ s.tokbuf, t.wf = true
  tokenCount : s.tokbuf.length ≤ s.params.nMax.val
  /-- A tree stands only beside the table it was built from (R45, R261, R455). -/
  treeOfTable : ∀ t, s.tree = some t → buildTree s.ft = some t
  /-- OUT_LEN stays within OUT (R14, R49). -/
  outBound : s.outLen.toNat ≤ s.params.outMax.val
  /-- The last 32768 output bytes stand in RING: no unspecified RING entry is ever read (R48, R351). -/
  historyWritten : ∀ i < s.outLen.toNat, s.outLen.toNat ≤ i + Config.ringSize →
    (Sparse.get? s.ring (i % Config.ringSize)).isSome
  /-- Every chain link leads to a written PREV slot: no unspecified PREV entry is ever read (R42, R206). -/
  headLinked : ∀ h q, Sparse.get? s.head h = some q →
    (Sparse.get? s.prev (q.toNat % Config.window)).isSome
  prevLinked : ∀ a q, Sparse.get? s.prev a = some (some q) →
    (Sparse.get? s.prev (q.toNat % Config.window)).isSome

/-- The invariant of R87: RING holds OUT's bytes at the last 32768 output indexes. It holds while the host
does not write OUT. -/
def State.RingMirrorsOut (s : State) : Prop :=
  ∀ i < s.outLen.toNat, s.outLen.toNat ≤ i + Config.ringSize →
    Sparse.get? s.ring (i % Config.ringSize) = Sparse.get? s.outMem i ∧ (Sparse.get? s.outMem i).isSome

/-! ## Bits in and out -/

/-- The bits of IN from BR_POS to 8·IN_LEN, in stream order (R36, R83, R293). -/
def streamBits (s : State) : List Bool :=
  (List.range (8 * s.inLen.toNat - s.brPos.toNat)).map fun i => streamBit s (s.brPos.toNat + i)

/-- The `n` bytes of OUT from index `a`. -/
def outBytes (s : State) (a n : Nat) : List Byte := (List.range n).map fun i => outByte s (a + i)

/-- The pending bits of the packer, first-written first (R47). -/
def pendingBits (s : State) : List Bool := bitsOf s.bwCnt.toNat s.bwAcc.toNat

/-- The bit string written since output index `o`: the bits of OUT[o..OUT_LEN), then the pending ones. -/
def writtenBits (s : State) (o : Nat) : List Bool :=
  (outBytes s o (s.outLen.toNat - o)).flatMap (fun b => bitsOf 8 b.toNat) ++ pendingBits s

/-- `t` has written OUT from index `o` up to its OUT_LEN, and RING with it (R86): each of the last 32768 bytes written
stands in its slot, and every slot of no byte written is as it was in `s`. -/
def RingFollows (s t : State) (o : Nat) : Prop :=
  (∀ i, o ≤ i → i < t.outLen.toNat → t.outLen.toNat ≤ i + Config.ringSize →
    Sparse.get? t.ring (i % Config.ringSize) = some (outByte t i)) ∧
  ∀ k, (∀ i, o ≤ i → i < t.outLen.toNat → i % Config.ringSize ≠ k) →
    Sparse.get? t.ring k = Sparse.get? s.ring k

/-- Room for `k` more bits: they stay pending, or the bytes they fill fit below OUT_CAP. -/
abbrev State.RoomFor (s : State) (k : Nat) : Prop :=
  s.bwCnt.toNat + k < 8 ∨ s.outLen.toNat + (s.bwCnt.toNat + k) / 8 ≤ s.outCap.toNat

/-- The packer's invariant (R47): BW_ACC < 2^BW_CNT. -/
abbrev State.PackerOk (s : State) : Prop := s.bwAcc.toNat < 2 ^ s.bwCnt.toNat

/-- `t` is `s` with the bits `bits` appended (R291, R292): OUT_LEN and BW_CNT advance by their number, the
bits written since `s` are the pending ones of `s` and then `bits`, every OUT byte outside the bytes written
is as before, RING holds the bytes written and is otherwise as before, and no field but OUT, RING, OUT_LEN, BW_ACC and BW_CNT differs. -/
def Appended (s t : State) (bits : List Bool) : Prop :=
  t = { s with outMem := t.outMem, ring := t.ring, bwAcc := t.bwAcc,
               outLen := s.outLen + BitVec.ofNat 64 ((s.bwCnt.toNat + bits.length) / 8),
               bwCnt := BitVec.ofNat 3 ((s.bwCnt.toNat + bits.length) % 8) } ∧
    t.PackerOk ∧ writtenBits t s.outLen.toNat = pendingBits s ++ bits ∧
    RingFollows s t s.outLen.toNat ∧
    ∀ a, a < s.outLen.toNat ∨ t.outLen.toNat ≤ a →
      Sparse.get? t.outMem a = Sparse.get? s.outMem a

/-- `t` is `s` with as many of the bits appended as fit: 7 pending bits, the next of which would fill the byte at
OUT_CAP, or at OUT_LEN where that is already at or past OUT_CAP (R86, R291, R292, R405, V-BS8). -/
def Overflowed (s t : State) (bits : List Bool) : Prop :=
  ∃ k < bits.length, Appended s t (bits.take k) ∧ t.bwCnt = 7 ∧
    t.outLen.toNat = max s.outLen.toNat s.outCap.toNat

/-- BR_POS after a read that met the end of IN (R293, R294): every bit left is consumed. -/
def endPos (s : State) : Word :=
  if s.brPos.toNat < 8 * s.inLen.toNat then BitVec.ofNat 64 (8 * s.inLen.toNat) else s.brPos

/-- PutBits of each (width, value) field in order. -/
def putFields : List (Nat × Nat) → State → Res Unit
  | [], s => .ok () s
  | f :: fs, s => (putBits f.1 f.2 s).bind fun _ s => putFields fs s

/-- GetBits of each width in order; `none` when one meets the end of IN. -/
def getFields : List Nat → State → Option (List Nat) × State
  | [], s => (some [], s)
  | w :: ws, s =>
    match getBits w s with
    | (none, s₁) => (none, s₁)
    | (some v, s₁) =>
      match getFields ws s₁ with
      | (none, s₂) => (none, s₂)
      | (some vs, s₂) => (some (v :: vs), s₂)

/-- MSB-first packing with zero fill of the final byte (R131). -/
def packed (bits : List Bool) : List Byte :=
  packBytes (bits ++ List.replicate ((8 - bits.length % 8) % 8) false) ((bits.length + 7) / 8)

/-- The concatenated token strings of a list (R125, R323); `none` when a length has no code. -/
def tokenBits (tree : Node) : List Token → Option (List Bool)
  | [] => some []
  | t :: ts =>
    match encodeToken tree t, tokenBits tree ts with
    | some b, some bs => some (b ++ bs)
    | _, _ => none

/-! ## The match finder -/

/-- The chain entries a search at `p` examines (R205): at most `k` from `q`, ending at NIL and before the
first backward candidate farther than WINDOW. -/
def visited (s : State) (p : Nat) : Nat → Option Word → List Nat
  | 0, _ => []
  | _ + 1, none => []
  | k + 1, some q =>
    if q.toNat < p ∧ Config.window < p - q.toNat then []
    else q.toNat :: visited s p k (prevAt s q.toNat)

/-- The backward candidates of a search at `p`, nearest chain entry first (R202). -/
def candidates (s : State) (p : Nat) : List Nat :=
  if hashable s p then
    (visited s p Config.maxChain (headAt s (hashAt s p))).filter (fun q => decide (q < p))
  else []

/-! ## Token derivation in the document's two phases (R230) -/

/-- The state that inserting the positions 0..n−1 of the input in order gives, from a HEAD all NIL (R231): HEAD and
PREV hold every hashable position. -/
def insertAll (s : State) : State := (List.range s.inLen.toNat).foldl insertPos (mfClearBody s)

/-- Phase 1: MATCH[p] for the next `k` positions from `p`, each searched and then inserted. -/
def bestMatches : Nat → Nat → State → List (Nat × Nat)
  | 0, _, _ => []
  | k + 1, p, s => search s p :: bestMatches k (p + 1) (insertPos s p)

/-- Phase 2: the greedy scan over the recorded matches `ms` of the positions from `p`, `skip` of them
already covered. -/
def greedyScan (s : State) : List (Nat × Nat) → (p skip : Nat) → List Token
  | [], _, _ => []
  | _ :: ms, p, skip + 1 => greedyScan s ms (p + 1) skip
  | m :: ms, p, 0 => tokenAt s p m :: greedyScan s ms (p + 1) (advanceOf m - 1)

/-- `Derive()` of R230 on IN[0..n). -/
def derive (s : State) : List Token :=
  greedyScan s (bestMatches s.inLen.toNat 0 (mfClearBody s)) 0 0

/-- The backward copy of `n` bytes at distance `d` onto a byte list, one byte at a time (R351). -/
def copyOnto (d : Nat) : Nat → List Byte → List Byte
  | 0, out => out
  | n + 1, out => copyOnto d n (out ++ [out.getD (out.length - d) 0])

/-- The bytes a token list denotes, appended to `out`; `none` when a match reaches before the start. -/
def expand : List Token → List Byte → Option (List Byte)
  | [], out => some out
  | .lit b :: ts, out => expand ts (out ++ [b])
  | .pair x len :: ts, out =>
    if distOf x ≤ out.length then expand ts (copyOnto (distOf x) len.toNat out) else none

/-! ## The frequency table -/

/-- The match lengths of a token list, in order. -/
def matchLengths (ts : List Token) : List Sym :=
  ts.filterMap fun t => match t with
    | .lit _ => none
    | .pair _ len => some len

/-- No code that the tree gives a match length of the list is longer than CODE_MAX (R322). -/
abbrev CodesFit (tree : Node) (ts : List Token) : Prop :=
  ∀ v ∈ matchLengths ts, ∀ c, codeOf tree v = some c → c.length ≤ Config.codeMax

/-- Symbols strictly ascending, one entry each (R234). -/
abbrev Ascending (ft : List FtEntry) : Prop := (ft.map fun e => e.sym.toNat).Pairwise (· < ·)

/-- `a` is extracted before `b`: the lesser (weight, seq), compared lexicographically (R260). -/
abbrev QItem.Less (a b : QItem) : Prop := a.w.toNat < b.w.toNat ∨ (a.w = b.w ∧ a.seq < b.seq)

/-- R260's loop, as a relation of a queue, the next sequence number and the outcome (`none` for FREQ_OVERFLOW):
while two elements are left, the least `a` and then the least of the others, `b`, become the left and the right
child of a node with their summed weight and the next sequence number. -/
inductive Greedy : List QItem → Nat → Option Node → Prop
  /-- One element is left: its node is the tree. -/
  | root (a : QItem) (c : Nat) : Greedy [a] c (some a.node)
  /-- The sum of the two least passes 2^64 − 1. -/
  | overflow {q r : List QItem} {a b : QItem} {c : Nat} : q.Perm (a :: b :: r) →
    (∀ x ∈ b :: r, a.Less x) → (∀ x ∈ r, b.Less x) → 2 ^ 64 ≤ a.w.toNat + b.w.toNat → Greedy q c none
  /-- The two least are merged, and the loop goes on. -/
  | merge {q r : List QItem} {a b : QItem} {c : Nat} {t : Option Node} : q.Perm (a :: b :: r) →
    (∀ x ∈ b :: r, a.Less x) → (∀ x ∈ r, b.Less x) → a.w.toNat + b.w.toNat < 2 ^ 64 →
    Greedy (r ++ [⟨.internal a.node b.node (a.w + b.w), a.w + b.w, c⟩]) (c + 1) t → Greedy q c t

/-- R260's initial queue: a leaf for each entry, with sequence numbers 0, 1, … in table order. -/
def initialQueue (ft : List FtEntry) : List QItem := ft.mapIdx fun i e => ⟨.leaf e.sym, e.freq, i⟩

/-- The sum of the frequencies. -/
def totalFreq (ft : List FtEntry) : Nat := (ft.map fun e => e.freq.toNat).sum

/-- The table R237 makes of a token list: ascending, one entry per match length with its count, the
placeholder when there is none. -/
def IsTableOf (ts : List Token) (ft : List FtEntry) : Prop :=
  (matchLengths ts = [] ∧ ft = [⟨3, 1⟩]) ∨
    (matchLengths ts ≠ [] ∧ Ascending ft ∧
      ∀ v : Sym, ftFreq ft v =
        if v ∈ matchLengths ts then some (BitVec.ofNat 64 ((matchLengths ts).count v)) else none)

/-- The symbols of a tree's leaves, left to right. -/
def leafSyms : Node → List Sym
  | .leaf v => [v]
  | .guard => []
  | .internal l r _ => leafSyms l ++ leafSyms r

/-- The weight at the root of a built tree; a leaf and the Guard carry none. -/
def rootWeight : Node → Nat
  | .internal _ _ w => w.toNat
  | .leaf _ => 0
  | .guard => 0

/-! ## Containers (R130, R131, R384) -/

/-- The container of original length `n`, table `ft` and token bits `bits`. -/
def container (n : Nat) (ft : List FtEntry) (bits : List Bool) : List Byte :=
  headerBytes n ft ++ packed bits

end Sys2Proof.Machine
end

