-- ==== Sys2Proof/Certificates/Slice0/Obligations.lean ====
section
/-! DEFINITION. The statements for the provers. Each follows numbered rules of spec/; the titles and the
rules cited stand in OBLIGATIONS.json. -/

open Sys2Proof Sys2Proof.Machine

/-! ## Encoding -/

/-- R125–R127, R266 item 4: decoding an encoded well-formed instruction gives it back, and a token's bits
decode to the token whatever follows them. -/
def Obligations.DecodeInvertsEncode : Prop :=
  ∀ (tree : Node) (i : Instr), i.wf tree = true →
    (∃ e, encode tree i = some e ∧ decode tree e = .ok i) ∧
    ∀ (t : Token) (l rest : List Bool), encodeToken tree t = some l →
      decodeToken tree (l ++ rest) = .ok (t, rest)

/-- R120, R123: the legal command words are the 31 of R122, each its own command, and any other word,
submitted while the core takes commands, faults ILLEGAL_CMD with the word in FINFO. The submission is a move
of the model's host queue (log 4, the model's choice). -/
def Obligations.OnlyAssignedWordsAreCommands : Prop :=
  (∀ w : Word, (∃ i, decodeCommand w = .ok i) ↔
    w.toNat ∈ [0x00, 0x01, 0x02, 0x10, 0x11, 0x20, 0x21, 0x22, 0x23, 0x24, 0x28, 0x29, 0x2A, 0x2B, 0x2C,
      0x2D, 0x30, 0x31, 0x32, 0x38, 0x39, 0x3A, 0x40, 0x41, 0x48, 0x49, 0x4A, 0x50, 0x51, 0x52, 0x53]) ∧
  (∀ (w w' : Word) (i : Instr), decodeCommand w = .ok i → decodeCommand w' = .ok i → w = w') ∧
  ∀ (s : State) (w : Word) (ops : List HostOp), s.pending = .wr .cmd w :: ops → s.rst = false →
    s.status.busy = false → s.status.fault = false → (∀ i, decodeCommand w ≠ .ok i) →
    step s = .next { s with pending := ops, finfo := w, status :=
      { s.status with done := false, fault := true, fcode := 0x01 } }

/-- Every command word of R122, words that are none (R120, R123), and bit strings written out from R125 and
V-C2 decode as the spec says. -/
def Obligations.SpecWordsDecode : Prop :=
  decodeCommand 0x00 = .ok .nop ∧ decodeCommand 0x01 = .ok .softReset ∧
  decodeCommand 0x02 = .ok .outReset ∧ decodeCommand 0x10 = .ok .compress ∧
  decodeCommand 0x11 = .ok .decompress ∧ decodeCommand 0x20 = .ok .mfClear ∧
  decodeCommand 0x21 = .ok .mfHash ∧ decodeCommand 0x22 = .ok .mfSearch ∧
  decodeCommand 0x23 = .ok .mfInsert ∧ decodeCommand 0x24 = .ok .mfStep ∧
  decodeCommand 0x28 = .ok .tokDerive ∧ decodeCommand 0x29 = .ok .tokRead ∧
  decodeCommand 0x2A = .ok .ftClear ∧ decodeCommand 0x2B = .ok .ftTally ∧
  decodeCommand 0x2C = .ok .ftFromTokens ∧ decodeCommand 0x2D = .ok .ftRead ∧
  decodeCommand 0x30 = .ok .htBuild ∧ decodeCommand 0x31 = .ok .htCode ∧
  decodeCommand 0x32 = .ok .hdWalk ∧ decodeCommand 0x38 = .ok .bwPutbits ∧
  decodeCommand 0x39 = .ok .bwFlush ∧ decodeCommand 0x3A = .ok .brGetbits ∧
  decodeCommand 0x40 = .ok .hdrWrite ∧ decodeCommand 0x41 = .ok .hdrRead ∧
  decodeCommand 0x48 = .ok .encLit ∧ decodeCommand 0x49 = .ok .encMatch ∧
  decodeCommand 0x4A = .ok .encTokens ∧ decodeCommand 0x50 = .ok .treLit ∧
  decodeCommand 0x51 = .ok .treCopy ∧ decodeCommand 0x52 = .ok .treStep ∧
  decodeCommand 0x53 = .ok .treRun ∧ decodeCommand 0x03 = .error .unassignedOp ∧
  decodeCommand 0x100 = .error .reservedNotZero ∧
  decode (.internal (.leaf 9) .guard 1)
    (.bits [false, false, true, true, false, false, false, false, true]) = .ok (.litTok 0x61) ∧
  decode (.internal (.leaf 9) .guard 1)
    (.bits [true, false, false, false, false, false, false, false, false, false, false, false, false,
      false, true, false, false]) = .ok (.matchTok 2 9) ∧
  decode (.internal (.leaf 9) .guard 1)
    (.bits [true, false, false, false, false, false, false, false, false, false, false, false, false,
      false, true, false, true]) = .error .guardCode ∧
  decode (.internal (.leaf 9) .guard 1) (.bits [true, false]) = .error .streamEnds

/-! ## The step -/

/-- R402: a submitted word runs as its command, DONE cleared and BUSY set; one that is no command faults;
under BUSY or the fault lock it is ignored and sets IGN alone. The CMD write is a move of the model's host
queue (log 4, the model's choice). -/
def Obligations.StepRunsSubmittedCommand : Prop :=
  ∀ (s : State) (w : Word) (ops : List HostOp), s.pending = .wr .cmd w :: ops → s.rst = false →
    (s.status.busy = true →
      step s = .next { s with pending := ops, status := { s.status with ign := true } }) ∧
    (s.status.busy = false → s.status.fault = true → w ≠ 0 → w ≠ 1 →
      step s = .next { s with pending := ops, status := { s.status with ign := true } }) ∧
    (s.status.busy = false → (s.status.fault = false ∨ w = 0 ∨ w = 1) →
      (∀ i, decodeCommand w = .ok i →
        step s = exec i { s with pending := ops, status := { s.status with done := false, busy := true } }) ∧
      ∀ e, decodeCommand w = .error e →
        step s = .next { s with pending := ops, finfo := w, status :=
          { s.status with done := false, busy := false, fault := true, fcode := 0x01 } })

/-- R352: TRE_STEP runs the token that the stream at BR_POS decodes to, BR_POS moved past it: what the token
does as an instruction of its own (log 9, the model's choice), then RES0 = 0 and RES1 = 1 for a LIT, RES0 = 1 and
RES1 = L for a MATCH, and DONE, or its fault. A
stream that ends inside the token stops with RES0 = 2, and a Guard code faults with BR_POS just after it. -/
def Obligations.TreStepRunsDecodedToken : Prop :=
  ∀ (s : State) (tree : Node), s.Ready → s.tree = some tree →
    (∀ (t : Token) (rest : List Bool), decodeToken tree (streamBits s) = .ok (t, rest) →
      ∀ u, u = { s with brPos := BitVec.ofNat 64 (8 * s.inLen.toNat - rest.length) } →
      (∀ k v, replayToken t u = .ok k v → exec t.toInstr u = .next v ∧
        exec .treStep s = .next { v with
          res0 := match t with | .lit _ => 0 | .pair _ _ => 1
          res1 := match t with | .lit _ => 1 | .pair _ len => len.setWidth 64
          status := doneStatus v }) ∧
      ∀ c i v, replayToken t u = .fault c i v → exec t.toInstr u = .next (faulted c.code i v) ∧
        exec .treStep s = .next (faulted c.code i v)) ∧
    (decodeToken tree (streamBits s) = .error .streamEnds →
      exec .treStep s = .next { s with brPos := endPos s, res0 := 2, res1 := 0, status :=
        { doneStatus s with
          eos := true, trunc := s.status.trunc || decide (s.outLen.toNat < s.origLen.toNat) } }) ∧
    ∀ rest pos, readTokenWith listBit tree (streamBits s) = (.guardReached, rest) →
      pos = BitVec.ofNat 64 (8 * s.inLen.toNat - rest.length) →
      exec .treStep s = .next (faulted 0x0C pos { s with brPos := pos })

/-- R352, R350: TRE_STEP completes on a literal that fits, and faults NO_TREE without a tree. -/
def Obligations.TreStepAppendsLiteral : Prop :=
  ∀ s : State, s.Ready →
    (s.tree = none → exec .treStep s = .next (faulted 0x09 0 s)) ∧
    ∀ (tree : Node) (b : Byte) (rest : List Bool), s.tree = some tree →
      streamBits s = false :: bitsOf 8 b.toNat ++ rest → s.outLen.toNat < s.origLen.toNat →
      s.outLen.toNat < s.outCap.toNat →
      exec .treStep s = .next { s with
        brPos := s.brPos + 9, outLen := s.outLen + 1, res0 := 0, res1 := 1, status := doneStatus s,
        outMem := Sparse.set s.outMem s.outLen.toNat b,
        ring := Sparse.set s.ring (s.outLen.toNat % 32768) b }

/-- R403: every command but NOP and SOFT_RESET checks IN_LEN and then OUT_CAP before any effect. -/
def Obligations.StartChecksComeFirst : Prop :=
  ∀ (i : Instr) (s : State), i.isToken = false → i ≠ .nop → i ≠ .softReset →
    (s.params.nMax.val < s.inLen.toNat → exec i s = .next (faulted 0x02 s.inLen s)) ∧
    (s.inLen.toNat ≤ s.params.nMax.val → s.params.outMax.val < s.outCap.toNat →
      exec i s = .next (faulted 0x03 s.outCap s))

/-! ## The host's side -/

/-- R27: a STATUS write clears the W1C bits it names, FAULT together with FCODE and FINFO, and nothing else;
while BUSY = 1 it is ignored and sets IGN. That bit 2 sets FCODE and FINFO to 0 also where FAULT is 0 is
DEDUCED (log 11, the model's choice); the write is a move of the model's host queue (log 4, the model's
choice). -/
def Obligations.StatusWriteClearsNamedBits : Prop :=
  ∀ (s : State) (w : Word) (ops : List HostOp), s.pending = .wr .status w :: ops → s.rst = false →
    (s.status.busy = false → step s = .next { s with
      pending := ops
      finfo := if w.getLsbD 2 then 0 else s.finfo
      status :=
        { busy := false
          done := s.status.done && !w.getLsbD 1
          fault := s.status.fault && !w.getLsbD 2
          trunc := s.status.trunc && !w.getLsbD 3
          eos := s.status.eos && !w.getLsbD 4
          ign := s.status.ign && !w.getLsbD 5
          fcode := if w.getLsbD 2 then 0 else s.status.fcode } }) ∧
    (s.status.busy = true →
      step s = .next { s with pending := ops, status := { s.status with ign := true } })

/-- R21–R39, R89: what each register reads after a host write: a RW register the value written, CTRL its bit 0,
STATUS its fields without the W1C bits named (bit 2 clears FCODE even where FAULT is 0: log 11, the model's
choice), ID its constant, a RO register its item in the layout of its rule, a reserved offset 0. A write to a RW
register only stores the value (StatusWriteClearsNamedBits says what a STATUS write changes); a write to a RO or
reserved register and every read leave the core as it was. Without a write, every register reads so from the state as
it stands, at either level of RST (R440 excepts writes only), CMD and the reserved offsets and fields as 0 and ID as
its constant (R22, R24, R25); STATUS also while BUSY = 1 (R413). The moves are the model's host queue (log 4, the
model's choice). -/
def Obligations.RegistersReadBack : Prop :=
  (∀ (s : State) (r : Reg) (v : Word), s.rst = false → s.status.busy = false → r ≠ .cmd →
    ∃ t u, step { s with pending := [.wr r v, .rd r] } = .next t ∧ step t = .next u ∧
      u = { t with pending := [], hostData := u.hostData } ∧
      match r with
      | .inLen => t = { s with pending := [.rd r], inLen := v } ∧ u.hostData = v
      | .outCap => t = { s with pending := [.rd r], outCap := v } ∧ u.hostData = v
      | .arg0 => t = { s with pending := [.rd r], arg0 := v } ∧ u.hostData = v
      | .arg1 => t = { s with pending := [.rd r], arg1 := v } ∧ u.hostData = v
      | .brPos => t = { s with pending := [.rd r], brPos := v } ∧ u.hostData = v
      | .origLen => t = { s with pending := [.rd r], origLen := v } ∧ u.hostData = v
      | .ctrl => t = { s with pending := [.rd r], ie := v.getLsbD 0 } ∧ u.hostData = v &&& 1
      | .status => u.hostData.toNat = 2 * (s.status.done && !v.getLsbD 1).toNat +
          4 * (s.status.fault && !v.getLsbD 2).toNat + 8 * (s.status.trunc && !v.getLsbD 3).toNat +
          16 * (s.status.eos && !v.getLsbD 4).toNat + 32 * (s.status.ign && !v.getLsbD 5).toNat +
          256 * if v.getLsbD 2 then 0 else s.status.fcode.toNat
      | .cmd => False
      | .id => t = { s with pending := [.rd r] } ∧ u.hostData = 0x4C5A484300000007
      | .reserved _ => t = { s with pending := [.rd r] } ∧ u.hostData = 0
      | .outLen => t = { s with pending := [.rd r] } ∧ u.hostData = s.outLen
      | .res0 => t = { s with pending := [.rd r] } ∧ u.hostData = s.res0
      | .res1 => t = { s with pending := [.rd r] } ∧ u.hostData = s.res1
      | .finfo => t = { s with pending := [.rd r] } ∧ u.hostData = s.finfo
      | .bwState => t = { s with pending := [.rd r] } ∧
          u.hostData.toNat = s.bwAcc.toNat + 256 * s.bwCnt.toNat
      | .tblInfo => t = { s with pending := [.rd r] } ∧
          (s.ft.length ≤ 65535 → u.hostData.toNat = s.ft.length + 65536 * s.tree.isSome.toNat)
      | .tokCnt => t = { s with pending := [.rd r] } ∧ u.hostData = BitVec.ofNat 64 s.tokbuf.length) ∧
  ∀ (s : State) (r : Reg), (r = .status ∨ s.status.busy = false) → ∃ w : Word,
    step { s with pending := [.rd r] } = .next { s with pending := [], hostData := w } ∧
    match r with
    | .id => w = 0x4C5A484300000007
    | .cmd | .reserved _ => w = 0
    | .status => w.toNat = s.status.busy.toNat + 2 * s.status.done.toNat + 4 * s.status.fault.toNat +
        8 * s.status.trunc.toNat + 16 * s.status.eos.toNat + 32 * s.status.ign.toNat +
        256 * s.status.fcode.toNat
    | .ctrl => w.toNat = s.ie.toNat
    | .inLen => w = s.inLen
    | .outCap => w = s.outCap
    | .outLen => w = s.outLen
    | .arg0 => w = s.arg0
    | .arg1 => w = s.arg1
    | .res0 => w = s.res0
    | .res1 => w = s.res1
    | .finfo => w = s.finfo
    | .bwState => w.toNat = s.bwAcc.toNat + 256 * s.bwCnt.toNat
    | .brPos => w = s.brPos
    | .origLen => w = s.origLen
    | .tblInfo => s.ft.length ≤ 65535 → w.toNat = s.ft.length + 65536 * s.tree.isSome.toNat
    | .tokCnt => w = BitVec.ofNat 64 s.tokbuf.length

/-- R80, R89, R452: a byte the host places in IN reads back; a byte of OUT that is listed, as every byte the
sequencer writes is, reads back; an OUT byte that the host writes reads as a free value, the same at every read
until it is written again, and RING stays (R52, I7); an index outside the memory stops the machine, and no
access is made while BUSY = 1. The model's choices: the host queue (log 4), the free value (log 6), the stops
(log 7), and that these moves act whatever the level of RST (log 10). -/
def Obligations.HostReadsBackMemory : Prop :=
  ∀ (s : State) (a : Nat) (b : Byte),
    (s.status.busy = false → a < s.params.nMax.val → ∃ t,
      step { s with pending := [.inWr a b, .inRd a] } = .next t ∧
      t = { s with pending := [.inRd a], inMem := Sparse.set s.inMem a b } ∧
      step t = .next { t with pending := [], hostData := b.setWidth 64 }) ∧
    (s.status.busy = false → a < s.params.outMax.val →
      (Sparse.get? s.outMem a = some b → step { s with pending := [.outRd a] } =
        .next { s with pending := [], hostData := b.setWidth 64 }) ∧
      ∃ t, step { s with pending := [.outWr a b, .outRd a, .outRd a] } = .next t ∧
        t = { s with pending := [.outRd a, .outRd a], draws := s.draws + 1,
                     outMem := Sparse.set s.outMem a (Config.hostOutByte s.draws b) } ∧
        ∃ u, step t = .next u ∧
          u = { t with pending := [.outRd a], hostData := (Config.hostOutByte s.draws b).setWidth 64 } ∧
          step u = .next { u with pending := [] }) ∧
    (s.status.busy = false → s.params.nMax.val ≤ a →
      step { s with pending := [.inWr a b] } = .fault .noSuchInByte ∧
      step { s with pending := [.inRd a] } = .fault .noSuchInByte) ∧
    (s.status.busy = false → s.params.outMax.val ≤ a →
      step { s with pending := [.outWr a b] } = .fault .noSuchOutByte ∧
      step { s with pending := [.outRd a] } = .fault .noSuchOutByte) ∧
    (s.status.busy = true →
      step { s with pending := [.inWr a b] } = .refused .hostMemoryAccessWhileBusy ∧
      step { s with pending := [.inRd a] } = .refused .hostMemoryAccessWhileBusy ∧
      step { s with pending := [.outWr a b] } = .refused .hostMemoryAccessWhileBusy ∧
      step { s with pending := [.outRd a] } = .refused .hostMemoryAccessWhileBusy)

/-- R440: while RST = 1 register writes are ignored and IRQ is low, and a register read gives the reset value (ID
its constant; that the registers are at reset while RST = 1 is log 10, the model's choice); when RST falls the
registers and the internal state are at reset, and nothing of PREV, RING, IN and OUT is specified. RST as a level
the host drives, and unlisted for unspecified, are the model's choices (log 10, log 3, log 4). -/
def Obligations.HardwareResetClearsState : Prop :=
  ∀ (s : State) (r : Reg) (v : Word) (ops : List HostOp),
    s.pending = .rst true :: .wr r v :: .rst false :: ops →
    ∃ t u, step s = .next t ∧ t.rst = true ∧ irq t = false ∧
      step t = .next { t with pending := .rst false :: ops } ∧
      (∀ q, step { t with pending := [.rd q] } = .next { t with
        pending := [], hostData := if q = .id then 0x4C5A484300000007 else 0 }) ∧
      step { t with pending := .rst false :: ops } = .next u ∧ u.rst = false ∧ irq u = false ∧
      u.pending = ops ∧ u.params = s.params ∧
      (∀ q, readReg u q = if q = .id then 0x4C5A484300000007 else 0) ∧
      u.head = [] ∧ u.tokbuf = [] ∧ u.ft = [] ∧ u.tree = none ∧ u.bwAcc = 0 ∧ u.bwCnt = 0 ∧
      u.prev = [] ∧ u.ring = [] ∧ u.inMem = [] ∧ u.outMem = []

/-- R441, R442: the registers after reset, and the idle core (an empty host queue, log 4, the model's
choice). -/
def Obligations.ResetRegisterValues : Prop :=
  (∀ r, readReg State.reset r = if r = .id then 0x4C5A484300000007 else 0) ∧
  State.reset.head = [] ∧ State.reset.tokbuf = [] ∧ State.reset.ft = [] ∧ State.reset.tree = none ∧
  irq State.reset = false ∧ step State.reset = .next State.reset

/-- R40, R412: the interrupt line is CTRL.IE AND (DONE OR FAULT), read from the registers. -/
def Obligations.InterruptFollowsStatus : Prop :=
  ∀ s : State, s.rst = false →
    irq s = ((readReg s .ctrl).getLsbD 0 &&
      ((readReg s .status).getLsbD 1 || (readReg s .status).getLsbD 2))

/-! ## The whole machine -/

/-- R401, R404, R405: no instruction stops the machine; a command ends with BUSY = 0, and either DONE = 1
with the fault record as it was, or FAULT recorded with a code of R400 and DONE, RES0 and RES1 as they were.
IGN is not touched. -/
def Obligations.CommandsEndDoneOrFaulted : Prop :=
  ∀ (i : Instr) (s : State), ∃ t, exec i s = .next t ∧ (i.isToken = false → i ≠ .softReset →
    t.status.busy = false ∧ t.status.ign = s.status.ign ∧
    ((t.status.done = true ∧ t.status.fault = s.status.fault ∧ t.status.fcode = s.status.fcode ∧
        t.finfo = s.finfo) ∨
      (t.status.fault = true ∧ 1 ≤ t.status.fcode.toNat ∧ t.status.fcode.toNat ≤ 14 ∧
        t.status.done = s.status.done ∧ t.res0 = s.res0 ∧ t.res1 = s.res1)))

/-- R32, R81: no instruction writes IN; none but SOFT_RESET writes ARG0, ARG1, IN_LEN, OUT_CAP or CTRL; and
none touches the host's moves or the parameters. -/
def Obligations.SequencerNeverWritesInputs : Prop :=
  ∀ (i : Instr) (s t : State), exec i s = .next t →
    t.inMem = s.inMem ∧ t.params = s.params ∧ t.pending = s.pending ∧ t.rst = s.rst ∧
    (i ≠ .softReset → t.arg0 = s.arg0 ∧ t.arg1 = s.arg1 ∧ t.inLen = s.inLen ∧ t.outCap = s.outCap ∧
      t.ie = s.ie)

/-- R86: OUT is written at indexes below OUT_CAP only, from OUT_LEN before the command up to OUT_LEN after
it (from 0 for COMPRESS and DECOMPRESS); every other byte of OUT stays. -/
def Obligations.OutputWritesStayInRange : Prop :=
  ∀ (i : Instr) (s t : State) (a : Nat), exec i s = .next t →
    (s.outCap.toNat ≤ a → Sparse.get? t.outMem a = Sparse.get? s.outMem a) ∧
    (t.outLen.toNat ≤ a → Sparse.get? t.outMem a = Sparse.get? s.outMem a) ∧
    (i ≠ .compress → i ≠ .decompress → a < s.outLen.toNat →
      Sparse.get? t.outMem a = Sparse.get? s.outMem a)

/-- R82: the sequencer never reads OUT. Whatever OUT holds, an instruction does the same: it appends the same
bytes at the same index, which end at OUT_LEN and start at the OUT_LEN before it (at 0 for COMPRESS and
DECOMPRESS), and keeps every other byte. -/
def Obligations.SequencerNeverReadsOut : Prop :=
  ∀ (i : Instr) (s t : State), exec i s = .next t → ∃ (start : Nat) (bs : List Byte),
    (bs ≠ [] → t.outLen.toNat = start + bs.length ∧
      start = if i = .compress ∨ i = .decompress then 0 else s.outLen.toNat) ∧
    ∀ m : Memory, exec i { s with outMem := m } = .next { t with outMem := Sparse.setAll m start bs }

/-- R52: the invariant holds at reset. -/
def Obligations.ResetMeetsInvariant : Prop := State.reset.Inv

/-- R26, R42, R44, R45, R47, R48, R49, R80: every step keeps the invariant. -/
def Obligations.StepKeepsInvariant : Prop :=
  ∀ s t : State, s.Inv → step s = .next t → t.Inv

/-- R87: every instruction keeps RING equal to OUT at the last 32768 output indexes. -/
def Obligations.InstructionsKeepRingMirror : Prop :=
  ∀ (i : Instr) (s t : State), s.RingMirrorsOut → exec i s = .next t → t.RingMirrorsOut

/-! ## Control -/

/-- R380: NOP runs even under the fault lock and changes nothing but DONE; with IE = 1 it raises IRQ.
Its submission is a move of the model's host queue (log 4, the model's choice). -/
def Obligations.NopOnlySetsDone : Prop :=
  (∀ s : State, exec .nop s = .next { s with status := doneStatus s }) ∧
  ∀ (s : State) (ops : List HostOp), s.pending = .wr .cmd 0 :: ops → s.rst = false →
    s.status.busy = false → ∃ t, step s = .next t ∧ irq t = s.ie ∧
      t = { s with pending := ops, status := { s.status with done := true } }

/-- R381, R53: SOFT_RESET, even under the fault lock, puts every register and internal item at reset and
keeps the contents of IN, OUT, PREV and RING. The model's own fields and RST stay (log 4, log 10, the
model's choice). -/
def Obligations.SoftResetKeepsMemories : Prop :=
  (∀ s : State, exec .softReset s = .next { State.reset with
    params := s.params, pending := s.pending, hostData := s.hostData, draws := s.draws,
    resets := s.resets, rst := s.rst,
    inMem := s.inMem, outMem := s.outMem, prev := s.prev, ring := s.ring }) ∧
  ∀ (s : State) (ops : List HostOp), s.pending = .wr .cmd 1 :: ops → s.rst = false →
    s.status.busy = false → ∃ t, step s = .next t ∧
      (∀ r, readReg t r = if r = .id then 0x4C5A484300000007 else 0) ∧ irq t = false ∧
      t.head = [] ∧ t.tokbuf = [] ∧ t.ft = [] ∧ t.tree = none ∧
      t.inMem = s.inMem ∧ t.outMem = s.outMem ∧ t.prev = s.prev ∧ t.ring = s.ring ∧
      t.pending = ops ∧ t.params = s.params ∧ t.rst = false

/-- R207, R235, R290: MF_CLEAR empties HEAD, so that every search finds nothing; FT_CLEAR empties FT and
TREE; OUT_RESET clears OUT_LEN and the packer. Nothing else changes but DONE. -/
def Obligations.ClearCommandsClearTheirUnit : Prop :=
  decodeCommand 0x20 = .ok .mfClear ∧
  decodeCommand 0x2A = .ok .ftClear ∧
  decodeCommand 0x02 = .ok .outReset ∧
  ∀ s : State, s.Ready →
    exec .mfClear s = .next { s with head := [], status := doneStatus s } ∧
    (∀ p, search { s with head := [] } p = (0, 0)) ∧
    exec .ftClear s = .next { s with ft := [], tree := none, status := doneStatus s } ∧
    readReg { s with ft := [], tree := none } .tblInfo = 0 ∧
    exec .outReset s = .next { s with outLen := 0, bwAcc := 0, bwCnt := 0, status := doneStatus s } ∧
    readReg { s with outLen := 0, bwAcc := 0, bwCnt := 0 } .bwState = 0

/-! ## Match finder -/

/-- R208, R200: MF_HASH of a hashable position is the bucket that a search and an insertion use, the default hash
spelled out; BAD_ARG of any other. -/
def Obligations.MfHashComputesBucket : Prop :=
  decodeCommand 0x21 = .ok .mfHash ∧
  ∀ s : State, s.Ready →
    (s.arg0.toNat + 3 ≤ s.inLen.toNat → ∃ h : BitVec 16,
      exec .mfHash s = .next { s with res0 := h.setWidth 64, status := doneStatus s } ∧
      h = hash3 s.params.hash3 (inByte s s.arg0.toNat) (inByte s (s.arg0.toNat + 1))
        (inByte s (s.arg0.toNat + 2)) ∧
      h.toNat = hashAt s s.arg0.toNat ∧
      (s.params.hash3 = .default → h.toNat =
        (((inByte s s.arg0.toNat).toNat <<< 8) ^^^ ((inByte s (s.arg0.toNat + 1)).toNat <<< 4) ^^^
          (inByte s (s.arg0.toNat + 2)).toNat) &&& 0xFFFF)) ∧
    (s.inLen.toNat < s.arg0.toNat + 3 → exec .mfHash s = .next (faulted 0x04 0 s))

/-- R209, R212: MF_SEARCH reports what Search (R202, R205) finds: "no match" or a true match inside the window, of legal length, that cannot
be extended; it changes RES0, RES1 and DONE only. BAD_ARG when p ≥ n. -/
def Obligations.MfSearchReportsTrueMatch : Prop :=
  ∀ s : State, s.Ready →
    (s.arg0.toNat < s.inLen.toNat → ∃ d len : Nat,
      exec .mfSearch s = .next { s with
        res0 := BitVec.ofNat 64 d, res1 := BitVec.ofNat 64 len, status := doneStatus s } ∧
      (d, len) = search s s.arg0.toNat ∧
      ((d = 0 ∧ len = 0) ∨
        (1 ≤ d ∧ d ≤ 32768 ∧ d ≤ s.arg0.toNat ∧ 3 ≤ len ∧ len ≤ 65535 ∧
          s.arg0.toNat + len ≤ s.inLen.toNat ∧
          (∀ i < len, inByte s (s.arg0.toNat - d + i) = inByte s (s.arg0.toNat + i)) ∧
          (len = 65535 ∨ s.arg0.toNat + len = s.inLen.toNat ∨
            inByte s (s.arg0.toNat - d + len) ≠ inByte s (s.arg0.toNat + len))))) ∧
    (s.inLen.toNat ≤ s.arg0.toNat → exec .mfSearch s = .next (faulted 0x04 0 s))

/-- R202, R205: of the candidates among the at most 64 chain entries visited, a search takes the first of
greatest extension; it reports (0, 0) exactly when none extends to 3 bytes. -/
def Obligations.SearchTakesFirstLongestCandidate : Prop :=
  ∀ (s : State) (p : Nat),
    (visited s p 64 (headAt s (hashAt s p))).length ≤ 64 ∧
    (search s p = (0, 0) ↔ ∀ q ∈ candidates s p, extend s q p < 3) ∧
    (search s p ≠ (0, 0) → ∃ pre q post, candidates s p = pre ++ q :: post ∧
      search s p = (p - q, extend s q p) ∧ p - q ≤ 32768 ∧
      (∀ q' ∈ pre, extend s q' p < extend s q p) ∧ ∀ q' ∈ post, extend s q' p ≤ extend s q p)

/-- R203, R210: MF_INSERT makes the old HEAD entry the position's PREV link and the position the new HEAD
entry, and nothing else; a position with fewer than 3 bytes left changes nothing; BAD_ARG when p ≥ n. -/
def Obligations.MfInsertPushesPosition : Prop :=
  decodeCommand 0x23 = .ok .mfInsert ∧
  ∀ s : State, s.Ready →
    (s.arg0.toNat + 3 ≤ s.inLen.toNat → ∃ t, exec .mfInsert s = .next t ∧
      t = { s with head := t.head, prev := t.prev, status := doneStatus s } ∧
      (∀ h, headAt t h = if h = hashAt s s.arg0.toNat then some s.arg0 else headAt s h) ∧
      prevAt t s.arg0.toNat = headAt s (hashAt s s.arg0.toNat) ∧
      ∀ q, q % 32768 ≠ s.arg0.toNat % 32768 → prevAt t q = prevAt s q) ∧
    (s.arg0.toNat < s.inLen.toNat → s.inLen.toNat < s.arg0.toNat + 3 →
      exec .mfInsert s = .next { s with status := doneStatus s }) ∧
    (s.inLen.toNat ≤ s.arg0.toNat → exec .mfInsert s = .next (faulted 0x04 0 s))

/-- R211: MF_STEP gives the results MF_SEARCH gives in the state before, and leaves the HEAD and PREV that
MF_INSERT leaves: the search comes first. BAD_ARG when p ≥ n. -/
def Obligations.MfStepSearchesThenInserts : Prop :=
  decodeCommand 0x24 = .ok .mfStep ∧
  ∀ s : State, s.Ready →
    (s.arg0.toNat < s.inLen.toNat → ∃ t u v, exec .mfSearch s = .next t ∧ exec .mfInsert s = .next u ∧
      exec .mfStep s = .next v ∧
      v = { s with head := u.head, prev := u.prev, res0 := t.res0, res1 := t.res1,
                   status := doneStatus s }) ∧
    (s.inLen.toNat ≤ s.arg0.toNat → exec .mfStep s = .next (faulted 0x04 0 s))

/-! ## Tokens and the frequency table -/

/-- R230, R231: TOK_DERIVE leaves the two-phase derivation's tokens and their count, and the HEAD
and PREV of inserting every position in order from an empty HEAD; only HEAD, PREV, TOKBUF, RES0 and DONE
change. -/
def Obligations.TokDeriveEqualsTwoPhase : Prop :=
  ∀ s : State, s.Ready → ∃ t, exec .tokDerive s = .next t ∧ t.tokbuf = derive s ∧
    t = { s with head := (insertAll s).head, prev := (insertAll s).prev, tokbuf := t.tokbuf,
                 res0 := BitVec.ofNat 64 t.tokbuf.length, status := doneStatus s } ∧
    readReg t .tokCnt = t.res0

/-- R232: the derived tokens denote the input byte for byte, whatever the hash; no match is shorter than 3,
and there are at most n tokens. -/
def Obligations.DerivedTokensDenoteInput : Prop :=
  ∀ s : State, expand (derive s) [] = some (inBytes s 0 s.inLen.toNat) ∧
    (∀ t ∈ derive s, t.wf = true) ∧ (derive s).length ≤ s.inLen.toNat

/-- R233: TOK_READ of a literal and of a match, and BAD_ARG past the end of TOKBUF. -/
def Obligations.TokReadReturnsToken : Prop :=
  decodeCommand 0x29 = .ok .tokRead ∧
  ∀ s : State, s.Ready →
    (∀ b, s.tokbuf[s.arg0.toNat]? = some (.lit b) →
      exec .tokRead s = .next { s with
        res0 := 0, res1 := BitVec.ofNat 64 b.toNat, status := doneStatus s }) ∧
    (∀ x len, s.tokbuf[s.arg0.toNat]? = some (.pair x len) →
      exec .tokRead s = .next { s with
        res0 := 1, res1 := BitVec.ofNat 64 ((x.toNat + 1) * 2 ^ 32 + len.toNat),
        status := doneStatus s }) ∧
    (s.tokbuf.length ≤ s.arg0.toNat → exec .tokRead s = .next (faulted 0x04 0 s))

/-- R234, R236: FT_TALLY adds 1 to the first entry of a known symbol, or inserts (v, 1) just before the first
larger symbol, and returns the entry's count; TREE becomes NONE. BAD_ARG, FREQ_OVERFLOW and BAD_STATE have
no effect. An ascending table stays ascending. -/
def Obligations.FtTallyCountsSymbol : Prop :=
  decodeCommand 0x2B = .ok .ftTally ∧
  ∀ (s : State) (v : Sym), s.Ready →
    ((s.arg0.toNat = 0 ∨ 65535 < s.arg0.toNat) → exec .ftTally s = .next (faulted 0x04 0 s)) ∧
    (s.arg0 = v.setWidth 64 → v ≠ 0 →
      (∀ f, ftFreq s.ft v = some f → f.toNat = 2 ^ 64 - 1 →
        exec .ftTally s = .next (faulted 0x08 s.arg0 s)) ∧
      (∀ f, ftFreq s.ft v = some f → f.toNat ≠ 2 ^ 64 - 1 →
        ∃ pre post, s.ft = pre ++ ⟨v, f⟩ :: post ∧ (∀ e ∈ pre, e.sym ≠ v) ∧
          exec .ftTally s = .next { s with
            ft := pre ++ ⟨v, f + 1⟩ :: post, tree := none, res0 := f + 1, status := doneStatus s }) ∧
      (ftFreq s.ft v = none → s.ft.length = 65535 → exec .ftTally s = .next (faulted 0x05 65535 s)) ∧
      (ftFreq s.ft v = none → s.ft.length ≠ 65535 →
        ∃ pre post, s.ft = pre ++ post ∧ (∀ e ∈ pre, e.sym.toNat < v.toNat) ∧
          (∀ e, post.head? = some e → v.toNat < e.sym.toNat) ∧
          (Ascending s.ft → Ascending (pre ++ ⟨v, 1⟩ :: post)) ∧
          exec .ftTally s = .next { s with
            ft := pre ++ ⟨v, 1⟩ :: post, tree := none, res0 := 1, status := doneStatus s }))

/-- R237: FT_FROM_TOKENS leaves the ascending table of the match lengths of TOKBUF with their counts, or the
placeholder; literals are not counted; TREE becomes NONE. It never faults on TOKBUF as TOK_DERIVE leaves it. -/
def Obligations.FtFromTokensCountsLengths : Prop :=
  decodeCommand 0x2C = .ok .ftFromTokens ∧
  ∀ s : State, s.Ready → (∀ t ∈ s.tokbuf, t.wf = true) → s.tokbuf.length ≤ 2 ^ 60 →
    ∃ l, IsTableOf s.tokbuf l ∧ exec .ftFromTokens s = .next { s with
      ft := l, tree := none, res0 := BitVec.ofNat 64 l.length, status := doneStatus s }

/-- R238: FT_READ of an entry, in serialization order, and BAD_ARG past the end. -/
def Obligations.FtReadReturnsEntry : Prop :=
  decodeCommand 0x2D = .ok .ftRead ∧
  ∀ s : State, s.Ready →
    (∀ e, s.ft[s.arg0.toNat]? = some e → exec .ftRead s = .next { s with
      res0 := BitVec.ofNat 64 e.sym.toNat, res1 := e.freq, status := doneStatus s }) ∧
    (s.ft.length ≤ s.arg0.toNat → exec .ftRead s = .next (faulted 0x04 0 s))

/-! ## Huffman -/

/-- R260, R261, R266: HT_BUILD succeeds exactly when the frequencies sum to less than 2^64 (or the table has
at most one entry); the root is Internal, and with two or more entries the tree is the one R260's loop merges
from the entries' leaves, its weight the sum and its leaves the table's symbols. FT is not changed. Otherwise
the loop passes 2^64 − 1 and HT_BUILD faults FREQ_OVERFLOW, with no effect. -/
def Obligations.HtBuildSucceedsWhenWeightsFit : Prop :=
  ∀ s : State, s.Ready →
    ((s.ft.length ≤ 1 ∨ totalFreq s.ft < 2 ^ 64) → ∃ tree,
      exec .htBuild s = .next { s with
        tree := some tree, res0 := BitVec.ofNat 64 (max 1 s.ft.length), status := doneStatus s } ∧
      tree.isInternal = true ∧
      (2 ≤ s.ft.length → Greedy (initialQueue s.ft) s.ft.length (some tree) ∧
        rootWeight tree = totalFreq s.ft ∧ (leafSyms tree).Perm (s.ft.map FtEntry.sym))) ∧
    (2 ≤ s.ft.length → 2 ^ 64 ≤ totalFreq s.ft →
      Greedy (initialQueue s.ft) s.ft.length none ∧
      exec .htBuild s = .next (faulted 0x08 0xFFFFFFFFFFFFFFFF s))

/-- R260: ExtractMin takes the element of least (weight, seq) and leaves the others. -/
def Obligations.ExtractMinTakesLeast : Prop :=
  ∀ (a : QItem) (q : List QItem), ((a :: q).map QItem.seq).Nodup →
    ((extractMin a q).1 :: (extractMin a q).2).Perm (a :: q) ∧
    ∀ x ∈ (extractMin a q).2, (extractMin a q).1.w.toNat < x.w.toNat ∨
      ((extractMin a q).1.w = x.w ∧ (extractMin a q).1.seq < x.seq)

/-- R262: the degenerate tables. One entry (v, f) builds Internal(Leaf v, Guard, f), whose only code is `0`
and whose bit `1` spells no token; an empty table builds the placeholder tree, FT staying empty. -/
def Obligations.DegenerateTablesGetGuardTree : Prop :=
  ∀ s : State, s.Ready →
    (∀ e, s.ft = [e] →
      exec .htBuild s = .next { s with
        tree := some (.internal (.leaf e.sym) .guard e.freq), res0 := 1, status := doneStatus s } ∧
      (∀ v, codeOf (.internal (.leaf e.sym) .guard e.freq) v =
        if v = e.sym then some [false] else none) ∧
      ∀ rest, walkWith listBit (.internal (.leaf e.sym) .guard e.freq) (true :: rest) =
        (.guardReached, rest)) ∧
    (s.ft = [] → exec .htBuild s = .next { s with
      tree := some (.internal (.leaf 3) .guard 1), res0 := 1, status := doneStatus s })

/-- R266 items 1 and 2: codes of a built tree have length at least 1, and no code is a prefix of another. -/
def Obligations.CodesArePrefixFree : Prop :=
  ∀ (tree : Node) (a b : Sym) (ca cb : List Bool), codeOf tree a = some ca → codeOf tree b = some cb →
    (ca <+: cb → a = b) ∧ (tree.isInternal = true → 1 ≤ ca.length)

/-- R264: HT_CODE returns the code's length and its 64-bit word j, the first code bit the most significant;
its faults come in the order BAD_ARG (ARG0, then ARG1), NO_TREE, NO_CODE, CODE_TOO_LONG. -/
def Obligations.HtCodeReturnsCode : Prop :=
  decodeCommand 0x31 = .ok .htCode ∧
  ∀ s : State, s.Ready →
    (65535 < s.arg0.toNat → exec .htCode s = .next (faulted 0x04 0 s)) ∧
    ∀ v : Sym, s.arg0 = v.setWidth 64 →
      (1 < s.arg1.toNat → exec .htCode s = .next (faulted 0x04 1 s)) ∧
      (s.arg1.toNat ≤ 1 →
        (s.tree = none → exec .htCode s = .next (faulted 0x09 0 s)) ∧
        ∀ tree, s.tree = some tree →
          (codeOf tree v = none → exec .htCode s = .next (faulted 0x0A s.arg0 s)) ∧
          ∀ c, codeOf tree v = some c →
            (128 < c.length → exec .htCode s = .next (faulted 0x0B s.arg0 s)) ∧
            (c.length ≤ 128 → ∃ n, n < 2 ^ c.length ∧ bitsOf c.length n = c ∧
              exec .htCode s = .next { s with
                res0 := BitVec.ofNat 64 c.length,
                res1 := BitVec.ofNat 64 (n / 2 ^ (64 * s.arg1.toNat)), status := doneStatus s }))

/-- R265, R266: HD_WALK follows the stream bits at BR_POS down the tree. At a leaf it returns the symbol, at
the end of the stream (0, 1) with EOS, at the Guard it faults with BR_POS just after the bit; a code in the
stream leads to its symbol. NO_TREE without a tree. -/
def Obligations.HdWalkFollowsStream : Prop :=
  decodeCommand 0x32 = .ok .hdWalk ∧
  ∀ s : State, s.Ready →
    (s.tree = none → exec .hdWalk s = .next (faulted 0x09 0 s)) ∧
    ∀ tree, s.tree = some tree → tree.isInternal = true →
      (∀ v c rest, codeOf tree v = some c → streamBits s = c ++ rest →
        exec .hdWalk s = .next { s with
          brPos := s.brPos + BitVec.ofNat 64 c.length, res0 := v.setWidth 64, res1 := 0,
          status := doneStatus s }) ∧
      (∀ v rest, walkWith listBit tree (streamBits s) = (.symbol v, rest) →
        exec .hdWalk s = .next { s with
          brPos := BitVec.ofNat 64 (8 * s.inLen.toNat - rest.length), res0 := v.setWidth 64, res1 := 0,
          status := doneStatus s }) ∧
      (∀ rest, walkWith listBit tree (streamBits s) = (.endOfStream, rest) →
        exec .hdWalk s = .next { s with
          brPos := endPos s, res0 := 0, res1 := 1, status := { doneStatus s with eos := true } }) ∧
      (∀ rest pos, walkWith listBit tree (streamBits s) = (.guardReached, rest) →
        pos = BitVec.ofNat 64 (8 * s.inLen.toNat - rest.length) →
        exec .hdWalk s = .next (faulted 0x0C pos { s with brPos := pos }))

/-- R267: a table of frequencies ≥ 1 that builds gives no code of CODE_MAX bits or more. -/
def Obligations.CodesStayBelowCodeMax : Prop :=
  ∀ (ft : List FtEntry) (tree : Node) (v : Sym) (c : List Bool), (∀ e ∈ ft, 1 ≤ e.freq.toNat) →
    buildTree ft = some tree → codeOf tree v = some c → c.length < 128

/-! ## Bit stream -/

/-- R292, R296: BW_PUTBITS appends the low w bits of ARG1, most significant first; BAD_ARG when w > 64; with
no room OUT_OVERFLOW at the index that did not fit, the bits before the one that fills its byte appended. -/
def Obligations.BwPutbitsAppendsField : Prop :=
  decodeCommand 0x38 = .ok .bwPutbits ∧
  ∀ s : State, s.Ready →
    (64 < s.arg0.toNat → exec .bwPutbits s = .next (faulted 0x04 0 s)) ∧
    (s.arg0.toNat ≤ 64 → s.PackerOk → ∀ bits, bits = bitsOf s.arg0.toNat s.arg1.toNat →
      (s.RoomFor bits.length → ∃ t, Appended s t bits ∧
        exec .bwPutbits s = .next { t with status := doneStatus s }) ∧
      (¬ s.RoomFor bits.length → ∃ t, Overflowed s t bits ∧
        exec .bwPutbits s = .next (faulted 0x06 t.outLen t)))

/-- R295, R297: BW_FLUSH writes the pending bits in the byte's high positions and zeros below them, and
returns the pad count; with none pending it writes nothing; without room it faults with no effect. -/
def Obligations.BwFlushPadsLastByte : Prop :=
  decodeCommand 0x39 = .ok .bwFlush ∧
  ∀ s : State, s.Ready → s.PackerOk →
    (s.bwCnt = 0 → exec .bwFlush s = .next { s with res0 := 0, status := doneStatus s }) ∧
    (s.bwCnt ≠ 0 → s.outLen.toNat < s.outCap.toNat → ∃ v : Byte,
      v.toNat = s.bwAcc.toNat * 2 ^ (8 - s.bwCnt.toNat) ∧
      exec .bwFlush s = .next { s with
        outMem := Sparse.set s.outMem s.outLen.toNat v,
        ring := Sparse.set s.ring (s.outLen.toNat % 32768) v,
        outLen := s.outLen + 1, bwAcc := 0, bwCnt := 0,
        res0 := BitVec.ofNat 64 (8 - s.bwCnt.toNat), status := doneStatus s }) ∧
    (s.bwCnt ≠ 0 → s.outCap.toNat ≤ s.outLen.toNat →
      exec .bwFlush s = .next (faulted 0x06 s.outLen s))

/-- R294, R298: BR_GETBITS returns the next w stream bits as a number, first bit most significant; a field cut
short is (0, 1) with EOS and every bit left consumed; BAD_ARG when w > 64. -/
def Obligations.BrGetbitsReadsField : Prop :=
  decodeCommand 0x3A = .ok .brGetbits ∧
  ∀ s : State, s.Ready →
    (64 < s.arg0.toNat → exec .brGetbits s = .next (faulted 0x04 0 s)) ∧
    (s.arg0.toNat ≤ 64 →
      (s.arg0.toNat ≤ (streamBits s).length → ∃ v, v < 2 ^ s.arg0.toNat ∧
        bitsOf s.arg0.toNat v = (streamBits s).take s.arg0.toNat ∧
        exec .brGetbits s = .next { s with
          res0 := BitVec.ofNat 64 v, res1 := 0, brPos := s.brPos + s.arg0, status := doneStatus s }) ∧
      ((streamBits s).length < s.arg0.toNat →
        exec .brGetbits s = .next { s with
          res0 := 0, res1 := 1, brPos := endPos s, status := { doneStatus s with eos := true } }))

/-- R299: fields put from a byte boundary, flushed, and copied to IN at the same offsets are read back field
by field, and at most 7 bits, all zero, are left over. -/
def Obligations.PackedFieldsReadBack : Prop :=
  ∀ (fields : List (Nat × Nat)) (s t u : State) (pad : Nat),
    (∀ f ∈ fields, f.1 ≤ 64 ∧ f.2 < 2 ^ f.1) → s.bwCnt = 0 → s.bwAcc = 0 →
    putFields fields s = .ok () t → flush t = .ok pad u → u.outLen.toNat ≤ 2 ^ 60 →
    ∃ v, getFields (fields.map Prod.fst)
        { u with inMem := u.outMem, inLen := u.outLen, brPos := BitVec.ofNat 64 (8 * s.outLen.toNat) } =
          (some (fields.map Prod.snd), v) ∧
      (streamBits v).length ≤ 7 ∧ ∀ b ∈ streamBits v, b = false

/-! ## Container -/

/-- R320: HDR_WRITE appends the 10 + 10·M header bytes at OUT_LEN; without room for all of them it faults
OUT_OVERFLOW with the bytes that fitted kept; BAD_STATE with the count, and no effect, when bits are
pending. -/
def Obligations.HdrWriteWritesHeader : Prop :=
  decodeCommand 0x40 = .ok .hdrWrite ∧
  ∀ s : State, s.Ready → s.ft.length ≤ 65535 →
    (s.bwCnt ≠ 0 → exec .hdrWrite s = .next (faulted 0x05 (s.bwCnt.setWidth 64) s)) ∧
    (s.bwCnt = 0 → s.outLen.toNat + (10 + 10 * s.ft.length) ≤ s.outCap.toNat → ∃ t,
      exec .hdrWrite s = .next t ∧
      t = { s with outMem := t.outMem, ring := t.ring,
                   outLen := s.outLen + BitVec.ofNat 64 (10 + 10 * s.ft.length),
                   res0 := BitVec.ofNat 64 (10 + 10 * s.ft.length), status := doneStatus s } ∧
      outBytes t s.outLen.toNat (10 + 10 * s.ft.length) = headerBytes s.inLen.toNat s.ft ∧
      RingFollows s t s.outLen.toNat ∧
      ∀ a, a < s.outLen.toNat ∨ t.outLen.toNat ≤ a →
        Sparse.get? t.outMem a = Sparse.get? s.outMem a) ∧
    (s.bwCnt = 0 → s.outCap.toNat < s.outLen.toNat + (10 + 10 * s.ft.length) → ∃ t n,
      n = s.outCap.toNat - s.outLen.toNat ∧
      exec .hdrWrite s = .next (faulted 0x06 t.outLen t) ∧
      t = { s with outMem := t.outMem, ring := t.ring, outLen := s.outLen + BitVec.ofNat 64 n } ∧
      outBytes t s.outLen.toNat n = (headerBytes s.inLen.toNat s.ft).take n ∧
      RingFollows s t s.outLen.toNat ∧
      ∀ a, a < s.outLen.toNat ∨ s.outLen.toNat + n ≤ a →
        Sparse.get? t.outMem a = Sparse.get? s.outMem a)

/-- R325, R327: HDR_READ loads ORIG_LEN, the M entries in order and BR_POS from the byte offsets of R130;
HEADER_SHORT, with no effect, when IN is too short for its own header. -/
def Obligations.HdrReadLoadsHeader : Prop :=
  decodeCommand 0x41 = .ok .hdrRead ∧
  ∀ (s : State) (m : Nat), s.Ready → m = (inByte s 8).toNat + 256 * (inByte s 9).toNat →
    ((s.inLen.toNat < 10 ∨ s.inLen.toNat < 10 + 10 * m) →
      exec .hdrRead s = .next (faulted 0x07 s.inLen s)) ∧
    (10 + 10 * m ≤ s.inLen.toNat → ∃ l n, l.length = m ∧
      n = ∑ k ∈ Finset.range 8, (inByte s k).toNat * 256 ^ k ∧
      (∀ i < m, ∃ e : FtEntry, l[i]? = some e ∧
        e.sym.toNat = (inByte s (10 + 10 * i)).toNat + 256 * (inByte s (11 + 10 * i)).toNat ∧
        e.freq.toNat = ∑ k ∈ Finset.range 8, (inByte s (12 + 10 * i + k)).toNat * 256 ^ k) ∧
      exec .hdrRead s = .next { s with
        ft := l, tree := none, origLen := BitVec.ofNat 64 n,
        brPos := BitVec.ofNat 64 (8 * (10 + 10 * m)),
        res0 := BitVec.ofNat 64 n, res1 := BitVec.ofNat 64 m, status := doneStatus s })

/-- R328: HDR_READ inverts HDR_WRITE: the header bytes at the start of OUT, placed at the start of IN, give
back the original length and the same table in the same order. -/
def Obligations.HeaderRoundTrips : Prop :=
  ∀ s u : State, s.Ready → u.Ready → s.ft.length ≤ 65535 → s.bwCnt = 0 → s.outLen = 0 →
    10 + 10 * s.ft.length ≤ s.outCap.toNat → 10 + 10 * s.ft.length ≤ u.inLen.toNat →
    ∃ t, exec .hdrWrite s = .next t ∧
      ((∀ i < 10 + 10 * s.ft.length, inByte u i = outByte t i) → ∃ v, exec .hdrRead u = .next v ∧
        v.origLen = s.inLen ∧ v.ft = s.ft ∧ v.tree = none ∧
        v.brPos = BitVec.ofNat 64 (8 * (10 + 10 * s.ft.length)) ∧ v.status = doneStatus u)

/-- R321, R125: ENC_LIT appends `0` and the byte, or overflows with the bits that fitted kept; BAD_ARG
above 255. -/
def Obligations.EncLitAppendsToken : Prop :=
  decodeCommand 0x48 = .ok .encLit ∧
  ∀ s : State, s.Ready →
    (255 < s.arg0.toNat → exec .encLit s = .next (faulted 0x04 0 s)) ∧
    (s.arg0.toNat ≤ 255 → s.PackerOk → ∀ bits, bits = false :: bitsOf 8 s.arg0.toNat →
      (s.RoomFor bits.length → ∃ t, Appended s t bits ∧
        exec .encLit s = .next { t with status := doneStatus s }) ∧
      (¬ s.RoomFor bits.length → ∃ t, Overflowed s t bits ∧
        exec .encLit s = .next (faulted 0x06 t.outLen t)))

/-- R322, R125: ENC_MATCH appends `1`, the 15 bits of d − 1 and the code of L, root edge first; its checks
come before any bit, in the order BAD_ARG (ARG0, then ARG1), NO_TREE, NO_CODE, CODE_TOO_LONG. -/
def Obligations.EncMatchAppendsToken : Prop :=
  decodeCommand 0x49 = .ok .encMatch ∧
  ∀ s : State, s.Ready →
    ((s.arg0.toNat = 0 ∨ 32768 < s.arg0.toNat) → exec .encMatch s = .next (faulted 0x04 0 s)) ∧
    (1 ≤ s.arg0.toNat → s.arg0.toNat ≤ 32768 →
      (65535 < s.arg1.toNat → exec .encMatch s = .next (faulted 0x04 1 s)) ∧
      ∀ len : Sym, s.arg1 = len.setWidth 64 →
        (s.tree = none → exec .encMatch s = .next (faulted 0x09 0 s)) ∧
        ∀ tree, s.tree = some tree →
          (codeOf tree len = none → exec .encMatch s = .next (faulted 0x0A s.arg1 s)) ∧
          ∀ c, codeOf tree len = some c →
            (128 < c.length → exec .encMatch s = .next (faulted 0x0B s.arg1 s)) ∧
            (c.length ≤ 128 → s.PackerOk → ∀ bits, bits = true :: (bitsOf 15 (s.arg0.toNat - 1) ++ c) →
              (s.RoomFor bits.length → ∃ t, Appended s t bits ∧
                exec .encMatch s = .next { t with status := doneStatus s }) ∧
              (¬ s.RoomFor bits.length → ∃ t, Overflowed s t bits ∧
                exec .encMatch s = .next (faulted 0x06 t.outLen t))))

/-- R323: ENC_TOKENS appends the strings of TOKBUF's tokens in order and returns the number of bits; it does
not flush. NO_TREE without a tree. A match whose length has no code, or one of more than 128 bits, faults
NO_CODE or CODE_TOO_LONG before any bit of its own, the tokens before it emitted; OUT_OVERFLOW, which those may
meet first, keeps the bits that fitted. -/
def Obligations.EncTokensAppendsTokens : Prop :=
  ∀ s : State, s.Ready →
    (s.tree = none → exec .encTokens s = .next (faulted 0x09 0 s)) ∧
    ∀ tree, s.tree = some tree → s.PackerOk →
      (∀ bits, tokenBits tree s.tokbuf = some bits → CodesFit tree s.tokbuf →
        (s.RoomFor bits.length → ∃ t, Appended s t bits ∧ exec .encTokens s = .next { t with
          res0 := BitVec.ofNat 64 bits.length, status := doneStatus s }) ∧
        (¬ s.RoomFor bits.length → ∃ t, Overflowed s t bits ∧
          exec .encTokens s = .next (faulted 0x06 t.outLen t))) ∧
      ∀ pre x len post bits, s.tokbuf = pre ++ .pair x len :: post → tokenBits tree pre = some bits →
        CodesFit tree pre →
        (¬ s.RoomFor bits.length → ∃ t, Overflowed s t bits ∧
          exec .encTokens s = .next (faulted 0x06 t.outLen t)) ∧
        (s.RoomFor bits.length →
          (codeOf tree len = none → ∃ t, Appended s t bits ∧
            exec .encTokens s = .next (faulted 0x0A (len.setWidth 64) t)) ∧
          ∀ c, codeOf tree len = some c → 128 < c.length → ∃ t, Appended s t bits ∧
            exec .encTokens s = .next (faulted 0x0B (len.setWidth 64) t))

/-! ## Replay -/

/-- R354: TRE_LIT appends the byte to OUT and RING; ORIG_LEN is not consulted. BAD_ARG above 255,
OUT_OVERFLOW without room, both with no effect. -/
def Obligations.TreLitAppendsByte : Prop :=
  decodeCommand 0x50 = .ok .treLit ∧
  ∀ s : State, s.Ready →
    (255 < s.arg0.toNat → exec .treLit s = .next (faulted 0x04 0 s)) ∧
    (s.arg0.toNat ≤ 255 → s.outCap.toNat ≤ s.outLen.toNat →
      exec .treLit s = .next (faulted 0x06 s.outLen s)) ∧
    ∀ b : Byte, s.arg0 = b.setWidth 64 → s.outLen.toNat < s.outCap.toNat →
      exec .treLit s = .next { s with
        outMem := Sparse.set s.outMem s.outLen.toNat b,
        ring := Sparse.set s.ring (s.outLen.toNat % 32768) b,
        outLen := s.outLen + 1, status := doneStatus s }

/-- R351, R356, R453: TRE_COPY appends L bytes that repeat the last d bytes of the history with period d, and
writes nothing else; its faults come in the order BAD_ARG (ARG0, then ARG1), DIST_OOB (even when L = 0),
OUT_OVERFLOW with the bytes that fitted kept. -/
def Obligations.TreCopyRepeatsHistory : Prop :=
  decodeCommand 0x51 = .ok .treCopy ∧
  ∀ s : State, s.Ready →
    ((s.arg0.toNat = 0 ∨ 32768 < s.arg0.toNat) → exec .treCopy s = .next (faulted 0x04 0 s)) ∧
    (1 ≤ s.arg0.toNat → s.arg0.toNat ≤ 32768 →
      (65535 < s.arg1.toNat → exec .treCopy s = .next (faulted 0x04 1 s)) ∧
      (s.arg1.toNat ≤ 65535 →
        (s.outLen.toNat < s.arg0.toNat → exec .treCopy s = .next (faulted 0x0D s.arg0 s)) ∧
        (s.arg0.toNat ≤ s.outLen.toNat → ∃ t n,
          n = min s.arg1.toNat (s.outCap.toNat - s.outLen.toNat) ∧
          t = { s with outMem := t.outMem, ring := t.ring, outLen := s.outLen + BitVec.ofNat 64 n } ∧
          (∀ i < n, Sparse.get? t.outMem (s.outLen.toNat + i) =
            some (ringRead s (s.outLen.toNat - s.arg0.toNat + i % s.arg0.toNat))) ∧
          RingFollows s t s.outLen.toNat ∧
          (∀ a, a < s.outLen.toNat ∨ s.outLen.toNat + n ≤ a →
            Sparse.get? t.outMem a = Sparse.get? s.outMem a) ∧
          exec .treCopy s = .next
            (if n = s.arg1.toNat then { t with status := doneStatus s } else faulted 0x06 t.outLen t))))

/-- R350: the token LIT, as an instruction of its own (log 9, the model's choice), appends its byte;
LENGTH_OVERRUN past ORIG_LEN comes before OUT_OVERFLOW, and a faulting token writes nothing. -/
def Obligations.LitTokenAppendsByte : Prop :=
  ∀ (s : State) (b : Byte),
    (s.origLen.toNat ≤ s.outLen.toNat → exec (.litTok b) s = .next (faulted 0x0E 1 s)) ∧
    (s.outLen.toNat < s.origLen.toNat → s.outCap.toNat ≤ s.outLen.toNat →
      exec (.litTok b) s = .next (faulted 0x06 s.outLen s)) ∧
    (s.outLen.toNat < s.origLen.toNat → s.outLen.toNat < s.outCap.toNat →
      exec (.litTok b) s = .next { s with
        outMem := Sparse.set s.outMem s.outLen.toNat b,
        ring := Sparse.set s.ring (s.outLen.toNat % 32768) b,
        outLen := s.outLen + 1 })

/-- R353, R351 (as an instruction of its own: log 9, the model's choice): the token MATCH of distance d = x
+ 1 copies L bytes; DIST_OOB, then LENGTH_OVERRUN, before any byte; OUT_OVERFLOW with the bytes that fitted
kept. -/
def Obligations.MatchTokenCopiesBytes : Prop :=
  ∀ (s : State) (x : BitVec 15) (len : Sym),
    (s.outLen.toNat < x.toNat + 1 →
      exec (.matchTok x len) s = .next (faulted 0x0D (BitVec.ofNat 64 (x.toNat + 1)) s)) ∧
    (x.toNat + 1 ≤ s.outLen.toNat →
      (s.origLen.toNat < s.outLen.toNat + len.toNat →
        exec (.matchTok x len) s = .next (faulted 0x0E (len.setWidth 64) s)) ∧
      (s.outLen.toNat + len.toNat ≤ s.origLen.toNat → ∃ t n,
        n = min len.toNat (s.outCap.toNat - s.outLen.toNat) ∧
        t = { s with outMem := t.outMem, ring := t.ring, outLen := s.outLen + BitVec.ofNat 64 n } ∧
        (∀ i < n, Sparse.get? t.outMem (s.outLen.toNat + i) =
          some (ringRead s (s.outLen.toNat - (x.toNat + 1) + i % (x.toNat + 1)))) ∧
        RingFollows s t s.outLen.toNat ∧
        (∀ a, a < s.outLen.toNat ∨ s.outLen.toNat + n ≤ a →
          Sparse.get? t.outMem a = Sparse.get? s.outMem a) ∧
        exec (.matchTok x len) s =
          .next (if n = len.toNat then t else faulted 0x06 t.outLen t)))

/-- R355: TRE_RUN with the target reached reads nothing. Below it, one turn of the loop: the token that the
stream at BR_POS decodes to is replayed, BR_POS moved past it, and TRE_RUN goes on from there or ends in the
token's fault; a stream that ends (at once, or inside a token) stops it with TRUNC and EOS, and a Guard code
faults with BR_POS just after it: the output of the tokens before stays. NO_TREE without a tree. -/
def Obligations.TreRunStopsAtTargetOrEnd : Prop :=
  ∀ s : State, s.Ready →
    (s.tree = none → exec .treRun s = .next (faulted 0x09 0 s)) ∧
    ∀ tree, s.tree = some tree →
      (s.origLen.toNat ≤ s.outLen.toNat → exec .treRun s = .next { s with
        res0 := s.outLen, res1 := 0, status := doneStatus s }) ∧
      (s.outLen.toNat < s.origLen.toNat → 8 * s.inLen.toNat ≤ s.brPos.toNat →
        exec .treRun s = .next { s with
          res0 := s.outLen, res1 := 1,
          status := { doneStatus s with trunc := true, eos := true } }) ∧
      (s.outLen.toNat < s.origLen.toNat →
        (∀ (t : Token) (rest : List Bool), decodeToken tree (streamBits s) = .ok (t, rest) →
          ∀ u, u = { s with brPos := BitVec.ofNat 64 (8 * s.inLen.toNat - rest.length) } →
          (∀ k v, replayToken t u = .ok k v → exec t.toInstr u = .next v ∧
            exec .treRun s = exec .treRun v) ∧
          ∀ c i v, replayToken t u = .fault c i v → exec t.toInstr u = .next (faulted c.code i v) ∧
            exec .treRun s = .next (faulted c.code i v)) ∧
        (decodeToken tree (streamBits s) = .error .streamEnds → exec .treRun s = .next { s with
          brPos := endPos s, res0 := s.outLen, res1 := 1,
          status := { doneStatus s with trunc := true, eos := true } }) ∧
        ∀ rest pos, readTokenWith listBit tree (streamBits s) = (.guardReached, rest) →
          pos = BitVec.ofNat 64 (8 * s.inLen.toNat - rest.length) →
          exec .treRun s = .next (faulted 0x0C pos { s with brPos := pos }))

/-- R355, R357: replay inverts encoding. TRE_RUN over the strings of a token list that denotes the original
length of bytes appends exactly those bytes, reads exactly those bits, and is not truncated. -/
def Obligations.TreRunReplaysTokens : Prop :=
  ∀ (s : State) (tree : Node) (ts : List Token) (bits rest : List Bool) (bytes : List Byte),
    s.Ready → s.tree = some tree → tokenBits tree ts = some bits → (∀ t ∈ ts, t.wf = true) →
    streamBits s = bits ++ rest → expand ts [] = some bytes → s.outLen = 0 →
    s.origLen.toNat = bytes.length → bytes.length ≤ s.outCap.toNat →
    ∃ t, exec .treRun s = .next t ∧
      t = { s with outMem := t.outMem, ring := t.ring, outLen := s.origLen,
                   brPos := s.brPos + BitVec.ofNat 64 bits.length,
                   res0 := s.origLen, res1 := 0, status := doneStatus s } ∧
      outBytes t 0 bytes.length = bytes ∧ RingFollows s t 0 ∧
      ∀ a, bytes.length ≤ a → Sparse.get? t.outMem a = Sparse.get? s.outMem a

/-! ## Whole transforms -/

/-- R382, R384: COMPRESS writes the container of the derived tokens: header, table and packed token bits, and leaves
the HEAD and PREV of TOK_DERIVE. Its only fault is OUT_OVERFLOW at the first byte that does not fit, the bytes
before it kept, with up to 7 token bits of that byte pending (none in the header). -/
def Obligations.CompressWritesContainer : Prop :=
  ∀ s : State, s.Ready → ∃ ft tree bits c,
    IsTableOf (derive s) ft ∧ buildTree ft = some tree ∧ tokenBits tree (derive s) = some bits ∧
    c = container s.inLen.toNat ft bits ∧
    (c.length ≤ s.outCap.toNat → ∃ t, exec .compress s = .next t ∧
      t = { s with head := (insertAll s).head, prev := (insertAll s).prev, outMem := t.outMem, ring := t.ring,
                   tokbuf := derive s, ft := ft, tree := some tree, bwAcc := 0, bwCnt := 0,
                   outLen := BitVec.ofNat 64 c.length, origLen := s.inLen,
                   res0 := BitVec.ofNat 64 c.length, res1 := BitVec.ofNat 64 (derive s).length,
                   status := doneStatus s } ∧
      outBytes t 0 c.length = c ∧ RingFollows s t 0 ∧
      ∀ a, c.length ≤ a → Sparse.get? t.outMem a = Sparse.get? s.outMem a) ∧
    (s.outCap.toNat < c.length → ∃ t, exec .compress s = .next (faulted 0x06 s.outCap t) ∧
      t = { s with head := (insertAll s).head, prev := (insertAll s).prev, outMem := t.outMem, ring := t.ring,
                   tokbuf := derive s, ft := ft, tree := some tree, bwAcc := t.bwAcc, bwCnt := t.bwCnt,
                   outLen := s.outCap } ∧
      outBytes t 0 s.outCap.toNat = c.take s.outCap.toNat ∧ RingFollows s t 0 ∧ t.PackerOk ∧
      pendingBits t = (if s.outCap.toNat < 10 + 10 * ft.length then []
        else (bits.drop (8 * (s.outCap.toNat - (10 + 10 * ft.length)))).take 7) ∧
      ∀ a, s.outCap.toNat ≤ a → Sparse.get? t.outMem a = Sparse.get? s.outMem a)

/-- R383: DECOMPRESS of the container of a token list whose tree builds gives the bytes the tokens denote. Of any
other input: HEADER_SHORT, with no effect, when IN is too short for its own header; else it loads the header as
HDR_READ does and builds the tree as HT_BUILD does, ends in FREQ_OVERFLOW with the header loaded and no tree when
that does, and otherwise clears OUT_LEN and the packer and ends as TRE_RUN does from there. -/
def Obligations.DecompressExpandsContainer : Prop :=
  (∀ (s : State) (ft : List FtEntry) (tree : Node) (ts : List Token) (bits : List Bool) (bytes c : List Byte),
    s.Ready → ft.length ≤ 65535 → buildTree ft = some tree → tokenBits tree ts = some bits →
    (∀ t ∈ ts, t.wf = true) → expand ts [] = some bytes → c = container bytes.length ft bits →
    c.length ≤ s.inLen.toNat → inBytes s 0 c.length = c → bytes.length ≤ s.outCap.toNat →
    ∃ t, exec .decompress s = .next t ∧
      t = { s with outMem := t.outMem, ring := t.ring, ft := ft, tree := some tree,
                   bwAcc := 0, bwCnt := 0, outLen := BitVec.ofNat 64 bytes.length,
                   origLen := BitVec.ofNat 64 bytes.length,
                   brPos := BitVec.ofNat 64 (8 * (10 + 10 * ft.length) + bits.length),
                   res0 := BitVec.ofNat 64 bytes.length, res1 := 0, status := doneStatus s } ∧
      outBytes t 0 bytes.length = bytes ∧ RingFollows s t 0 ∧
      ∀ a, bytes.length ≤ a → Sparse.get? t.outMem a = Sparse.get? s.outMem a) ∧
  ∀ (s : State) (m : Nat), s.Ready → m = (inByte s 8).toNat + 256 * (inByte s 9).toNat →
    ((s.inLen.toNat < 10 ∨ s.inLen.toNat < 10 + 10 * m) →
      exec .decompress s = .next (faulted 0x07 s.inLen s)) ∧
    (10 + 10 * m ≤ s.inLen.toNat → ∃ t u, exec .hdrRead s = .next t ∧ exec .htBuild t = .next u ∧
      (u.tree = none → exec .decompress s = .next (faulted 0x08 0xFFFFFFFFFFFFFFFF
        { s with ft := t.ft, tree := none, origLen := t.origLen, brPos := t.brPos })) ∧
      ∀ tree, u.tree = some tree → exec .decompress s = exec .treRun
        { s with ft := t.ft, tree := some tree, origLen := t.origLen, brPos := t.brPos,
                 outLen := 0, bwAcc := 0, bwCnt := 0 })

/-- R385: decompress(compress(B)) = B, for every input and every HASH3, without a fault, RES1 = 0 and TRUNC
unchanged. -/
def Obligations.CompressThenDecompressIsIdentity : Prop :=
  ∀ s t u : State, s.Ready → u.Ready → s.status.fault = false → exec .compress s = .next t →
    t.status.fault = false → u.inLen = t.outLen → s.inLen.toNat ≤ u.outCap.toNat →
    (∀ i < t.outLen.toNat, inByte u i = outByte t i) →
    ∃ v, exec .decompress u = .next v ∧ v.outLen = s.inLen ∧
      outBytes v 0 s.inLen.toNat = inBytes s 0 s.inLen.toNat ∧
      v.res0 = s.inLen ∧ v.res1 = 0 ∧ v.status = doneStatus u
end

