-- ==== Sys2Proof/Laws/Decode.lean ====
section
/-! SUPPORT. Lemmas about the decoder and the encoder: code paths, bit fields, and the lists of codes. -/

namespace Sys2Proof

/-- The preorder listing of R263: every (symbol, path) pair, left before right. -/
def codesOf : Node → List Bool → List (Sym × List Bool)
  | .leaf s, path => [(s, path)]
  | .guard, _ => []
  | .internal l r _, path => codesOf l (path ++ [false]) ++ codesOf r (path ++ [true])

/-- `codeOf` is the first pair of the preorder listing with the symbol, as R263 defines code(s). -/
theorem codesOf_find (t : Node) (s : Sym) (path : List Bool) :
    (codesOf t path).find? (fun e => e.1 = s) = (codeOf t s).map fun c => (s, path ++ c) := by
  induction t generalizing path with
  | leaf u => by_cases h : u = s <;> simp [codesOf, codeOf, h]
  | guard => simp [codesOf, codeOf]
  | internal l r w ihl ihr =>
    simp only [codesOf, List.find?_append, ihl, ihr, codeOf]
    cases codeOf l s <;> simp [Option.map_map, Function.comp_def]

/-- A symbol has a code exactly when some leaf carries it. -/
theorem codeOf_isSome (t : Node) (s : Sym) : (codeOf t s).isSome = t.hasSym s := by
  induction t with
  | leaf u => by_cases h : u = s <;> simp [codeOf, Node.hasSym, h]
  | guard => rfl
  | internal l r w ihl ihr =>
    simp only [codeOf, Node.hasSym, ← ihl, ← ihr]
    cases codeOf l s <;> simp

@[simp] theorem bitsOf_length (w v : Nat) : (bitsOf w v).length = w := by
  induction w with
  | zero => rfl
  | succ w ih => simp [bitsOf, ih]

/-- Reading a `w`-bit field from a list that begins with it gives the field and the rest (R8, R294). -/
theorem readBitsWith_bitsOf (w v a : Nat) (rest : List Bool) :
    readBitsWith listBit w a (bitsOf w v ++ rest) = (some (a * 2 ^ w + v % 2 ^ w), rest) := by
  induction w generalizing a with
  | zero => simp [readBitsWith, bitsOf, Nat.mod_one]
  | succ w ih =>
    simp only [bitsOf, List.cons_append, readBitsWith, listBit, ih]
    congr 2
    rw [Nat.mod_pow_succ, Nat.pow_succ, Nat.testBit_eq_decide_div_mod_eq]
    rcases Nat.mod_two_eq_zero_or_one (v / 2 ^ w) with h | h <;> simp [h] <;> ring

/-- Walking along the code of a symbol reaches a leaf with that symbol (R266 item 4). -/
theorem walkWith_codeOf (t : Node) (s : Sym) {c : List Bool} (h : codeOf t s = some c) (rest : List Bool) :
    walkWith listBit t (c ++ rest) = (.symbol s, rest) := by
  induction t generalizing c with
  | leaf u =>
    simp only [codeOf] at h
    split_ifs at h with hu
    cases h
    simp [walkWith, hu]
  | guard => simp [codeOf] at h
  | internal l r w ihl ihr =>
    simp only [codeOf] at h
    cases hl : codeOf l s with
    | some cl =>
      rw [hl] at h
      cases h
      simp [walkWith, listBit, ihl hl]
    | none =>
      rw [hl] at h
      simp only [Option.map_eq_some_iff] at h
      obtain ⟨cr, hr, rfl⟩ := h
      simp [walkWith, listBit, ihr hr]

end Sys2Proof
end

