-- ==== Sys2Proof/Laws/State.lean ====
section
/-! SUPPORT. One lemma per field per named update of State, true by rfl, so that no later proof unfolds a
record update. -/

namespace Sys2Proof.Machine

/-! ## complete -/

@[simp] theorem complete_params (r : Results) (s : State) : (complete r s).params = s.params := rfl
@[simp] theorem complete_pending (r : Results) (s : State) : (complete r s).pending = s.pending := rfl
@[simp] theorem complete_hostData (r : Results) (s : State) : (complete r s).hostData = s.hostData := rfl
@[simp] theorem complete_draws (r : Results) (s : State) : (complete r s).draws = s.draws := rfl
@[simp] theorem complete_resets (r : Results) (s : State) : (complete r s).resets = s.resets := rfl
@[simp] theorem complete_rst (r : Results) (s : State) : (complete r s).rst = s.rst := rfl
@[simp] theorem complete_status (r : Results) (s : State) : (complete r s).status = { s.status with busy := false, done := true } := rfl
@[simp] theorem complete_ie (r : Results) (s : State) : (complete r s).ie = s.ie := rfl
@[simp] theorem complete_inLen (r : Results) (s : State) : (complete r s).inLen = s.inLen := rfl
@[simp] theorem complete_outCap (r : Results) (s : State) : (complete r s).outCap = s.outCap := rfl
@[simp] theorem complete_outLen (r : Results) (s : State) : (complete r s).outLen = s.outLen := rfl
@[simp] theorem complete_arg0 (r : Results) (s : State) : (complete r s).arg0 = s.arg0 := rfl
@[simp] theorem complete_arg1 (r : Results) (s : State) : (complete r s).arg1 = s.arg1 := rfl
@[simp] theorem complete_res0 (r : Results) (s : State) : (complete r s).res0 = r.r0.getD s.res0 := rfl
@[simp] theorem complete_res1 (r : Results) (s : State) : (complete r s).res1 = r.r1.getD s.res1 := rfl
@[simp] theorem complete_finfo (r : Results) (s : State) : (complete r s).finfo = s.finfo := rfl
@[simp] theorem complete_brPos (r : Results) (s : State) : (complete r s).brPos = s.brPos := rfl
@[simp] theorem complete_origLen (r : Results) (s : State) : (complete r s).origLen = s.origLen := rfl
@[simp] theorem complete_bwAcc (r : Results) (s : State) : (complete r s).bwAcc = s.bwAcc := rfl
@[simp] theorem complete_bwCnt (r : Results) (s : State) : (complete r s).bwCnt = s.bwCnt := rfl
@[simp] theorem complete_head (r : Results) (s : State) : (complete r s).head = s.head := rfl
@[simp] theorem complete_prev (r : Results) (s : State) : (complete r s).prev = s.prev := rfl
@[simp] theorem complete_tokbuf (r : Results) (s : State) : (complete r s).tokbuf = s.tokbuf := rfl
@[simp] theorem complete_ft (r : Results) (s : State) : (complete r s).ft = s.ft := rfl
@[simp] theorem complete_tree (r : Results) (s : State) : (complete r s).tree = s.tree := rfl
@[simp] theorem complete_ring (r : Results) (s : State) : (complete r s).ring = s.ring := rfl
@[simp] theorem complete_inMem (r : Results) (s : State) : (complete r s).inMem = s.inMem := rfl
@[simp] theorem complete_outMem (r : Results) (s : State) : (complete r s).outMem = s.outMem := rfl

/-! ## takeFault -/

@[simp] theorem takeFault_params (c : FaultCode) (i : Word) (s : State) : (takeFault c i s).params = s.params := rfl
@[simp] theorem takeFault_pending (c : FaultCode) (i : Word) (s : State) : (takeFault c i s).pending = s.pending := rfl
@[simp] theorem takeFault_hostData (c : FaultCode) (i : Word) (s : State) : (takeFault c i s).hostData = s.hostData := rfl
@[simp] theorem takeFault_draws (c : FaultCode) (i : Word) (s : State) : (takeFault c i s).draws = s.draws := rfl
@[simp] theorem takeFault_resets (c : FaultCode) (i : Word) (s : State) : (takeFault c i s).resets = s.resets := rfl
@[simp] theorem takeFault_rst (c : FaultCode) (i : Word) (s : State) : (takeFault c i s).rst = s.rst := rfl
@[simp] theorem takeFault_status (c : FaultCode) (i : Word) (s : State) : (takeFault c i s).status = { s.status with busy := false, fault := true, fcode := c.code } := rfl
@[simp] theorem takeFault_ie (c : FaultCode) (i : Word) (s : State) : (takeFault c i s).ie = s.ie := rfl
@[simp] theorem takeFault_inLen (c : FaultCode) (i : Word) (s : State) : (takeFault c i s).inLen = s.inLen := rfl
@[simp] theorem takeFault_outCap (c : FaultCode) (i : Word) (s : State) : (takeFault c i s).outCap = s.outCap := rfl
@[simp] theorem takeFault_outLen (c : FaultCode) (i : Word) (s : State) : (takeFault c i s).outLen = s.outLen := rfl
@[simp] theorem takeFault_arg0 (c : FaultCode) (i : Word) (s : State) : (takeFault c i s).arg0 = s.arg0 := rfl
@[simp] theorem takeFault_arg1 (c : FaultCode) (i : Word) (s : State) : (takeFault c i s).arg1 = s.arg1 := rfl
@[simp] theorem takeFault_res0 (c : FaultCode) (i : Word) (s : State) : (takeFault c i s).res0 = s.res0 := rfl
@[simp] theorem takeFault_res1 (c : FaultCode) (i : Word) (s : State) : (takeFault c i s).res1 = s.res1 := rfl
@[simp] theorem takeFault_finfo (c : FaultCode) (i : Word) (s : State) : (takeFault c i s).finfo = i := rfl
@[simp] theorem takeFault_brPos (c : FaultCode) (i : Word) (s : State) : (takeFault c i s).brPos = s.brPos := rfl
@[simp] theorem takeFault_origLen (c : FaultCode) (i : Word) (s : State) : (takeFault c i s).origLen = s.origLen := rfl
@[simp] theorem takeFault_bwAcc (c : FaultCode) (i : Word) (s : State) : (takeFault c i s).bwAcc = s.bwAcc := rfl
@[simp] theorem takeFault_bwCnt (c : FaultCode) (i : Word) (s : State) : (takeFault c i s).bwCnt = s.bwCnt := rfl
@[simp] theorem takeFault_head (c : FaultCode) (i : Word) (s : State) : (takeFault c i s).head = s.head := rfl
@[simp] theorem takeFault_prev (c : FaultCode) (i : Word) (s : State) : (takeFault c i s).prev = s.prev := rfl
@[simp] theorem takeFault_tokbuf (c : FaultCode) (i : Word) (s : State) : (takeFault c i s).tokbuf = s.tokbuf := rfl
@[simp] theorem takeFault_ft (c : FaultCode) (i : Word) (s : State) : (takeFault c i s).ft = s.ft := rfl
@[simp] theorem takeFault_tree (c : FaultCode) (i : Word) (s : State) : (takeFault c i s).tree = s.tree := rfl
@[simp] theorem takeFault_ring (c : FaultCode) (i : Word) (s : State) : (takeFault c i s).ring = s.ring := rfl
@[simp] theorem takeFault_inMem (c : FaultCode) (i : Word) (s : State) : (takeFault c i s).inMem = s.inMem := rfl
@[simp] theorem takeFault_outMem (c : FaultCode) (i : Word) (s : State) : (takeFault c i s).outMem = s.outMem := rfl

/-! ## acknowledgeFault -/

@[simp] theorem acknowledgeFault_params (s : State) : (acknowledgeFault s).params = s.params := rfl
@[simp] theorem acknowledgeFault_pending (s : State) : (acknowledgeFault s).pending = s.pending := rfl
@[simp] theorem acknowledgeFault_hostData (s : State) : (acknowledgeFault s).hostData = s.hostData := rfl
@[simp] theorem acknowledgeFault_draws (s : State) : (acknowledgeFault s).draws = s.draws := rfl
@[simp] theorem acknowledgeFault_resets (s : State) : (acknowledgeFault s).resets = s.resets := rfl
@[simp] theorem acknowledgeFault_rst (s : State) : (acknowledgeFault s).rst = s.rst := rfl
@[simp] theorem acknowledgeFault_status (s : State) : (acknowledgeFault s).status = { s.status with fault := false, fcode := 0 } := rfl
@[simp] theorem acknowledgeFault_ie (s : State) : (acknowledgeFault s).ie = s.ie := rfl
@[simp] theorem acknowledgeFault_inLen (s : State) : (acknowledgeFault s).inLen = s.inLen := rfl
@[simp] theorem acknowledgeFault_outCap (s : State) : (acknowledgeFault s).outCap = s.outCap := rfl
@[simp] theorem acknowledgeFault_outLen (s : State) : (acknowledgeFault s).outLen = s.outLen := rfl
@[simp] theorem acknowledgeFault_arg0 (s : State) : (acknowledgeFault s).arg0 = s.arg0 := rfl
@[simp] theorem acknowledgeFault_arg1 (s : State) : (acknowledgeFault s).arg1 = s.arg1 := rfl
@[simp] theorem acknowledgeFault_res0 (s : State) : (acknowledgeFault s).res0 = s.res0 := rfl
@[simp] theorem acknowledgeFault_res1 (s : State) : (acknowledgeFault s).res1 = s.res1 := rfl
@[simp] theorem acknowledgeFault_finfo (s : State) : (acknowledgeFault s).finfo = 0 := rfl
@[simp] theorem acknowledgeFault_brPos (s : State) : (acknowledgeFault s).brPos = s.brPos := rfl
@[simp] theorem acknowledgeFault_origLen (s : State) : (acknowledgeFault s).origLen = s.origLen := rfl
@[simp] theorem acknowledgeFault_bwAcc (s : State) : (acknowledgeFault s).bwAcc = s.bwAcc := rfl
@[simp] theorem acknowledgeFault_bwCnt (s : State) : (acknowledgeFault s).bwCnt = s.bwCnt := rfl
@[simp] theorem acknowledgeFault_head (s : State) : (acknowledgeFault s).head = s.head := rfl
@[simp] theorem acknowledgeFault_prev (s : State) : (acknowledgeFault s).prev = s.prev := rfl
@[simp] theorem acknowledgeFault_tokbuf (s : State) : (acknowledgeFault s).tokbuf = s.tokbuf := rfl
@[simp] theorem acknowledgeFault_ft (s : State) : (acknowledgeFault s).ft = s.ft := rfl
@[simp] theorem acknowledgeFault_tree (s : State) : (acknowledgeFault s).tree = s.tree := rfl
@[simp] theorem acknowledgeFault_ring (s : State) : (acknowledgeFault s).ring = s.ring := rfl
@[simp] theorem acknowledgeFault_inMem (s : State) : (acknowledgeFault s).inMem = s.inMem := rfl
@[simp] theorem acknowledgeFault_outMem (s : State) : (acknowledgeFault s).outMem = s.outMem := rfl

/-! ## accept -/

@[simp] theorem accept_params (s : State) : (accept s).params = s.params := rfl
@[simp] theorem accept_pending (s : State) : (accept s).pending = s.pending := rfl
@[simp] theorem accept_hostData (s : State) : (accept s).hostData = s.hostData := rfl
@[simp] theorem accept_draws (s : State) : (accept s).draws = s.draws := rfl
@[simp] theorem accept_resets (s : State) : (accept s).resets = s.resets := rfl
@[simp] theorem accept_rst (s : State) : (accept s).rst = s.rst := rfl
@[simp] theorem accept_status (s : State) : (accept s).status = { s.status with done := false, busy := true } := rfl
@[simp] theorem accept_ie (s : State) : (accept s).ie = s.ie := rfl
@[simp] theorem accept_inLen (s : State) : (accept s).inLen = s.inLen := rfl
@[simp] theorem accept_outCap (s : State) : (accept s).outCap = s.outCap := rfl
@[simp] theorem accept_outLen (s : State) : (accept s).outLen = s.outLen := rfl
@[simp] theorem accept_arg0 (s : State) : (accept s).arg0 = s.arg0 := rfl
@[simp] theorem accept_arg1 (s : State) : (accept s).arg1 = s.arg1 := rfl
@[simp] theorem accept_res0 (s : State) : (accept s).res0 = s.res0 := rfl
@[simp] theorem accept_res1 (s : State) : (accept s).res1 = s.res1 := rfl
@[simp] theorem accept_finfo (s : State) : (accept s).finfo = s.finfo := rfl
@[simp] theorem accept_brPos (s : State) : (accept s).brPos = s.brPos := rfl
@[simp] theorem accept_origLen (s : State) : (accept s).origLen = s.origLen := rfl
@[simp] theorem accept_bwAcc (s : State) : (accept s).bwAcc = s.bwAcc := rfl
@[simp] theorem accept_bwCnt (s : State) : (accept s).bwCnt = s.bwCnt := rfl
@[simp] theorem accept_head (s : State) : (accept s).head = s.head := rfl
@[simp] theorem accept_prev (s : State) : (accept s).prev = s.prev := rfl
@[simp] theorem accept_tokbuf (s : State) : (accept s).tokbuf = s.tokbuf := rfl
@[simp] theorem accept_ft (s : State) : (accept s).ft = s.ft := rfl
@[simp] theorem accept_tree (s : State) : (accept s).tree = s.tree := rfl
@[simp] theorem accept_ring (s : State) : (accept s).ring = s.ring := rfl
@[simp] theorem accept_inMem (s : State) : (accept s).inMem = s.inMem := rfl
@[simp] theorem accept_outMem (s : State) : (accept s).outMem = s.outMem := rfl

/-! ## appendByte -/

@[simp] theorem appendByte_params (v : Byte) (s : State) : (appendByte v s).params = s.params := rfl
@[simp] theorem appendByte_pending (v : Byte) (s : State) : (appendByte v s).pending = s.pending := rfl
@[simp] theorem appendByte_hostData (v : Byte) (s : State) : (appendByte v s).hostData = s.hostData := rfl
@[simp] theorem appendByte_draws (v : Byte) (s : State) : (appendByte v s).draws = s.draws := rfl
@[simp] theorem appendByte_resets (v : Byte) (s : State) : (appendByte v s).resets = s.resets := rfl
@[simp] theorem appendByte_rst (v : Byte) (s : State) : (appendByte v s).rst = s.rst := rfl
@[simp] theorem appendByte_status (v : Byte) (s : State) : (appendByte v s).status = s.status := rfl
@[simp] theorem appendByte_ie (v : Byte) (s : State) : (appendByte v s).ie = s.ie := rfl
@[simp] theorem appendByte_inLen (v : Byte) (s : State) : (appendByte v s).inLen = s.inLen := rfl
@[simp] theorem appendByte_outCap (v : Byte) (s : State) : (appendByte v s).outCap = s.outCap := rfl
@[simp] theorem appendByte_outLen (v : Byte) (s : State) : (appendByte v s).outLen = s.outLen + 1 := rfl
@[simp] theorem appendByte_arg0 (v : Byte) (s : State) : (appendByte v s).arg0 = s.arg0 := rfl
@[simp] theorem appendByte_arg1 (v : Byte) (s : State) : (appendByte v s).arg1 = s.arg1 := rfl
@[simp] theorem appendByte_res0 (v : Byte) (s : State) : (appendByte v s).res0 = s.res0 := rfl
@[simp] theorem appendByte_res1 (v : Byte) (s : State) : (appendByte v s).res1 = s.res1 := rfl
@[simp] theorem appendByte_finfo (v : Byte) (s : State) : (appendByte v s).finfo = s.finfo := rfl
@[simp] theorem appendByte_brPos (v : Byte) (s : State) : (appendByte v s).brPos = s.brPos := rfl
@[simp] theorem appendByte_origLen (v : Byte) (s : State) : (appendByte v s).origLen = s.origLen := rfl
@[simp] theorem appendByte_bwAcc (v : Byte) (s : State) : (appendByte v s).bwAcc = s.bwAcc := rfl
@[simp] theorem appendByte_bwCnt (v : Byte) (s : State) : (appendByte v s).bwCnt = s.bwCnt := rfl
@[simp] theorem appendByte_head (v : Byte) (s : State) : (appendByte v s).head = s.head := rfl
@[simp] theorem appendByte_prev (v : Byte) (s : State) : (appendByte v s).prev = s.prev := rfl
@[simp] theorem appendByte_tokbuf (v : Byte) (s : State) : (appendByte v s).tokbuf = s.tokbuf := rfl
@[simp] theorem appendByte_ft (v : Byte) (s : State) : (appendByte v s).ft = s.ft := rfl
@[simp] theorem appendByte_tree (v : Byte) (s : State) : (appendByte v s).tree = s.tree := rfl
@[simp] theorem appendByte_ring (v : Byte) (s : State) : (appendByte v s).ring = Sparse.set s.ring (s.outLen.toNat % Config.ringSize) v := rfl
@[simp] theorem appendByte_inMem (v : Byte) (s : State) : (appendByte v s).inMem = s.inMem := rfl
@[simp] theorem appendByte_outMem (v : Byte) (s : State) : (appendByte v s).outMem = Sparse.set s.outMem s.outLen.toNat v := rfl

/-! ## outResetBody -/

@[simp] theorem outResetBody_params (s : State) : (outResetBody s).params = s.params := rfl
@[simp] theorem outResetBody_pending (s : State) : (outResetBody s).pending = s.pending := rfl
@[simp] theorem outResetBody_hostData (s : State) : (outResetBody s).hostData = s.hostData := rfl
@[simp] theorem outResetBody_draws (s : State) : (outResetBody s).draws = s.draws := rfl
@[simp] theorem outResetBody_resets (s : State) : (outResetBody s).resets = s.resets := rfl
@[simp] theorem outResetBody_rst (s : State) : (outResetBody s).rst = s.rst := rfl
@[simp] theorem outResetBody_status (s : State) : (outResetBody s).status = s.status := rfl
@[simp] theorem outResetBody_ie (s : State) : (outResetBody s).ie = s.ie := rfl
@[simp] theorem outResetBody_inLen (s : State) : (outResetBody s).inLen = s.inLen := rfl
@[simp] theorem outResetBody_outCap (s : State) : (outResetBody s).outCap = s.outCap := rfl
@[simp] theorem outResetBody_outLen (s : State) : (outResetBody s).outLen = 0 := rfl
@[simp] theorem outResetBody_arg0 (s : State) : (outResetBody s).arg0 = s.arg0 := rfl
@[simp] theorem outResetBody_arg1 (s : State) : (outResetBody s).arg1 = s.arg1 := rfl
@[simp] theorem outResetBody_res0 (s : State) : (outResetBody s).res0 = s.res0 := rfl
@[simp] theorem outResetBody_res1 (s : State) : (outResetBody s).res1 = s.res1 := rfl
@[simp] theorem outResetBody_finfo (s : State) : (outResetBody s).finfo = s.finfo := rfl
@[simp] theorem outResetBody_brPos (s : State) : (outResetBody s).brPos = s.brPos := rfl
@[simp] theorem outResetBody_origLen (s : State) : (outResetBody s).origLen = s.origLen := rfl
@[simp] theorem outResetBody_bwAcc (s : State) : (outResetBody s).bwAcc = 0 := rfl
@[simp] theorem outResetBody_bwCnt (s : State) : (outResetBody s).bwCnt = 0 := rfl
@[simp] theorem outResetBody_head (s : State) : (outResetBody s).head = s.head := rfl
@[simp] theorem outResetBody_prev (s : State) : (outResetBody s).prev = s.prev := rfl
@[simp] theorem outResetBody_tokbuf (s : State) : (outResetBody s).tokbuf = s.tokbuf := rfl
@[simp] theorem outResetBody_ft (s : State) : (outResetBody s).ft = s.ft := rfl
@[simp] theorem outResetBody_tree (s : State) : (outResetBody s).tree = s.tree := rfl
@[simp] theorem outResetBody_ring (s : State) : (outResetBody s).ring = s.ring := rfl
@[simp] theorem outResetBody_inMem (s : State) : (outResetBody s).inMem = s.inMem := rfl
@[simp] theorem outResetBody_outMem (s : State) : (outResetBody s).outMem = s.outMem := rfl

/-! ## setTable -/

@[simp] theorem setTable_params (l : List FtEntry) (s : State) : (setTable l s).params = s.params := rfl
@[simp] theorem setTable_pending (l : List FtEntry) (s : State) : (setTable l s).pending = s.pending := rfl
@[simp] theorem setTable_hostData (l : List FtEntry) (s : State) : (setTable l s).hostData = s.hostData := rfl
@[simp] theorem setTable_draws (l : List FtEntry) (s : State) : (setTable l s).draws = s.draws := rfl
@[simp] theorem setTable_resets (l : List FtEntry) (s : State) : (setTable l s).resets = s.resets := rfl
@[simp] theorem setTable_rst (l : List FtEntry) (s : State) : (setTable l s).rst = s.rst := rfl
@[simp] theorem setTable_status (l : List FtEntry) (s : State) : (setTable l s).status = s.status := rfl
@[simp] theorem setTable_ie (l : List FtEntry) (s : State) : (setTable l s).ie = s.ie := rfl
@[simp] theorem setTable_inLen (l : List FtEntry) (s : State) : (setTable l s).inLen = s.inLen := rfl
@[simp] theorem setTable_outCap (l : List FtEntry) (s : State) : (setTable l s).outCap = s.outCap := rfl
@[simp] theorem setTable_outLen (l : List FtEntry) (s : State) : (setTable l s).outLen = s.outLen := rfl
@[simp] theorem setTable_arg0 (l : List FtEntry) (s : State) : (setTable l s).arg0 = s.arg0 := rfl
@[simp] theorem setTable_arg1 (l : List FtEntry) (s : State) : (setTable l s).arg1 = s.arg1 := rfl
@[simp] theorem setTable_res0 (l : List FtEntry) (s : State) : (setTable l s).res0 = s.res0 := rfl
@[simp] theorem setTable_res1 (l : List FtEntry) (s : State) : (setTable l s).res1 = s.res1 := rfl
@[simp] theorem setTable_finfo (l : List FtEntry) (s : State) : (setTable l s).finfo = s.finfo := rfl
@[simp] theorem setTable_brPos (l : List FtEntry) (s : State) : (setTable l s).brPos = s.brPos := rfl
@[simp] theorem setTable_origLen (l : List FtEntry) (s : State) : (setTable l s).origLen = s.origLen := rfl
@[simp] theorem setTable_bwAcc (l : List FtEntry) (s : State) : (setTable l s).bwAcc = s.bwAcc := rfl
@[simp] theorem setTable_bwCnt (l : List FtEntry) (s : State) : (setTable l s).bwCnt = s.bwCnt := rfl
@[simp] theorem setTable_head (l : List FtEntry) (s : State) : (setTable l s).head = s.head := rfl
@[simp] theorem setTable_prev (l : List FtEntry) (s : State) : (setTable l s).prev = s.prev := rfl
@[simp] theorem setTable_tokbuf (l : List FtEntry) (s : State) : (setTable l s).tokbuf = s.tokbuf := rfl
@[simp] theorem setTable_ft (l : List FtEntry) (s : State) : (setTable l s).ft = l := rfl
@[simp] theorem setTable_tree (l : List FtEntry) (s : State) : (setTable l s).tree = none := rfl
@[simp] theorem setTable_ring (l : List FtEntry) (s : State) : (setTable l s).ring = s.ring := rfl
@[simp] theorem setTable_inMem (l : List FtEntry) (s : State) : (setTable l s).inMem = s.inMem := rfl
@[simp] theorem setTable_outMem (l : List FtEntry) (s : State) : (setTable l s).outMem = s.outMem := rfl

/-! ## mfClearBody -/

@[simp] theorem mfClearBody_params (s : State) : (mfClearBody s).params = s.params := rfl
@[simp] theorem mfClearBody_pending (s : State) : (mfClearBody s).pending = s.pending := rfl
@[simp] theorem mfClearBody_hostData (s : State) : (mfClearBody s).hostData = s.hostData := rfl
@[simp] theorem mfClearBody_draws (s : State) : (mfClearBody s).draws = s.draws := rfl
@[simp] theorem mfClearBody_resets (s : State) : (mfClearBody s).resets = s.resets := rfl
@[simp] theorem mfClearBody_rst (s : State) : (mfClearBody s).rst = s.rst := rfl
@[simp] theorem mfClearBody_status (s : State) : (mfClearBody s).status = s.status := rfl
@[simp] theorem mfClearBody_ie (s : State) : (mfClearBody s).ie = s.ie := rfl
@[simp] theorem mfClearBody_inLen (s : State) : (mfClearBody s).inLen = s.inLen := rfl
@[simp] theorem mfClearBody_outCap (s : State) : (mfClearBody s).outCap = s.outCap := rfl
@[simp] theorem mfClearBody_outLen (s : State) : (mfClearBody s).outLen = s.outLen := rfl
@[simp] theorem mfClearBody_arg0 (s : State) : (mfClearBody s).arg0 = s.arg0 := rfl
@[simp] theorem mfClearBody_arg1 (s : State) : (mfClearBody s).arg1 = s.arg1 := rfl
@[simp] theorem mfClearBody_res0 (s : State) : (mfClearBody s).res0 = s.res0 := rfl
@[simp] theorem mfClearBody_res1 (s : State) : (mfClearBody s).res1 = s.res1 := rfl
@[simp] theorem mfClearBody_finfo (s : State) : (mfClearBody s).finfo = s.finfo := rfl
@[simp] theorem mfClearBody_brPos (s : State) : (mfClearBody s).brPos = s.brPos := rfl
@[simp] theorem mfClearBody_origLen (s : State) : (mfClearBody s).origLen = s.origLen := rfl
@[simp] theorem mfClearBody_bwAcc (s : State) : (mfClearBody s).bwAcc = s.bwAcc := rfl
@[simp] theorem mfClearBody_bwCnt (s : State) : (mfClearBody s).bwCnt = s.bwCnt := rfl
@[simp] theorem mfClearBody_head (s : State) : (mfClearBody s).head = [] := rfl
@[simp] theorem mfClearBody_prev (s : State) : (mfClearBody s).prev = s.prev := rfl
@[simp] theorem mfClearBody_tokbuf (s : State) : (mfClearBody s).tokbuf = s.tokbuf := rfl
@[simp] theorem mfClearBody_ft (s : State) : (mfClearBody s).ft = s.ft := rfl
@[simp] theorem mfClearBody_tree (s : State) : (mfClearBody s).tree = s.tree := rfl
@[simp] theorem mfClearBody_ring (s : State) : (mfClearBody s).ring = s.ring := rfl
@[simp] theorem mfClearBody_inMem (s : State) : (mfClearBody s).inMem = s.inMem := rfl
@[simp] theorem mfClearBody_outMem (s : State) : (mfClearBody s).outMem = s.outMem := rfl

/-! ## setEos -/

@[simp] theorem setEos_params (s : State) : (setEos s).params = s.params := rfl
@[simp] theorem setEos_pending (s : State) : (setEos s).pending = s.pending := rfl
@[simp] theorem setEos_hostData (s : State) : (setEos s).hostData = s.hostData := rfl
@[simp] theorem setEos_draws (s : State) : (setEos s).draws = s.draws := rfl
@[simp] theorem setEos_resets (s : State) : (setEos s).resets = s.resets := rfl
@[simp] theorem setEos_rst (s : State) : (setEos s).rst = s.rst := rfl
@[simp] theorem setEos_status (s : State) : (setEos s).status = { s.status with eos := true } := rfl
@[simp] theorem setEos_ie (s : State) : (setEos s).ie = s.ie := rfl
@[simp] theorem setEos_inLen (s : State) : (setEos s).inLen = s.inLen := rfl
@[simp] theorem setEos_outCap (s : State) : (setEos s).outCap = s.outCap := rfl
@[simp] theorem setEos_outLen (s : State) : (setEos s).outLen = s.outLen := rfl
@[simp] theorem setEos_arg0 (s : State) : (setEos s).arg0 = s.arg0 := rfl
@[simp] theorem setEos_arg1 (s : State) : (setEos s).arg1 = s.arg1 := rfl
@[simp] theorem setEos_res0 (s : State) : (setEos s).res0 = s.res0 := rfl
@[simp] theorem setEos_res1 (s : State) : (setEos s).res1 = s.res1 := rfl
@[simp] theorem setEos_finfo (s : State) : (setEos s).finfo = s.finfo := rfl
@[simp] theorem setEos_brPos (s : State) : (setEos s).brPos = s.brPos := rfl
@[simp] theorem setEos_origLen (s : State) : (setEos s).origLen = s.origLen := rfl
@[simp] theorem setEos_bwAcc (s : State) : (setEos s).bwAcc = s.bwAcc := rfl
@[simp] theorem setEos_bwCnt (s : State) : (setEos s).bwCnt = s.bwCnt := rfl
@[simp] theorem setEos_head (s : State) : (setEos s).head = s.head := rfl
@[simp] theorem setEos_prev (s : State) : (setEos s).prev = s.prev := rfl
@[simp] theorem setEos_tokbuf (s : State) : (setEos s).tokbuf = s.tokbuf := rfl
@[simp] theorem setEos_ft (s : State) : (setEos s).ft = s.ft := rfl
@[simp] theorem setEos_tree (s : State) : (setEos s).tree = s.tree := rfl
@[simp] theorem setEos_ring (s : State) : (setEos s).ring = s.ring := rfl
@[simp] theorem setEos_inMem (s : State) : (setEos s).inMem = s.inMem := rfl
@[simp] theorem setEos_outMem (s : State) : (setEos s).outMem = s.outMem := rfl

/-! ## setTrunc -/

@[simp] theorem setTrunc_params (s : State) : (setTrunc s).params = s.params := rfl
@[simp] theorem setTrunc_pending (s : State) : (setTrunc s).pending = s.pending := rfl
@[simp] theorem setTrunc_hostData (s : State) : (setTrunc s).hostData = s.hostData := rfl
@[simp] theorem setTrunc_draws (s : State) : (setTrunc s).draws = s.draws := rfl
@[simp] theorem setTrunc_resets (s : State) : (setTrunc s).resets = s.resets := rfl
@[simp] theorem setTrunc_rst (s : State) : (setTrunc s).rst = s.rst := rfl
@[simp] theorem setTrunc_status (s : State) : (setTrunc s).status = { s.status with trunc := true } := rfl
@[simp] theorem setTrunc_ie (s : State) : (setTrunc s).ie = s.ie := rfl
@[simp] theorem setTrunc_inLen (s : State) : (setTrunc s).inLen = s.inLen := rfl
@[simp] theorem setTrunc_outCap (s : State) : (setTrunc s).outCap = s.outCap := rfl
@[simp] theorem setTrunc_outLen (s : State) : (setTrunc s).outLen = s.outLen := rfl
@[simp] theorem setTrunc_arg0 (s : State) : (setTrunc s).arg0 = s.arg0 := rfl
@[simp] theorem setTrunc_arg1 (s : State) : (setTrunc s).arg1 = s.arg1 := rfl
@[simp] theorem setTrunc_res0 (s : State) : (setTrunc s).res0 = s.res0 := rfl
@[simp] theorem setTrunc_res1 (s : State) : (setTrunc s).res1 = s.res1 := rfl
@[simp] theorem setTrunc_finfo (s : State) : (setTrunc s).finfo = s.finfo := rfl
@[simp] theorem setTrunc_brPos (s : State) : (setTrunc s).brPos = s.brPos := rfl
@[simp] theorem setTrunc_origLen (s : State) : (setTrunc s).origLen = s.origLen := rfl
@[simp] theorem setTrunc_bwAcc (s : State) : (setTrunc s).bwAcc = s.bwAcc := rfl
@[simp] theorem setTrunc_bwCnt (s : State) : (setTrunc s).bwCnt = s.bwCnt := rfl
@[simp] theorem setTrunc_head (s : State) : (setTrunc s).head = s.head := rfl
@[simp] theorem setTrunc_prev (s : State) : (setTrunc s).prev = s.prev := rfl
@[simp] theorem setTrunc_tokbuf (s : State) : (setTrunc s).tokbuf = s.tokbuf := rfl
@[simp] theorem setTrunc_ft (s : State) : (setTrunc s).ft = s.ft := rfl
@[simp] theorem setTrunc_tree (s : State) : (setTrunc s).tree = s.tree := rfl
@[simp] theorem setTrunc_ring (s : State) : (setTrunc s).ring = s.ring := rfl
@[simp] theorem setTrunc_inMem (s : State) : (setTrunc s).inMem = s.inMem := rfl
@[simp] theorem setTrunc_outMem (s : State) : (setTrunc s).outMem = s.outMem := rfl

/-! ## setIgn -/

@[simp] theorem setIgn_params (s : State) : (setIgn s).params = s.params := rfl
@[simp] theorem setIgn_pending (s : State) : (setIgn s).pending = s.pending := rfl
@[simp] theorem setIgn_hostData (s : State) : (setIgn s).hostData = s.hostData := rfl
@[simp] theorem setIgn_draws (s : State) : (setIgn s).draws = s.draws := rfl
@[simp] theorem setIgn_resets (s : State) : (setIgn s).resets = s.resets := rfl
@[simp] theorem setIgn_rst (s : State) : (setIgn s).rst = s.rst := rfl
@[simp] theorem setIgn_status (s : State) : (setIgn s).status = { s.status with ign := true } := rfl
@[simp] theorem setIgn_ie (s : State) : (setIgn s).ie = s.ie := rfl
@[simp] theorem setIgn_inLen (s : State) : (setIgn s).inLen = s.inLen := rfl
@[simp] theorem setIgn_outCap (s : State) : (setIgn s).outCap = s.outCap := rfl
@[simp] theorem setIgn_outLen (s : State) : (setIgn s).outLen = s.outLen := rfl
@[simp] theorem setIgn_arg0 (s : State) : (setIgn s).arg0 = s.arg0 := rfl
@[simp] theorem setIgn_arg1 (s : State) : (setIgn s).arg1 = s.arg1 := rfl
@[simp] theorem setIgn_res0 (s : State) : (setIgn s).res0 = s.res0 := rfl
@[simp] theorem setIgn_res1 (s : State) : (setIgn s).res1 = s.res1 := rfl
@[simp] theorem setIgn_finfo (s : State) : (setIgn s).finfo = s.finfo := rfl
@[simp] theorem setIgn_brPos (s : State) : (setIgn s).brPos = s.brPos := rfl
@[simp] theorem setIgn_origLen (s : State) : (setIgn s).origLen = s.origLen := rfl
@[simp] theorem setIgn_bwAcc (s : State) : (setIgn s).bwAcc = s.bwAcc := rfl
@[simp] theorem setIgn_bwCnt (s : State) : (setIgn s).bwCnt = s.bwCnt := rfl
@[simp] theorem setIgn_head (s : State) : (setIgn s).head = s.head := rfl
@[simp] theorem setIgn_prev (s : State) : (setIgn s).prev = s.prev := rfl
@[simp] theorem setIgn_tokbuf (s : State) : (setIgn s).tokbuf = s.tokbuf := rfl
@[simp] theorem setIgn_ft (s : State) : (setIgn s).ft = s.ft := rfl
@[simp] theorem setIgn_tree (s : State) : (setIgn s).tree = s.tree := rfl
@[simp] theorem setIgn_ring (s : State) : (setIgn s).ring = s.ring := rfl
@[simp] theorem setIgn_inMem (s : State) : (setIgn s).inMem = s.inMem := rfl
@[simp] theorem setIgn_outMem (s : State) : (setIgn s).outMem = s.outMem := rfl

end Sys2Proof.Machine
end

