-- ==== Sys2Proof/Laws/Ops.lean ====
section
/-! SUPPORT. What the shared operations can do: sparse arrays, sequencing, completion, start checks and
the output write primitive. -/

namespace Sys2Proof.Machine

/-! ## Sparse arrays -/

theorem Sparse.get?_set {α : Type} (m : Sparse α) (a b : Nat) (v : α) :
    Sparse.get? (Sparse.set m a v) b = if b = a then some v else Sparse.get? m b := by
  induction m with
  | nil => simp [Sparse.set, Sparse.get?, eq_comm]
  | cons e m ih =>
    obtain ⟨k, w⟩ := e
    rcases lt_trichotomy a k with h | rfl | h
    · by_cases hb : b = a
      · simp [Sparse.set, Sparse.get?, h, hb]
      · simp [Sparse.set, Sparse.get?, h, hb, Ne.symm hb]
    · by_cases hb : b = a
      · simp [Sparse.set, Sparse.get?, hb]
      · simp [Sparse.set, Sparse.get?, hb, Ne.symm hb]
    · by_cases hk : k = b
      · subst hk
        simp [Sparse.set, Sparse.get?, h.ne, h.ne', h.not_gt]
      · simp [Sparse.set, Sparse.get?, h.ne', h.not_gt, hk, ih]

@[simp] theorem Sparse.get?_set_same {α : Type} (m : Sparse α) (a : Nat) (v : α) :
    Sparse.get? (Sparse.set m a v) a = some v := by simp [Sparse.get?_set]

theorem Sparse.get?_set_other {α : Type} (m : Sparse α) {a b : Nat} (v : α) (h : b ≠ a) :
    Sparse.get? (Sparse.set m a v) b = Sparse.get? m b := by simp [Sparse.get?_set, h]

theorem Sparse.mem_set {α : Type} {m : Sparse α} {a : Nat} {v : α} {e : Nat × α}
    (h : e ∈ Sparse.set m a v) : e = (a, v) ∨ e ∈ m := by
  induction m with
  | nil => simpa [Sparse.set] using h
  | cons k m ih =>
    simp only [Sparse.set] at h
    split_ifs at h <;> simp only [List.mem_cons] at h ⊢ <;> tauto

/-- A write keeps the canonical form. -/
theorem Sparse.set_wf {α : Type} {m : Sparse α} (h : Sparse.wf m) (a : Nat) (v : α) :
    Sparse.wf (Sparse.set m a v) := by
  induction m with
  | nil => simp [Sparse.set, Sparse.wf]
  | cons e m ih =>
    obtain ⟨k, w⟩ := e
    simp only [Sparse.wf, List.map_cons, List.pairwise_cons, List.mem_map, forall_exists_index, and_imp,
      forall_apply_eq_imp_iff₂] at h
    simp only [Sparse.set]
    split_ifs with h₁ h₂
    · simp only [Sparse.wf, List.map_cons, List.pairwise_cons, List.mem_cons, List.mem_map,
        forall_eq_or_imp, forall_exists_index, and_imp, forall_apply_eq_imp_iff₂]
      exact ⟨⟨h₁, fun x hx => lt_trans h₁ (h.1 x hx)⟩, h.1, h.2⟩
    · subst h₂
      simpa [Sparse.wf] using h
    · simp only [Sparse.wf, List.map_cons, List.pairwise_cons, List.mem_map, forall_exists_index, and_imp,
        forall_apply_eq_imp_iff₂]
      refine ⟨fun x hx => ?_, ih h.2⟩
      rcases Sparse.mem_set hx with rfl | hx
      · dsimp only; omega
      · exact h.1 x hx

theorem Sparse.get?_eq_none_of_lt {α : Type} {m : Sparse α} {a : Nat}
    (h : ∀ e ∈ m, a < e.1) : Sparse.get? m a = none := by
  induction m with
  | nil => rfl
  | cons e m ih =>
    have h₁ := h e (by simp)
    simp only [Sparse.get?]
    rw [if_neg (by omega)]
    exact ih fun x hx => h x (by simp [hx])

theorem Sparse.get?_of_mem {α : Type} {m : Sparse α} (h : Sparse.wf m) {e : Nat × α} (he : e ∈ m) :
    Sparse.get? m e.1 = some e.2 := by
  induction m with
  | nil => simp at he
  | cons f m ih =>
    simp only [Sparse.wf, List.map_cons, List.pairwise_cons, List.mem_map, forall_exists_index, and_imp,
      forall_apply_eq_imp_iff₂] at h
    simp only [Sparse.get?]
    rcases List.mem_cons.mp he with rfl | he
    · simp
    · have := h.1 e he
      rw [if_neg (by omega)]
      exact ih h.2 he

theorem Sparse.mem_of_get? {α : Type} {m : Sparse α} {a : Nat} {v : α} (h : Sparse.get? m a = some v) :
    (a, v) ∈ m := by
  induction m with
  | nil => simp [Sparse.get?] at h
  | cons e m ih =>
    obtain ⟨k, w⟩ := e
    simp only [Sparse.get?] at h
    split_ifs at h with hk
    · simp_all
    · exact List.mem_cons_of_mem _ (ih h)

/-- Canonical arrays that read alike are equal lists. -/
theorem Sparse.ext {α : Type} {m m' : Sparse α} (h : Sparse.wf m) (h' : Sparse.wf m')
    (heq : ∀ a, Sparse.get? m a = Sparse.get? m' a) : m = m' := by
  induction m generalizing m' with
  | nil =>
    cases m' with
    | nil => rfl
    | cons e m' =>
      have := heq e.1
      rw [Sparse.get?_of_mem h' (List.mem_cons_self)] at this
      simp [Sparse.get?] at this
  | cons e m ih =>
    cases m' with
    | nil =>
      have := heq e.1
      rw [Sparse.get?_of_mem h (List.mem_cons_self)] at this
      simp [Sparse.get?] at this
    | cons e' m' =>
      have hw := h
      have hw' := h'
      simp only [Sparse.wf, List.map_cons, List.pairwise_cons, List.mem_map, forall_exists_index, and_imp,
        forall_apply_eq_imp_iff₂] at hw hw'
      have h₁ : e ∈ e' :: m' := by
        have := heq e.1
        rw [Sparse.get?_of_mem h (List.mem_cons_self)] at this
        exact Sparse.mem_of_get? this.symm
      have h₂ : e' ∈ e :: m := by
        have := heq e'.1
        rw [Sparse.get?_of_mem h' (List.mem_cons_self)] at this
        exact Sparse.mem_of_get? this
      have hee : e = e' := by
        rcases List.mem_cons.mp h₁ with h₁ | h₁
        · exact h₁
        · rcases List.mem_cons.mp h₂ with h₂ | h₂
          · exact h₂.symm
          · have := hw.1 _ h₂
            have := hw'.1 _ h₁
            omega
      subst hee
      congr 1
      refine ih hw.2 hw'.2 fun a => ?_
      by_cases ha : e.1 = a
      · subst ha
        rw [Sparse.get?_eq_none_of_lt fun x hx => hw.1 x hx,
          Sparse.get?_eq_none_of_lt fun x hx => hw'.1 x hx]
      · simpa [Sparse.get?, ha] using heq a

theorem Sparse.setAll_wf {α : Type} (vs : List α) {m : Sparse α} (h : Sparse.wf m) (a : Nat) :
    Sparse.wf (Sparse.setAll m a vs) := by
  induction vs generalizing m a with
  | nil => exact h
  | cons v vs ih => exact ih (Sparse.set_wf h a v) (a + 1)

/-- Every memory operation keeps the canonical form of a byte memory; reset memory has it. -/
theorem Memory.set_wf {m : Memory} (h : Memory.wf m) (a : Nat) (v : Byte) : Memory.wf (Sparse.set m a v) :=
  Sparse.set_wf h a v

theorem Memory.reset_wf : Memory.wf State.reset.inMem ∧ Memory.wf State.reset.outMem ∧
    Memory.wf State.reset.ring := by decide

/-! ## Sequencing -/

@[simp] theorem Res.bind_ok {α β : Type} (a : α) (s : State) (f : α → State → Res β) :
    (Res.ok a s).bind f = f a s := rfl

@[simp] theorem Res.bind_fault {α β : Type} (c : FaultCode) (i : Word) (s : State) (f : α → State → Res β) :
    (Res.fault c i s).bind f = .fault c i s := rfl

theorem Res.bind_eq_ok {α β : Type} {r : Res α} {f : α → State → Res β} {b : β} {t : State} :
    r.bind f = .ok b t ↔ ∃ a s, r = .ok a s ∧ f a s = .ok b t := by
  cases r <;> simp

theorem Res.bind_eq_fault {α β : Type} {r : Res α} {f : α → State → Res β} {c : FaultCode} {i : Word}
    {t : State} :
    r.bind f = .fault c i t ↔ r = .fault c i t ∨ ∃ a s, r = .ok a s ∧ f a s = .fault c i t := by
  cases r <;> simp

theorem Res.bind_assoc {α β γ : Type} (r : Res α) (f : α → State → Res β) (g : β → State → Res γ) :
    (r.bind f).bind g = r.bind fun a s => (f a s).bind g := by
  cases r <;> rfl

/-- A piece of pseudocode keeps a property of the state when it keeps it however it ends. -/
def Res.Keeps {α : Type} (P : State → Prop) : Res α → Prop
  | .ok _ s => P s
  | .fault _ _ s => P s

theorem Res.Keeps.bind {α β : Type} {P Q : State → Prop} {r : Res α} {f : α → State → Res β}
    (h : r.Keeps P) (hPQ : ∀ s, P s → Q s) (hf : ∀ a s, P s → (f a s).Keeps Q) : (r.bind f).Keeps Q := by
  cases r with
  | ok a s => exact hf a s h
  | fault c i s => exact hPQ s h

/-! ## Completion and start checks -/

/-- A command always answers a next state: it completes or records its fault. -/
theorem finish_cases (r : Res Results) :
    (∃ x s, r = .ok x s ∧ finish r = .next (complete x s)) ∨
      ∃ c i s, r = .fault c i s ∧ finish r = .next (takeFault c i s) := by
  cases r with
  | ok x s => exact .inl ⟨x, s, rfl, rfl⟩
  | fault c i s => exact .inr ⟨c, i, s, rfl, rfl⟩

/-- The start checks change nothing, and what they answer (R403). -/
theorem startChecks_cases (s : State) :
    (s.params.nMax.val < s.inLen.toNat ∧ startChecks s = .fault .inRange s.inLen s) ∨
    (s.inLen.toNat ≤ s.params.nMax.val ∧ s.params.outMax.val < s.outCap.toNat ∧
      startChecks s = .fault .outRange s.outCap s) ∨
    (s.inLen.toNat ≤ s.params.nMax.val ∧ s.outCap.toNat ≤ s.params.outMax.val ∧
      startChecks s = .ok () s) := by
  unfold startChecks
  split_ifs with h₁ h₂
  · exact .inl ⟨h₁, rfl⟩
  · exact .inr (.inl ⟨by omega, h₂, rfl⟩)
  · exact .inr (.inr ⟨by omega, by omega, rfl⟩)

/-- A command whose start checks pass is its body and completion. -/
theorem runCommand_of_checks {body : State → Res Results} {s : State}
    (h : startChecks s = .ok () s) : runCommand body s = finish (body s) := by
  simp [runCommand, h]

/-- What a command can answer: a range fault of the start checks, or its body's end. -/
theorem runCommand_cases (body : State → Res Results) (s : State) :
    runCommand body s = .next (takeFault .inRange s.inLen s) ∨
    runCommand body s = .next (takeFault .outRange s.outCap s) ∨
    (startChecks s = .ok () s ∧ runCommand body s = finish (body s)) := by
  rcases startChecks_cases s with ⟨_, h⟩ | ⟨_, _, h⟩ | ⟨_, _, h⟩
  · exact .inl (by simp [runCommand, h, finish])
  · exact .inr (.inl (by simp [runCommand, h, finish]))
  · exact .inr (.inr ⟨h, runCommand_of_checks h⟩)

/-! ## The output write primitive -/

/-- All that OutWrite can do (R86). -/
theorem outWrite_cases (v : Byte) (s : State) :
    (s.outCap.toNat ≤ s.outLen.toNat ∧ outWrite v s = .fault .outOverflow s.outLen s) ∨
      (s.outLen.toNat < s.outCap.toNat ∧ outWrite v s = .ok () (appendByte v s)) := by
  unfold outWrite
  split_ifs with h
  · exact .inl ⟨h, rfl⟩
  · exact .inr ⟨by omega, rfl⟩

/-- OUT_LEN + 1 does not wrap when the check passes (R14). -/
theorem appendByte_outLen_toNat {v : Byte} {s : State} (h : s.outLen.toNat < s.outCap.toNat) :
    (appendByte v s).outLen.toNat = s.outLen.toNat + 1 := by
  have := s.outCap.isLt
  have h1 : (1 : Word).toNat = 1 := rfl
  simp only [appendByte_outLen, BitVec.toNat_add, h1]
  omega

/-- The fields the output primitives may change: OUT, RING, OUT_LEN, BW_ACC and BW_CNT. -/
def SameButOutput (s t : State) : Prop :=
  t = { s with outMem := t.outMem, ring := t.ring, outLen := t.outLen, bwAcc := t.bwAcc, bwCnt := t.bwCnt }

theorem SameButOutput.refl (s : State) : SameButOutput s s := rfl

theorem SameButOutput.trans {s t u : State} (h : SameButOutput s t) (h' : SameButOutput t u) :
    SameButOutput s u := by
  unfold SameButOutput at *
  rw [h'] at *
  rw [h]

theorem SameButOutput.appendByte (v : Byte) (s : State) : SameButOutput s (Machine.appendByte v s) := rfl

/-- OUT_CAP is among the fields that stay. -/
theorem SameButOutput.outCap {s t : State} (h : SameButOutput s t) : t.outCap = s.outCap := by
  rw [SameButOutput] at h; rw [h]

theorem outWrite_same (v : Byte) (s : State) : (outWrite v s).Keeps (SameButOutput s) := by
  rcases outWrite_cases v s with ⟨_, h⟩ | ⟨_, h⟩ <;> rw [h]
  · exact SameButOutput.refl s
  · exact SameButOutput.appendByte v s

theorem outWriteAll_same (vs : List Byte) (s : State) : (outWriteAll vs s).Keeps (SameButOutput s) := by
  induction vs generalizing s with
  | nil => exact SameButOutput.refl s
  | cons v vs ih =>
    exact (outWrite_same v s).bind (fun _ h => h) fun _ u hu => by
      have := ih u
      cases h : outWriteAll vs u <;> simp only [h, Res.Keeps] at this ⊢ <;> exact hu.trans this

end Sys2Proof.Machine
end

