-- ==== Sys2Proof/Laws/BitStream.lean ====
section
/-! SUPPORT. What the bit-stream primitives can do: the packer appends within the output fields, the
unpacker moves BR_POS and sets EOS only, and reading IN is reading the list of its stream bits. -/

namespace Sys2Proof.Machine

/-! ## The packer -/

/-- All that PutBit can do (R291). -/
theorem putBit_cases (b : Bool) (s : State) :
    (s.bwCnt.toNat < 7 ∧ putBit b s = .ok () { s with
        bwAcc := (s.bwAcc <<< 1) ||| (BitVec.ofBool b).setWidth 8, bwCnt := s.bwCnt + 1 }) ∨
    (s.bwCnt.toNat = 7 ∧ s.outLen.toNat < s.outCap.toNat ∧ putBit b s = .ok ()
      { appendByte ((s.bwAcc <<< 1) ||| (BitVec.ofBool b).setWidth 8) s with bwAcc := 0, bwCnt := 0 }) ∨
    (s.bwCnt.toNat = 7 ∧ s.outCap.toNat ≤ s.outLen.toNat ∧
      putBit b s = .fault .outOverflow s.outLen s) := by
  have := s.bwCnt.isLt
  unfold putBit
  dsimp only
  split_ifs with h
  · rcases outWrite_cases ((s.bwAcc <<< 1) ||| (BitVec.ofBool b).setWidth 8) s with ⟨h₁, h₂⟩ | ⟨h₁, h₂⟩
    · exact .inr (.inr ⟨by omega, h₁, by rw [h₂]; rfl⟩)
    · exact .inr (.inl ⟨by omega, h₁, by rw [h₂]; rfl⟩)
  · exact .inl ⟨by omega, rfl⟩

theorem putBit_same (b : Bool) (s : State) : (putBit b s).Keeps (SameButOutput s) := by
  rcases putBit_cases b s with ⟨_, h⟩ | ⟨_, _, h⟩ | ⟨_, _, h⟩ <;> rw [h] <;> rfl

/-- Sequencing keeps "only the output fields change". -/
theorem Res.Keeps.same_bind {α β : Type} {s : State} {r : Res α} {f : α → State → Res β}
    (h : r.Keeps (SameButOutput s)) (hf : ∀ a u, (f a u).Keeps (SameButOutput u)) :
    (r.bind f).Keeps (SameButOutput s) := by
  refine h.bind (fun _ h => h) fun a u hu => ?_
  have := hf a u
  cases h : f a u <;> simp only [h, Res.Keeps] at this ⊢ <;> exact hu.trans this

theorem putBitList_same (l : List Bool) (s : State) : (putBitList l s).Keeps (SameButOutput s) := by
  induction l generalizing s with
  | nil => exact SameButOutput.refl s
  | cons b l ih => exact (putBit_same b s).same_bind fun _ u => ih u

theorem putBits_same (w v : Nat) (s : State) : (putBits w v s).Keeps (SameButOutput s) :=
  putBitList_same _ s

theorem flush_same (s : State) : (flush s).Keeps (SameButOutput s) := by
  unfold flush
  split_ifs
  · exact SameButOutput.refl s
  · exact (outWrite_same _ s).same_bind fun _ u => rfl

/-! ## The unpacker -/

/-- All that GetBit can do (R293). -/
theorem getBit_cases (s : State) :
    (8 * s.inLen.toNat ≤ s.brPos.toNat ∧ getBit s = (none, setEos s)) ∨
    (s.brPos.toNat < 8 * s.inLen.toNat ∧
      getBit s = (some (streamBit s s.brPos.toNat), { s with brPos := s.brPos + 1 })) := by
  unfold getBit
  split_ifs with h
  · exact .inl ⟨h, rfl⟩
  · exact .inr ⟨by omega, rfl⟩

/-- The fields the unpacker may change: BR_POS and EOS. -/
def SameButReader (s t : State) : Prop :=
  t = { s with brPos := t.brPos, status := { s.status with eos := t.status.eos } }

theorem SameButReader.refl (s : State) : SameButReader s s := rfl

theorem SameButReader.trans {s t u : State} (h : SameButReader s t) (h' : SameButReader t u) :
    SameButReader s u := by
  unfold SameButReader at *
  rw [h'] at *
  rw [h]

theorem getBit_same (s : State) : SameButReader s (getBit s).2 := by
  rcases getBit_cases s with ⟨_, h⟩ | ⟨_, h⟩ <;> rw [h] <;> rfl

/-! A relation that every bit read keeps, every reader keeps. -/

theorem readBitsWith_rel {σ : Type} {get : σ → Option Bool × σ} {R : σ → σ → Prop}
    (refl : ∀ s, R s s) (trans : ∀ {a b c}, R a b → R b c → R a c) (hget : ∀ s, R s (get s).2)
    (w v : Nat) (s : σ) : R s (readBitsWith get w v s).2 := by
  induction w generalizing v s with
  | zero => exact refl s
  | succ w ih =>
    have := hget s
    simp only [readBitsWith]
    split <;> rename_i h <;> rw [h] at this
    · exact this
    · exact trans this (ih _ _)

theorem walkWith_rel {σ : Type} {get : σ → Option Bool × σ} {R : σ → σ → Prop}
    (refl : ∀ s, R s s) (trans : ∀ {a b c}, R a b → R b c → R a c) (hget : ∀ s, R s (get s).2)
    (t : Node) (s : σ) : R s (walkWith get t s).2 := by
  induction t generalizing s with
  | leaf u => exact refl s
  | guard => exact refl s
  | internal l r w ihl ihr =>
    have := hget s
    simp only [walkWith]
    split <;> rename_i h <;> rw [h] at this
    · exact this
    · exact trans this (ihl _)
    · exact trans this (ihr _)

theorem readTokenWith_rel {σ : Type} {get : σ → Option Bool × σ} {R : σ → σ → Prop}
    (refl : ∀ s, R s s) (trans : ∀ {a b c}, R a b → R b c → R a c) (hget : ∀ s, R s (get s).2)
    (t : Node) (s : σ) : R s (readTokenWith get t s).2 := by
  have h₀ := hget s
  unfold readTokenWith
  split
  · rename_i h; rw [h] at h₀; exact h₀
  · rename_i s₁ h
    rw [h] at h₀
    have h₁ := readBitsWith_rel refl trans hget Config.litBits 0 s₁
    split <;> rename_i h' <;> rw [h'] at h₁ <;> exact trans h₀ h₁
  · rename_i s₁ h
    rw [h] at h₀
    have h₁ := readBitsWith_rel refl trans hget Config.distBits 0 s₁
    split
    · rename_i h'; rw [h'] at h₁; exact trans h₀ h₁
    · rename_i x s₂ h'
      rw [h'] at h₁
      have h₂ := walkWith_rel refl trans hget t s₂
      split <;> rename_i h'' <;> rw [h''] at h₂ <;> exact trans h₀ (trans h₁ h₂)

theorem getBits_same (w : Nat) (s : State) : SameButReader s (getBits w s).2 :=
  readBitsWith_rel SameButReader.refl SameButReader.trans getBit_same w 0 s

theorem walk_same (t : Node) (s : State) : SameButReader s (walk t s).2 :=
  walkWith_rel SameButReader.refl SameButReader.trans getBit_same t s

theorem fetchToken_same (t : Node) (s : State) : SameButReader s (fetchToken t s).2 :=
  readTokenWith_rel SameButReader.refl SameButReader.trans getBit_same t s

/-! ## Reading IN is reading the list of its stream bits

`ReadsLike s l s'`: the list source at `streamBits s` and the machine at `s` answer alike. -/

/-- Two bit sources give the same bits and stay related. -/
def Alike {σ τ : Type} (get : σ → Option Bool × σ) (get' : τ → Option Bool × τ) (Q : σ → τ → Prop) : Prop :=
  ∀ s t, Q s t → (get s).1 = (get' t).1 ∧ Q (get s).2 (get' t).2

theorem readBitsWith_alike {σ τ : Type} {get : σ → Option Bool × σ} {get' : τ → Option Bool × τ}
    {Q : σ → τ → Prop} (h : Alike get get' Q) (w v : Nat) {s : σ} {t : τ} (hq : Q s t) :
    (readBitsWith get w v s).1 = (readBitsWith get' w v t).1 ∧
      Q (readBitsWith get w v s).2 (readBitsWith get' w v t).2 := by
  induction w generalizing v s t with
  | zero => exact ⟨rfl, hq⟩
  | succ w ih =>
    obtain ⟨h₁, h₂⟩ := h s t hq
    simp only [readBitsWith]
    rcases hs : get s with ⟨_ | b, s'⟩ <;> rcases ht : get' t with ⟨_ | b', t'⟩ <;>
      simp only [hs, ht] at h₁ h₂
    · exact ⟨rfl, h₂⟩
    · simp at h₁
    · simp at h₁
    · cases h₁
      exact ih _ h₂

theorem walkWith_alike {σ τ : Type} {get : σ → Option Bool × σ} {get' : τ → Option Bool × τ}
    {Q : σ → τ → Prop} (h : Alike get get' Q) (n : Node) {s : σ} {t : τ} (hq : Q s t) :
    (walkWith get n s).1 = (walkWith get' n t).1 ∧ Q (walkWith get n s).2 (walkWith get' n t).2 := by
  induction n generalizing s t with
  | leaf u => exact ⟨rfl, hq⟩
  | guard => exact ⟨rfl, hq⟩
  | internal l r w ihl ihr =>
    obtain ⟨h₁, h₂⟩ := h s t hq
    simp only [walkWith]
    rcases hs : get s with ⟨_ | _ | _, s'⟩ <;> rcases ht : get' t with ⟨_ | _ | _, t'⟩ <;>
      simp only [hs, ht] at h₁ h₂ <;> first
      | exact ⟨rfl, h₂⟩
      | exact ihl h₂
      | exact ihr h₂
      | simp at h₁

theorem readTokenWith_alike {σ τ : Type} {get : σ → Option Bool × σ} {get' : τ → Option Bool × τ}
    {Q : σ → τ → Prop} (h : Alike get get' Q) (n : Node) {s : σ} {t : τ} (hq : Q s t) :
    (readTokenWith get n s).1 = (readTokenWith get' n t).1 ∧
      Q (readTokenWith get n s).2 (readTokenWith get' n t).2 := by
  obtain ⟨h₁, h₂⟩ := h s t hq
  unfold readTokenWith
  rcases hs : get s with ⟨_ | _ | _, s'⟩ <;> rcases ht : get' t with ⟨_ | _ | _, t'⟩ <;>
    simp only [hs, ht] at h₁ h₂ <;> try simp_all
  · obtain ⟨h₃, h₄⟩ := readBitsWith_alike h Config.litBits 0 h₂
    rcases hs' : readBitsWith get Config.litBits 0 s' with ⟨_ | v, s''⟩ <;>
      rcases ht' : readBitsWith get' Config.litBits 0 t' with ⟨_ | v', t''⟩ <;>
      simp only [hs', ht'] at h₃ h₄ <;> simp_all
  · obtain ⟨h₃, h₄⟩ := readBitsWith_alike h Config.distBits 0 h₂
    rcases hs' : readBitsWith get Config.distBits 0 s' with ⟨_ | v, s''⟩ <;>
      rcases ht' : readBitsWith get' Config.distBits 0 t' with ⟨_ | v', t''⟩ <;>
      simp only [hs', ht'] at h₃ h₄ <;> try simp_all
    obtain ⟨h₅, h₆⟩ := walkWith_alike h n h₄
    rcases hs'' : walkWith get n s'' with ⟨_ | _ | _, s₃⟩ <;>
      rcases ht'' : walkWith get' n t'' with ⟨_ | _ | _, t₃⟩ <;>
      simp only [hs'', ht''] at h₅ h₆ <;> simp_all

/-- IN_LEN small enough that no bit position wraps (R5, R14). -/
def ShortInput (s : State) : Prop := s.inLen.toNat ≤ Config.capacityMax

theorem State.Ready.short {s : State} (h : s.Ready) : ShortInput s := by
  have := s.params.nMax.isLt
  have := h.1
  unfold ShortInput
  omega

/-- The machine's reader and the list of its stream bits answer alike. -/
theorem getBit_alike : Alike listBit getBit (fun l s => l = streamBits s ∧ ShortInput s) := by
  rintro l s ⟨rfl, hs⟩
  unfold ShortInput at hs
  rcases getBit_cases s with ⟨h₁, h₂⟩ | ⟨h₁, h₂⟩
  · have hn : streamBits s = [] := by simp [streamBits]; omega
    have hn' : streamBits (setEos s) = [] := by simp [streamBits]; omega
    rw [h₂, hn]
    exact ⟨rfl, hn'.symm, hs⟩
  · have hp : (s.brPos + 1).toNat = s.brPos.toNat + 1 := by
      have : (1 : Word).toNat = 1 := rfl
      simp only [BitVec.toNat_add, this]
      have : Config.capacityMax = 2 ^ 60 := rfl
      omega
    have hn : streamBits s = streamBit s s.brPos.toNat :: streamBits { s with brPos := s.brPos + 1 } := by
      have he : 8 * s.inLen.toNat - s.brPos.toNat = (8 * s.inLen.toNat - (s.brPos.toNat + 1)) + 1 := by
        omega
      simp only [streamBits, hp]
      rw [he, List.range_succ_eq_map]
      simp only [List.map_cons, List.map_map, Nat.add_zero]
      congr 1
      apply List.map_congr_left
      intro i _
      simp only [Function.comp_apply, Nat.succ_eq_add_one]
      rw [show s.brPos.toNat + (i + 1) = s.brPos.toNat + 1 + i by omega]
      rfl
    rw [h₂, hn]
    exact ⟨rfl, rfl, hs⟩

/-- Fetching a token at BR_POS is decoding the list of stream bits (R126, R352): the same token, or the
same reason for none, and the list left over is the stream from the new BR_POS. -/
theorem fetchToken_streamBits (n : Node) {s : State} (h : ShortInput s) :
    (readTokenWith listBit n (streamBits s)).1 = (fetchToken n s).1 ∧
      (readTokenWith listBit n (streamBits s)).2 = streamBits (fetchToken n s).2 ∧
      ShortInput (fetchToken n s).2 :=
  readTokenWith_alike getBit_alike n ⟨rfl, h⟩

end Sys2Proof.Machine
end

