-- ==== Sys2Proof/Laws/Huffman.lean ====
section
/-! SUPPORT. The tree builder's queue and loop, the tally, and what the table commands can do. -/

namespace Sys2Proof.Machine

theorem extractMin_length (a : QItem) (q : List QItem) : (extractMin a q).2.length = q.length := by
  induction q generalizing a with
  | nil => rfl
  | cons x q ih => simp only [extractMin]; split_ifs <;> simp [ih]

/-- ExtractMin keeps the elements. -/
theorem extractMin_perm (a : QItem) (q : List QItem) :
    ((extractMin a q).1 :: (extractMin a q).2).Perm (a :: q) := by
  induction q generalizing a with
  | nil => exact List.Perm.refl _
  | cons x q ih =>
    simp only [extractMin]
    split_ifs
    · exact (List.Perm.swap _ _ _).trans ((List.Perm.cons _ (ih x)))
    · exact (List.Perm.swap _ _ _).trans (((List.Perm.cons _ (ih a))).trans (List.Perm.swap _ _ _))

/-- The bound of the merge loop is never met: any bound of at least `q.length` gives the same tree. -/
theorem mergeLoop_fuel (k : Nat) (a : QItem) (q : List QItem) (c : Nat) (h : q.length ≤ k) :
    mergeLoop k a q c = mergeLoop q.length a q c := by
  induction k using Nat.strong_induction_on generalizing a q c with
  | _ k ih =>
    rcases q with _ | ⟨b, q⟩
    · cases k <;> rfl
    · rcases k with _ | k
      · simp at h
      · simp only [List.length_cons] at h ⊢
        simp only [mergeLoop]
        have hl := extractMin_length a (b :: q)
        rcases hm : extractMin a (b :: q) with ⟨m, _ | ⟨x, r⟩⟩
        · rfl
        · simp only [hm, List.length_cons] at hl
          have hl' := extractMin_length x r
          dsimp only
          split_ifs
          · rfl
          · rw [ih k (by omega) _ _ _ (by omega)]
            rcases Nat.lt_or_ge q.length (k + 1) with hq | hq
            · rcases Nat.lt_or_ge q.length k with hq' | hq'
              · rw [ih q.length (by omega) _ _ _ (by omega)]
              · obtain rfl : q.length = k := by omega
                rw [ih q.length (by omega) _ _ _ (by omega)]
            · omega

/-- All that Tally can do (R234): FT and TREE change only on success, and TREE is then NONE. -/
theorem tally_cases (v : Sym) (s : State) :
    (∃ c i, tally v s = .fault c i s ∧ (c = .freqOverflow ∨ c = .badState)) ∨
      (∃ l, tally v s = .ok () (setTable l s)) := by
  unfold tally
  split
  · split_ifs
    · exact .inl ⟨_, _, rfl, .inl rfl⟩
    · exact .inr ⟨_, rfl⟩
  · split_ifs
    · exact .inl ⟨_, _, rfl, .inr rfl⟩
    · exact .inr ⟨_, rfl⟩

/-- The fields the table operations may change: FT and TREE. -/
def SameButTable (s t : State) : Prop := t = { s with ft := t.ft, tree := t.tree }

theorem SameButTable.refl (s : State) : SameButTable s s := rfl

theorem SameButTable.trans {s t u : State} (h : SameButTable s t) (h' : SameButTable t u) :
    SameButTable s u := by
  unfold SameButTable at *
  rw [h'] at *
  rw [h]

theorem tally_same (v : Sym) (s : State) : (tally v s).Keeps (SameButTable s) := by
  rcases tally_cases v s with ⟨c, i, h, _⟩ | ⟨l, h⟩ <;> rw [h] <;> rfl

theorem tallyTokens_same (ts : List Token) (s : State) : (tallyTokens ts s).Keeps (SameButTable s) := by
  induction ts generalizing s with
  | nil => exact SameButTable.refl s
  | cons t ts ih =>
    cases t with
    | lit b => exact ih s
    | pair x len =>
      refine (tally_same len s).bind (fun _ h => h) fun a u hu => ?_
      have := ih u
      cases h : tallyTokens ts u <;> simp only [h, Res.Keeps] at this ⊢ <;> exact hu.trans this

theorem ftFromTokensBody_same (s : State) : (ftFromTokensBody s).Keeps (SameButTable s) := by
  unfold ftFromTokensBody
  refine ((tallyTokens_same s.tokbuf { s with ft := [] })).bind ?_ ?_
  · intro u hu; exact SameButTable.trans (t := { s with ft := [] }) rfl hu
  · intro a u hu
    exact SameButTable.trans (t := { s with ft := [] }) rfl (SameButTable.trans hu rfl)

/-- HT_BUILD writes TREE only on success (R261). -/
theorem htBuildBody_cases (s : State) :
    (∃ t, buildTree s.ft = some t ∧ htBuildBody s = .ok t { s with tree := some t }) ∨
      (buildTree s.ft = none ∧ htBuildBody s = .fault .freqOverflow 0xFFFFFFFFFFFFFFFF s) := by
  unfold htBuildBody
  cases h : buildTree s.ft with
  | some t => exact .inl ⟨t, rfl, rfl⟩
  | none => exact .inr ⟨rfl, rfl⟩

/-- The match finder's scan changes HEAD, PREV and TOKBUF only. -/
def SameButFinder (s t : State) : Prop :=
  t = { s with head := t.head, prev := t.prev, tokbuf := t.tokbuf }

theorem SameButFinder.refl (s : State) : SameButFinder s s := rfl

theorem SameButFinder.trans {s t u : State} (h : SameButFinder s t) (h' : SameButFinder t u) :
    SameButFinder s u := by
  unfold SameButFinder at *
  rw [h'] at *
  rw [h]

theorem insertPos_same (s : State) (p : Nat) : SameButFinder s (insertPos s p) := by
  unfold insertPos
  split_ifs <;> rfl

theorem deriveLoop_same (k p due : Nat) (s : State) : SameButFinder s (deriveLoop k p due s) := by
  induction k generalizing p due s with
  | zero => exact SameButFinder.refl s
  | succ k ih =>
    simp only [deriveLoop]
    split_ifs
    · exact SameButFinder.trans
        (SameButFinder.trans (t := { s with tokbuf := s.tokbuf ++ [tokenAt s p (search s p)] }) rfl
          (insertPos_same _ p)) (ih _ _ _)
    · exact SameButFinder.trans (insertPos_same s p) (ih _ _ _)

theorem tokDeriveBody_same (s : State) : SameButFinder s (tokDeriveBody s) :=
  SameButFinder.trans (t := { mfClearBody s with tokbuf := [] }) rfl (deriveLoop_same _ _ _ _)

end Sys2Proof.Machine
end

