-- ==== Sys2Proof/Laws/PerInstr.lean ====
section
/-! SUPPORT. The family `Form`, one lemma per constructor: the form of an instruction's encoding. A command is
one 64-bit word with bits 63:8 zero (R120); a token is a bit string of at least 9 bits (R125). -/

namespace Sys2Proof.Laws.Form

/-- Whatever tree it is encoded against, a command is a word below 256 and a token at least 9 bits. -/
def Statement (i : Instr) : Prop :=
  ∀ (tree : Node) (e : Encoding), encode tree i = some e →
    match e with
    | .word w => w.toNat < 256 ∧ i.isToken = false
    | .bits l => 9 ≤ l.length ∧ i.isToken = true

/-- Every command's word is its OP code, zero-extended. -/
theorem of_command {i : Instr} (hi : i.isToken = false)
    (he : ∀ tree, encode tree i = (encodeCommand i).map .word) : Statement i := by
  intro tree e h
  rw [he] at h
  simp only [encodeCommand, Option.map_map, Option.map_eq_some_iff] at h
  obtain ⟨op, -, rfl⟩ := h
  exact ⟨by simp only [BitVec.toNat_setWidth]; have := op.isLt; omega, hi⟩

theorem nop : Statement .nop := of_command rfl fun _ => rfl
theorem softReset : Statement .softReset := of_command rfl fun _ => rfl
theorem outReset : Statement .outReset := of_command rfl fun _ => rfl
theorem compress : Statement .compress := of_command rfl fun _ => rfl
theorem decompress : Statement .decompress := of_command rfl fun _ => rfl
theorem mfClear : Statement .mfClear := of_command rfl fun _ => rfl
theorem mfHash : Statement .mfHash := of_command rfl fun _ => rfl
theorem mfSearch : Statement .mfSearch := of_command rfl fun _ => rfl
theorem mfInsert : Statement .mfInsert := of_command rfl fun _ => rfl
theorem mfStep : Statement .mfStep := of_command rfl fun _ => rfl
theorem tokDerive : Statement .tokDerive := of_command rfl fun _ => rfl
theorem tokRead : Statement .tokRead := of_command rfl fun _ => rfl
theorem ftClear : Statement .ftClear := of_command rfl fun _ => rfl
theorem ftTally : Statement .ftTally := of_command rfl fun _ => rfl
theorem ftFromTokens : Statement .ftFromTokens := of_command rfl fun _ => rfl
theorem ftRead : Statement .ftRead := of_command rfl fun _ => rfl
theorem htBuild : Statement .htBuild := of_command rfl fun _ => rfl
theorem htCode : Statement .htCode := of_command rfl fun _ => rfl
theorem hdWalk : Statement .hdWalk := of_command rfl fun _ => rfl
theorem bwPutbits : Statement .bwPutbits := of_command rfl fun _ => rfl
theorem bwFlush : Statement .bwFlush := of_command rfl fun _ => rfl
theorem brGetbits : Statement .brGetbits := of_command rfl fun _ => rfl
theorem hdrWrite : Statement .hdrWrite := of_command rfl fun _ => rfl
theorem hdrRead : Statement .hdrRead := of_command rfl fun _ => rfl
theorem encLit : Statement .encLit := of_command rfl fun _ => rfl
theorem encMatch : Statement .encMatch := of_command rfl fun _ => rfl
theorem encTokens : Statement .encTokens := of_command rfl fun _ => rfl
theorem treLit : Statement .treLit := of_command rfl fun _ => rfl
theorem treCopy : Statement .treCopy := of_command rfl fun _ => rfl
theorem treStep : Statement .treStep := of_command rfl fun _ => rfl
theorem treRun : Statement .treRun := of_command rfl fun _ => rfl

theorem litTok (b : Byte) : Statement (.litTok b) := by
  rintro tree e h
  simp only [encode, encodeToken, Option.map_some, Option.some.injEq] at h
  subst h
  simp [Instr.isToken]

theorem matchTok (x : BitVec 15) (len : Sym) : Statement (.matchTok x len) := by
  rintro tree e h
  simp only [encode, encodeToken, Option.map_map, Option.map_eq_some_iff] at h
  obtain ⟨c, -, rfl⟩ := h
  simp [Instr.isToken]
  omega

end Sys2Proof.Laws.Form
end

