-- ==== Sys2Proof/Laws/Replay.lean ====
section
/-! SUPPORT. What the replay engine can do: a token read moves BR_POS forward, a replayed token writes
output only, and the run loop is the while loop of R355. -/

namespace Sys2Proof.Machine

theorem copyBytes_same (d k : Nat) (s : State) : (copyBytes d k s).Keeps (SameButOutput s) := by
  induction k generalizing s with
  | zero => exact SameButOutput.refl s
  | succ k ih => exact (outWrite_same _ s).same_bind fun _ u => ih u

theorem replayLit_same (b : Byte) (s : State) : (replayLit b s).Keeps (SameButOutput s) := by
  unfold replayLit
  split_ifs
  · exact SameButOutput.refl s
  · exact (outWrite_same _ s).same_bind fun _ u => SameButOutput.refl u

theorem replayMatch_same (x : BitVec 15) (len : Sym) (s : State) :
    (replayMatch x len s).Keeps (SameButOutput s) := by
  unfold replayMatch
  split_ifs
  · exact SameButOutput.refl s
  · exact SameButOutput.refl s
  · exact (copyBytes_same _ _ s).same_bind fun _ u => SameButOutput.refl u

theorem replayToken_same (t : Token) (s : State) : (replayToken t s).Keeps (SameButOutput s) := by
  cases t with
  | lit b => exact replayLit_same b s
  | pair x len => exact replayMatch_same x len s

/-- The fields a decode may change: the output fields, BR_POS, EOS and TRUNC. -/
def SameButDecode (s t : State) : Prop :=
  t = { s with outMem := t.outMem, ring := t.ring, outLen := t.outLen, bwAcc := t.bwAcc, bwCnt := t.bwCnt,
               brPos := t.brPos, status := { s.status with eos := t.status.eos, trunc := t.status.trunc } }

theorem SameButDecode.refl (s : State) : SameButDecode s s := rfl

theorem SameButDecode.trans {s t u : State} (h : SameButDecode s t) (h' : SameButDecode t u) :
    SameButDecode s u := by
  unfold SameButDecode at *
  rw [h'] at *
  rw [h]

theorem SameButOutput.decode {s t : State} (h : SameButOutput s t) : SameButDecode s t := by
  unfold SameButDecode
  rw [SameButOutput] at h
  rw [h]

theorem SameButReader.decode {s t : State} (h : SameButReader s t) : SameButDecode s t := by
  unfold SameButDecode
  rw [SameButReader] at h
  rw [h]

/-- All that StepToken can do (R352). -/
theorem stepToken_cases (n : Node) (s : State) :
    (∃ u, fetchToken n s = (.endOfStream, u) ∧ stepToken n s = .ok none u) ∨
    (∃ u, fetchToken n s = (.guardReached, u) ∧ stepToken n s = .fault .guardCode u.brPos u) ∨
    (∃ t u, fetchToken n s = (.token t, u) ∧
      stepToken n s = (replayToken t u).bind fun k v => .ok (some (tokenKind t, k)) v) := by
  unfold stepToken
  rcases h : fetchToken n s with ⟨t | _ | _, u⟩
  · exact .inr (.inr ⟨t, u, rfl, rfl⟩)
  · exact .inr (.inl ⟨u, rfl, rfl⟩)
  · exact .inl ⟨u, rfl, rfl⟩

theorem stepToken_same (n : Node) (s : State) : (stepToken n s).Keeps (SameButDecode s) := by
  have hf := fetchToken_same n s
  rcases stepToken_cases n s with ⟨u, h, h'⟩ | ⟨u, h, h'⟩ | ⟨t, u, h, h'⟩ <;> rw [h] at hf <;> rw [h']
  · exact hf.decode
  · exact hf.decode
  · refine (replayToken_same t u).bind (Q := SameButDecode s) ?_ ?_
    · intro v hv; exact hf.decode.trans hv.decode
    · intro k v hv; exact hf.decode.trans hv.decode

theorem treRunLoop_same (n : Node) (k : Nat) (s : State) : (treRunLoop n k s).Keeps (SameButDecode s) := by
  induction k generalizing s with
  | zero => exact SameButDecode.refl s
  | succ k ih =>
    simp only [treRunLoop]
    split_ifs
    · refine (stepToken_same n s).bind (Q := SameButDecode s) (fun _ h => h) ?_
      intro r u hu
      cases r with
      | none => exact hu.trans rfl
      | some e =>
        have := ih u
        cases h : treRunLoop n k u <;> simp only [h, Res.Keeps] at this ⊢ <;> exact hu.trans this
    · exact SameButDecode.refl s

/-! ## The run loop terminates by itself -/

/-- Reading moves BR_POS forward only, within an input short enough not to wrap. -/
def Forward (s t : State) : Prop :=
  ShortInput s → t.inLen = s.inLen ∧ s.brPos.toNat ≤ t.brPos.toNat ∧ ShortInput t

theorem Forward.refl (s : State) : Forward s s := fun h => ⟨rfl, le_refl _, h⟩

theorem Forward.trans {s t u : State} (h : Forward s t) (h' : Forward t u) : Forward s u := by
  intro hs
  obtain ⟨h₁, h₂, h₃⟩ := h hs
  obtain ⟨h₄, h₅, h₆⟩ := h' h₃
  exact ⟨h₄.trans h₁, h₂.trans h₅, h₆⟩

theorem brPos_succ {s : State} (hs : ShortInput s) (h : s.brPos.toNat < 8 * s.inLen.toNat) :
    (s.brPos + 1).toNat = s.brPos.toNat + 1 := by
  unfold ShortInput at hs
  have h1 : (1 : Word).toNat = 1 := rfl
  have : Config.capacityMax = 2 ^ 60 := rfl
  simp only [BitVec.toNat_add, h1]
  omega

theorem getBit_forward (s : State) : Forward s (getBit s).2 := by
  intro hs
  rcases getBit_cases s with ⟨_, h⟩ | ⟨hlt, h⟩ <;> rw [h]
  · exact ⟨rfl, le_refl _, hs⟩
  · exact ⟨rfl, by dsimp only; rw [brPos_succ hs hlt]; omega, hs⟩

/-- A token read whole leaves fewer bits. -/
theorem fetchToken_bitsLeft {n : Node} {s u : State} {t : Token} (hs : ShortInput s)
    (h : fetchToken n s = (.token t, u)) : bitsLeft u < bitsLeft s ∧ ShortInput u := by
  rcases getBit_cases s with ⟨_, hg⟩ | ⟨hlt, hg⟩
  · simp [fetchToken, readTokenWith, hg] at h
  · have hp := brPos_succ hs hlt
    have key : Forward { s with brPos := s.brPos + 1 } u := by
      cases hb : streamBit s s.brPos.toNat <;> rw [hb] at hg <;>
        simp only [fetchToken, readTokenWith, hg] at h
      · have h₁ := readBitsWith_rel Forward.refl Forward.trans getBit_forward Config.litBits 0
          { s with brPos := s.brPos + 1 }
        split at h <;> rename_i h' <;> rw [h'] at h₁
        · simp at h
        · obtain ⟨-, rfl⟩ := Prod.mk.inj h; exact h₁
      · have h₁ := readBitsWith_rel Forward.refl Forward.trans getBit_forward Config.distBits 0
          { s with brPos := s.brPos + 1 }
        split at h
        · simp at h
        · rename_i x s₂ h'
          rw [h'] at h₁
          have h₂ := walkWith_rel Forward.refl Forward.trans getBit_forward n s₂
          split at h <;> rename_i h'' <;> rw [h''] at h₂
          · simp at h
          · simp at h
          · obtain ⟨-, rfl⟩ := Prod.mk.inj h; exact h₁.trans h₂
    obtain ⟨h₁, h₂, h₃⟩ := key hs
    refine ⟨?_, h₃⟩
    dsimp only at h₁ h₂
    simp only [bitsLeft, h₁]
    omega

theorem bitsLeft_of_output {s t : State} (h : SameButOutput s t) : bitsLeft t = bitsLeft s := by
  rw [SameButOutput] at h; rw [h]; rfl

theorem ShortInput.of_output {s t : State} (hs : ShortInput s) (h : SameButOutput s t) : ShortInput t := by
  rw [SameButOutput] at h; rw [h]; exact hs

/-- The bound of the run loop is never met: any bound of at least the bits left and 2 gives the same run. -/
theorem treRunLoop_fuel (n : Node) (k : Nat) {s : State} (hs : ShortInput s) (hk : bitsLeft s + 2 ≤ k) :
    treRunLoop n k s = treRunLoop n (bitsLeft s + 2) s := by
  induction k using Nat.strong_induction_on generalizing s with
  | _ k ih =>
    obtain ⟨k, rfl⟩ : ∃ j, k = j + 1 := ⟨k - 1, by omega⟩
    conv_lhs => rw [treRunLoop]
    conv_rhs => rw [treRunLoop]
    split_ifs
    · rcases stepToken_cases n s with ⟨u, h, h'⟩ | ⟨u, h, h'⟩ | ⟨t, u, h, h'⟩ <;> rw [h']
      · rfl
      · rfl
      · obtain ⟨hb, hu⟩ := fetchToken_bitsLeft hs h
        have hsame := replayToken_same t u
        cases hr : replayToken t u with
        | fault c i v => rfl
        | ok e v =>
          rw [hr] at hsame
          have hv := bitsLeft_of_output hsame
          have hsv := hu.of_output hsame
          simp only [Res.bind_ok]
          rw [ih k (by omega) hsv (by omega)]
          rcases Nat.lt_or_ge (bitsLeft s + 1) (k + 1) with hlt | hge
          · rw [ih (bitsLeft s + 1) (by omega) hsv (by omega)]
          · omega
    · rfl

/-- R355's loop: one turn of the while. -/
theorem treRunLoop_turn (n : Node) {s : State} (hs : ShortInput s) :
    treRunLoop n (bitsLeft s + 2) s =
      if s.outLen.toNat < s.origLen.toNat then
        (stepToken n s).bind fun r u =>
          match r with
          | none => .ok true (setTrunc u)
          | some _ => treRunLoop n (bitsLeft u + 2) u
      else .ok false s := by
  conv_lhs => rw [treRunLoop]
  split_ifs
  · rcases stepToken_cases n s with ⟨u, h, h'⟩ | ⟨u, h, h'⟩ | ⟨t, u, h, h'⟩ <;> rw [h']
    · rfl
    · rfl
    · obtain ⟨hb, hu⟩ := fetchToken_bitsLeft hs h
      have hsame := replayToken_same t u
      cases hr : replayToken t u with
      | fault c i v => rfl
      | ok e v =>
        rw [hr] at hsame
        have hv := bitsLeft_of_output hsame
        simp only [Res.bind_ok]
        exact treRunLoop_fuel n _ (hu.of_output hsame) (by omega)
  · rfl

end Sys2Proof.Machine
end

