-- ==== Sys2Proof/Laws/Step.lean ====
section
/-! SUPPORT. What the host's moves and the step can do, each said once: command submission (R402), the reset
input (R440), one host move, and one step. -/

namespace Sys2Proof.Machine

/-! ## hostWriteOut: one lemma per field -/

@[simp] theorem hostWriteOut_params (a : Nat) (b : Byte) (s : State) : (hostWriteOut a b s).params = s.params := rfl
@[simp] theorem hostWriteOut_pending (a : Nat) (b : Byte) (s : State) : (hostWriteOut a b s).pending = s.pending := rfl
@[simp] theorem hostWriteOut_hostData (a : Nat) (b : Byte) (s : State) : (hostWriteOut a b s).hostData = s.hostData := rfl
@[simp] theorem hostWriteOut_draws (a : Nat) (b : Byte) (s : State) : (hostWriteOut a b s).draws = s.draws + 1 := rfl
@[simp] theorem hostWriteOut_resets (a : Nat) (b : Byte) (s : State) : (hostWriteOut a b s).resets = s.resets := rfl
@[simp] theorem hostWriteOut_rst (a : Nat) (b : Byte) (s : State) : (hostWriteOut a b s).rst = s.rst := rfl
@[simp] theorem hostWriteOut_status (a : Nat) (b : Byte) (s : State) : (hostWriteOut a b s).status = s.status := rfl
@[simp] theorem hostWriteOut_ie (a : Nat) (b : Byte) (s : State) : (hostWriteOut a b s).ie = s.ie := rfl
@[simp] theorem hostWriteOut_inLen (a : Nat) (b : Byte) (s : State) : (hostWriteOut a b s).inLen = s.inLen := rfl
@[simp] theorem hostWriteOut_outCap (a : Nat) (b : Byte) (s : State) : (hostWriteOut a b s).outCap = s.outCap := rfl
@[simp] theorem hostWriteOut_outLen (a : Nat) (b : Byte) (s : State) : (hostWriteOut a b s).outLen = s.outLen := rfl
@[simp] theorem hostWriteOut_arg0 (a : Nat) (b : Byte) (s : State) : (hostWriteOut a b s).arg0 = s.arg0 := rfl
@[simp] theorem hostWriteOut_arg1 (a : Nat) (b : Byte) (s : State) : (hostWriteOut a b s).arg1 = s.arg1 := rfl
@[simp] theorem hostWriteOut_res0 (a : Nat) (b : Byte) (s : State) : (hostWriteOut a b s).res0 = s.res0 := rfl
@[simp] theorem hostWriteOut_res1 (a : Nat) (b : Byte) (s : State) : (hostWriteOut a b s).res1 = s.res1 := rfl
@[simp] theorem hostWriteOut_finfo (a : Nat) (b : Byte) (s : State) : (hostWriteOut a b s).finfo = s.finfo := rfl
@[simp] theorem hostWriteOut_brPos (a : Nat) (b : Byte) (s : State) : (hostWriteOut a b s).brPos = s.brPos := rfl
@[simp] theorem hostWriteOut_origLen (a : Nat) (b : Byte) (s : State) : (hostWriteOut a b s).origLen = s.origLen := rfl
@[simp] theorem hostWriteOut_bwAcc (a : Nat) (b : Byte) (s : State) : (hostWriteOut a b s).bwAcc = s.bwAcc := rfl
@[simp] theorem hostWriteOut_bwCnt (a : Nat) (b : Byte) (s : State) : (hostWriteOut a b s).bwCnt = s.bwCnt := rfl
@[simp] theorem hostWriteOut_head (a : Nat) (b : Byte) (s : State) : (hostWriteOut a b s).head = s.head := rfl
@[simp] theorem hostWriteOut_prev (a : Nat) (b : Byte) (s : State) : (hostWriteOut a b s).prev = s.prev := rfl
@[simp] theorem hostWriteOut_tokbuf (a : Nat) (b : Byte) (s : State) : (hostWriteOut a b s).tokbuf = s.tokbuf := rfl
@[simp] theorem hostWriteOut_ft (a : Nat) (b : Byte) (s : State) : (hostWriteOut a b s).ft = s.ft := rfl
@[simp] theorem hostWriteOut_tree (a : Nat) (b : Byte) (s : State) : (hostWriteOut a b s).tree = s.tree := rfl
@[simp] theorem hostWriteOut_ring (a : Nat) (b : Byte) (s : State) : (hostWriteOut a b s).ring = s.ring := rfl
@[simp] theorem hostWriteOut_inMem (a : Nat) (b : Byte) (s : State) : (hostWriteOut a b s).inMem = s.inMem := rfl
@[simp] theorem hostWriteOut_outMem (a : Nat) (b : Byte) (s : State) : (hostWriteOut a b s).outMem =
    Sparse.set s.outMem a (Config.hostOutByte s.draws b) := rfl

@[simp] theorem step_idle {s : State} (h : s.pending = []) : step s = .next s := by simp [step, h]

theorem step_move {s : State} {op : HostOp} {ops : List HostOp} (h : s.pending = op :: ops) :
    step s = hostMove op { s with pending := ops } := by simp [step, h]

/-- R402: a submitted word is ignored with IGN, runs as its command, or faults ILLEGAL_CMD. -/
theorem onCmdWrite_cases (w : Word) (s : State) :
    ((s.status.busy = true ∨ (w ≠ 0 ∧ w ≠ 1 ∧ s.status.fault = true)) ∧
      onCmdWrite w s = .next (setIgn s)) ∨
    (s.status.busy = false ∧ (w = 0 ∨ w = 1 ∨ s.status.fault = false) ∧
      ((∃ i, decodeCommand w = .ok i ∧ onCmdWrite w s = exec i (accept s)) ∨
        (∃ e, decodeCommand w = .error e ∧
          onCmdWrite w s = .next (takeFault .illegalCmd w (accept s))))) := by
  by_cases hb : s.status.busy = true
  · exact .inl ⟨.inl hb, by simp [onCmdWrite, hb]⟩
  · by_cases hl : w ≠ 0 ∧ w ≠ 1 ∧ s.status.fault = true
    · exact .inl ⟨.inr hl, by rw [onCmdWrite, if_neg hb, if_pos hl]⟩
    · refine .inr ⟨by simpa using hb, ?_, ?_⟩
      · by_contra hn
        push Not at hn
        exact hl ⟨hn.1, hn.2.1, by simpa using hn.2.2⟩
      · have ho : onCmdWrite w s = executeWord w (accept s) := by
          rw [onCmdWrite, if_neg hb, if_neg hl]
        cases hd : decodeCommand w with
        | ok i => exact .inl ⟨i, rfl, by simp [ho, executeWord, hd]⟩
        | error e => exact .inr ⟨e, rfl, by simp [ho, executeWord, hd]⟩

/-- A register read outside a command, and of STATUS always, gives the register's value and changes nothing else. -/
theorem hostRead_eq {r : Reg} {s : State} (h : r = .status ∨ s.status.busy = false) :
    hostRead r s = { s with hostData := readReg s r } := by
  rcases h with rfl | h
  · simp [hostRead]
  · simp [hostRead, h]

/-- A host access to IN that goes on, and when. -/
theorem hostIn_next {a : Nat} {s t u : State} (h : hostIn a s t = .next u) :
    s.status.busy = false ∧ a < s.params.nMax.val ∧ u = t := by
  simp only [hostIn] at h
  split_ifs at h with hb ha
  cases h
  exact ⟨by simpa using hb, by omega, rfl⟩

/-- A host access to OUT that goes on, and when. -/
theorem hostOut_next {a : Nat} {s t u : State} (h : hostOut a s t = .next u) :
    s.status.busy = false ∧ a < s.params.outMax.val ∧ u = t := by
  simp only [hostOut] at h
  split_ifs at h with hb ha
  cases h
  exact ⟨by simpa using hb, by omega, rfl⟩

/-- What the host reads of OUT after its own write: a free value there, every other byte as before. -/
theorem outByte_hostWriteOut (a x : Nat) (b : Byte) (s : State) :
    outByte (hostWriteOut a b s) x = if x = a then Config.hostOutByte s.draws b else outByte s x := by
  unfold outByte hostWriteOut
  rw [Sparse.get?_set]
  split_ifs <;> rfl

/-- R440: driving RST does nothing, or resets the state. -/
theorem driveRst_cases (level : Bool) (s : State) :
    (level = false ∧ s.rst = false ∧ driveRst level s = s) ∨
      ((level = true ∨ s.rst = true) ∧ driveRst level s = hardReset level s) := by
  cases level <;> cases h : s.rst <;> simp [driveRst, h]

/-- Everything a host move that goes on can do. -/
theorem hostMove_next {op : HostOp} {s t : State} (h : hostMove op s = .next t) :
    (∃ w, op = .wr .cmd w ∧ s.rst = false ∧ onCmdWrite w s = .next t) ∨
    (∃ r v, op = .wr r v ∧ s.rst = true ∧ t = s) ∨
    (∃ r v, op = .wr r v ∧ r ≠ .cmd ∧ s.rst = false ∧ s.status.busy = true ∧ t = setIgn s) ∨
    (∃ r v, op = .wr r v ∧ r ≠ .cmd ∧ s.rst = false ∧ s.status.busy = false ∧ t = writeReg v s r) ∨
    (∃ r, op = .rd r ∧ t = hostRead r s) ∨
    (∃ a b, op = .inWr a b ∧ s.status.busy = false ∧ a < s.params.nMax.val ∧
      t = { s with inMem := Sparse.set s.inMem a b }) ∨
    (∃ a, op = .inRd a ∧ s.status.busy = false ∧ a < s.params.nMax.val ∧
      t = { s with hostData := (inByte s a).setWidth 64 }) ∨
    (∃ a b, op = .outWr a b ∧ s.status.busy = false ∧ a < s.params.outMax.val ∧
      t = hostWriteOut a b s) ∨
    (∃ a, op = .outRd a ∧ s.status.busy = false ∧ a < s.params.outMax.val ∧
      t = { s with hostData := (outByte s a).setWidth 64 }) ∨
    (∃ level, op = .rst level ∧ t = driveRst level s) := by
  cases op with
  | wr r v =>
    simp only [hostMove, hostWrite] at h
    by_cases hr : s.rst = true
    · rw [if_pos hr] at h
      cases h
      exact .inr (.inl ⟨r, v, rfl, hr, rfl⟩)
    · have hr' : s.rst = false := by simpa using hr
      rw [if_neg hr] at h
      by_cases hc : r = .cmd
      · subst hc
        exact .inl ⟨v, rfl, hr', h⟩
      · have h' : (if s.status.busy = true then Host.Outcome.next (setIgn s) else .next (writeReg v s r)) =
            (Host.Outcome.next t : Host.Outcome State Fault Refusal) := by
          cases r <;> first | exact absurd rfl hc | exact h
        by_cases hb : s.status.busy = true
        · rw [if_pos hb] at h'
          cases h'
          exact .inr (.inr (.inl ⟨r, v, rfl, hc, hr', hb, rfl⟩))
        · rw [if_neg hb] at h'
          cases h'
          exact .inr (.inr (.inr (.inl ⟨r, v, rfl, hc, hr', by simpa using hb, rfl⟩)))
  | rd r =>
    cases h
    exact .inr (.inr (.inr (.inr (.inl ⟨r, rfl, rfl⟩))))
  | inWr a b =>
    obtain ⟨hb, ha, rfl⟩ := hostIn_next h
    exact .inr (.inr (.inr (.inr (.inr (.inl ⟨a, b, rfl, hb, ha, rfl⟩)))))
  | inRd a =>
    obtain ⟨hb, ha, rfl⟩ := hostIn_next h
    exact .inr (.inr (.inr (.inr (.inr (.inr (.inl ⟨a, rfl, hb, ha, rfl⟩))))))
  | outWr a b =>
    obtain ⟨hb, ha, rfl⟩ := hostOut_next h
    exact .inr (.inr (.inr (.inr (.inr (.inr (.inr (.inl ⟨a, b, rfl, hb, ha, rfl⟩)))))))
  | outRd a =>
    obtain ⟨hb, ha, rfl⟩ := hostOut_next h
    exact .inr (.inr (.inr (.inr (.inr (.inr (.inr (.inr (.inl ⟨a, rfl, hb, ha, rfl⟩))))))))
  | rst level =>
    cases h
    exact .inr (.inr (.inr (.inr (.inr (.inr (.inr (.inr (.inr ⟨level, rfl, rfl⟩))))))))

/-- Everything a step that goes on can do: nothing, or the next host move. -/
theorem step_next {s t : State} (h : step s = .next t) :
    (s.pending = [] ∧ t = s) ∨
      ∃ op ops, s.pending = op :: ops ∧ hostMove op { s with pending := ops } = .next t := by
  cases hp : s.pending with
  | nil =>
    rw [step_idle hp] at h
    cases h
    exact .inl ⟨rfl, rfl⟩
  | cons op ops => exact .inr ⟨op, ops, rfl, (step_move hp).symm.trans h⟩

end Sys2Proof.Machine
end

