-- ==== Sys2Proof/Tests/Slice0.lean ====
section
/-! SUPPORT. The model's own tests: ill-formed terms, decoding of words written out from the encodings, one step
per instruction against the vectors of 95_test_vectors.md (their ids stand beside each test), and for every
obligation with hypotheses a witness that meets them. -/

namespace Sys2Proof.Tests

open Sys2Proof.Machine

/-! ## Helpers -/

/-- A memory holding these bytes from index 0. -/
def bytes (l : List Nat) : Memory := Sparse.setAll [] 0 (l.map (BitVec.ofNat 8))

/-- The reset state with IN, IN_LEN and OUT_CAP set. -/
def st (inp : List Nat) (cap : Nat) : State :=
  { State.reset with inMem := bytes inp, inLen := BitVec.ofNat 64 inp.length, outCap := BitVec.ofNat 64 cap }

/-- A state that has output these bytes, in OUT and RING. -/
def outSt (out : List Nat) (cap : Nat) : State :=
  { st [] cap with outMem := bytes out, ring := bytes out, outLen := BitVec.ofNat 64 out.length }

/-- The outcome is a next state of which `p` holds. -/
def after (o : Host.Outcome State Fault Refusal) (p : State → Bool) : Bool :=
  match o with
  | .next s => p s
  | .fault _ => false
  | .refused _ => false

/-- The next state of an outcome. -/
def nextOf (o : Host.Outcome State Fault Refusal) : State :=
  match o with
  | .next s => s
  | .fault _ => State.reset
  | .refused _ => State.reset

theorem eq_next_of_after {o : Host.Outcome State Fault Refusal} {p : State → Bool} (h : after o p = true) :
    o = .next (nextOf o) := by
  cases o <;> simp [after, nextOf] at h ⊢

/-- "abcabcabcabc" (V-C2). -/
def abc4 : List Nat := [0x61, 0x62, 0x63, 0x61, 0x62, 0x63, 0x61, 0x62, 0x63, 0x61, 0x62, 0x63]

/-- The container of "abcabcabcabc" (V-C2). -/
def abc4Container : List Nat :=
  [0x0C, 0, 0, 0, 0, 0, 0, 0, 1, 0, 9, 0, 1, 0, 0, 0, 0, 0, 0, 0, 0x30, 0x98, 0x8C, 0x70, 0, 0x40]

/-- The tree of V-HT4b. -/
def tree9 : Node := .internal (.leaf 9) .guard 1

/-- The tree of V-HT1. -/
def treeHT1 : Node :=
  .internal (.leaf 3) (.internal (.leaf 5) (.internal (.leaf 9) (.leaf 4) 3) 5) 10

/-- The table of V-HT1. -/
def tableHT1 : List FtEntry := [⟨3, 5⟩, ⟨4, 2⟩, ⟨5, 2⟩, ⟨9, 1⟩]

/-- Three positions inserted over "abcabcabcabc" (V-MF1). -/
def mfState : State := insertPos (insertPos (insertPos (st abc4 64) 0) 1) 2

/-! ## Ill-formed terms -/

theorem test_wf_refuses_match_without_leaf : (Instr.matchTok 0 4).wf placeholderTree = false := by decide
theorem test_wf_refuses_match_in_guard : (Instr.matchTok 0 3).wf .guard = false := by decide
theorem test_wf_refuses_short_match_token : (Token.pair 0 2).wf = false := by decide
theorem test_wf_takes_shortest_match_token : (Token.pair 0x7FFF 3).wf = true := by decide
theorem test_encode_refuses_ill_formed : encode placeholderTree (.matchTok 0 4) = none := by decide
theorem test_root_check_refuses_leaf : (Node.leaf 3).isInternal = false := by decide
theorem test_root_check_refuses_guard : Node.guard.isInternal = false := by decide
theorem test_has_sym_refuses_absent : treeHT1.hasSym 7 = false := by decide

/-! ## Decoding: words written out from R122, bits from R125 -/

theorem test_decode_housekeeping : decodeCommand 0x00 = .ok .nop ∧ decodeCommand 0x01 = .ok .softReset ∧
    decodeCommand 0x02 = .ok .outReset ∧ decodeCommand 0x10 = .ok .compress ∧
    decodeCommand 0x11 = .ok .decompress := by decide

theorem test_decode_finder : decodeCommand 0x20 = .ok .mfClear ∧ decodeCommand 0x21 = .ok .mfHash ∧
    decodeCommand 0x22 = .ok .mfSearch ∧ decodeCommand 0x23 = .ok .mfInsert ∧
    decodeCommand 0x24 = .ok .mfStep := by decide

theorem test_decode_tokens : decodeCommand 0x28 = .ok .tokDerive ∧ decodeCommand 0x29 = .ok .tokRead ∧
    decodeCommand 0x2A = .ok .ftClear ∧ decodeCommand 0x2B = .ok .ftTally ∧
    decodeCommand 0x2C = .ok .ftFromTokens ∧ decodeCommand 0x2D = .ok .ftRead := by decide

theorem test_decode_huffman : decodeCommand 0x30 = .ok .htBuild ∧ decodeCommand 0x31 = .ok .htCode ∧
    decodeCommand 0x32 = .ok .hdWalk := by decide

theorem test_decode_bits : decodeCommand 0x38 = .ok .bwPutbits ∧ decodeCommand 0x39 = .ok .bwFlush ∧
    decodeCommand 0x3A = .ok .brGetbits := by decide

theorem test_decode_container : decodeCommand 0x40 = .ok .hdrWrite ∧ decodeCommand 0x41 = .ok .hdrRead ∧
    decodeCommand 0x48 = .ok .encLit ∧ decodeCommand 0x49 = .ok .encMatch ∧
    decodeCommand 0x4A = .ok .encTokens := by decide

theorem test_decode_replay : decodeCommand 0x50 = .ok .treLit ∧ decodeCommand 0x51 = .ok .treCopy ∧
    decodeCommand 0x52 = .ok .treStep ∧ decodeCommand 0x53 = .ok .treRun := by decide

theorem test_decode_rejects : decodeCommand 0x03 = .error .unassignedOp ∧
    decodeCommand 0xFF = .error .unassignedOp ∧ decodeCommand 0x100 = .error .reservedNotZero ∧
    decodeCommand 0x8000000000000000 = .error .reservedNotZero := by decide

/-- V-C2: `0 01100001`. -/
theorem test_decode_lit : decode tree9 (.bits [false, false, true, true, false, false, false, false, true]) =
    .ok (.litTok 0x61) := by decide

/-- V-C2: `1 000000000000010 0` is d = 3, L = 9. -/
theorem test_decode_match : decode tree9 (.bits [true, false, false, false, false, false, false, false, false,
    false, false, false, false, false, true, false, false]) = .ok (.matchTok 2 9) := by decide

/-- R322: d = 32768 gives the field 0x7FFF. -/
theorem test_decode_farthest : decode tree9 (.bits [true, true, true, true, true, true, true, true, true, true,
    true, true, true, true, true, true, false]) = .ok (.matchTok 0x7FFF 9) := by decide

/-- V-F2: the code bit `1` of a one-entry tree. -/
theorem test_decode_guard : decode tree9 (.bits [true, false, false, false, false, false, false, false, false,
    false, false, false, false, false, false, false, true]) = .error .guardCode := by decide

theorem test_decode_cut : decode tree9 (.bits [false, true]) = .error .streamEnds ∧
    decode tree9 (.bits []) = .error .streamEnds := by decide

/-- Bit 0 of the word is the flag: 0x86 is `0 11000010` read from bit 0 upwards, the literal 0xC2. -/
theorem test_table_word_lit : decodeTableWord 16 0x86 = some (.litTok 0xC2) := by decide
/-- Bits 15 and 0 set: the flag, and x0, the last distance bit. -/
theorem test_table_word_match : decodeTableWord 16 0x8001 = some (.matchTok 1 3) := by decide
theorem test_table_word_command : decodeTableWord 64 0x53 = some .treRun ∧ decodeTableWord 64 0x54 = none := by
  decide

/-- A word placed by `withFetchWord` runs: MF_CLEAR completes from reset. -/
theorem test_fetch_command : after (step (State.reset.withFetchWord 64 0x20))
    (fun s => s.status.done && !s.status.fault) = true := by decide
/-- A token placed by `withFetchWord` runs: from reset ORIG_LEN is 0, so it faults LENGTH_OVERRUN (R350). -/
theorem test_fetch_token : after (step (State.reset.withFetchWord 16 0x86))
    (fun s => s.status.fcode == 0x0E && s.brPos == 9) = true := by decide

/-! ## One step per instruction -/

/-- R380's example: after a clean reset STATUS = 2. -/
theorem test_nop : after (step { State.reset with pending := [.wr .cmd 0] })
    (fun s => s.status.word == 2) = true := by decide
/-- R381's example, from the state P3's DIST_OOB leaves. -/
theorem test_soft_reset : after (step { outSt [0x61] 16 with
      pending := [.wr .cmd 1], finfo := 2, status := { Status.clear with fault := true, fcode := 0x0D } })
    (fun s => s.status.word == 0 && s.finfo == 0 && s.outLen == 0 && outByte s 0 == 0x61) = true := by decide
/-- R290's corner cases: pending bits are discarded, OUT is unchanged. -/
theorem test_out_reset : after (exec .outReset { outSt [0x61] 16 with bwAcc := 1, bwCnt := 1 })
    (fun s => s.outLen == 0 && bwState s == 0 && outByte s 0 == 0x61) = true := by decide
/-- V-C2 and P1. -/
theorem test_compress : after (exec .compress (st abc4 64)) (fun s =>
    s.outMem == bytes abc4Container && s.res0 == 26 && s.res1 == 4 && s.origLen == 12 &&
      tblInfo s == 0x10001) = true := by decide +kernel
/-- V-F10. -/
theorem test_compress_overflow : after (exec .compress (st [0x61, 0x62, 0x63] 0)) (fun s =>
    s.status.word == 0x604 && s.finfo == 0 && tblInfo s == 0x10001 && s.outLen == 0) = true := by decide +kernel
/-- V-C2. -/
theorem test_decompress : after (exec .decompress (st abc4Container 64)) (fun s =>
    s.outMem == bytes abc4 && s.res0 == 12 && s.res1 == 0 && s.brPos == 204 &&
      s.status.word == 2) = true := by decide +kernel
/-- V-R8 and P4: the container without its last byte. -/
theorem test_decompress_truncated : after (exec .decompress { st abc4Container 64 with inLen := 25 }) (fun s =>
    s.outLen == 3 && s.res1 == 1 && s.brPos == 200 && s.status.word == 0x1A) = true := by decide +kernel
/-- V-MF2c. -/
theorem test_mf_clear : after (exec .mfClear mfState) (fun s => search s 3 == (0, 0)) = true := by decide
/-- V-H1. -/
theorem test_mf_hash : after (exec .mfHash (st abc4 64)) (fun s => s.res0 == 0x6743) = true := by decide
/-- V-H9. -/
theorem test_mf_hash_tail : after (exec .mfHash { st abc4 64 with arg0 := 10 })
    (fun s => s.status.word == 0x404 && s.finfo == 0) = true := by decide
/-- V-MF1. -/
theorem test_mf_search : after (exec .mfSearch { mfState with arg0 := 3 })
    (fun s => s.res0 == 3 && s.res1 == 9) = true := by decide
/-- V-MF2d. -/
theorem test_mf_search_past_end : after (exec .mfSearch { mfState with arg0 := 12 })
    (fun s => s.status.word == 0x404) = true := by decide
/-- R203 and R210: the hash of "abc" is 0x6743. -/
theorem test_mf_insert : after (exec .mfInsert { mfState with arg0 := 3 })
    (fun s => headAt s 0x6743 == some 3 && prevAt s 3 == some 0) = true := by decide
/-- R210's example: "abcab", ARG0 = 3 changes nothing. -/
theorem test_mf_insert_tail : after (exec .mfInsert { st [0x61, 0x62, 0x63, 0x61, 0x62] 0 with arg0 := 3 })
    (fun s => s.head == [] && s.status.done) = true := by decide
/-- V-MF8: position 0 is inserted. -/
theorem test_mf_step : after (exec .mfStep
    { insertPos (st [0x61, 0x61, 0x61, 0x61, 0x61, 0x61, 0x61, 0x61, 0x61, 0x61] 0) 0 with arg0 := 1 })
    (fun s => s.res0 == 1 && s.res1 == 9) = true := by decide
/-- V-T2. -/
theorem test_tok_derive : after (exec .tokDerive (st abc4 0)) (fun s =>
    s.tokbuf == [.lit 0x61, .lit 0x62, .lit 0x63, .pair 2 9] && s.res0 == 4) = true := by decide +kernel
/-- V-T8: the longer match wins over the nearer. -/
theorem test_tok_derive_longest : after (exec .tokDerive
    (st [0x61, 0x62, 0x63, 0x64, 0x61, 0x62, 0x63, 0x65, 0x61, 0x62, 0x63, 0x64] 0)) (fun s =>
    s.tokbuf == [.lit 0x61, .lit 0x62, .lit 0x63, .lit 0x64, .pair 3 3, .lit 0x65, .pair 7 4]) = true := by
  decide +kernel
/-- V-T10, index 3. -/
theorem test_tok_read : after (exec .tokRead
    { State.reset with tokbuf := [.lit 0x61, .lit 0x62, .lit 0x63, .pair 2 9], arg0 := 3 })
    (fun s => s.res0 == 1 && s.res1 == 0x0000000300000009) = true := by decide
/-- R235's example. -/
theorem test_ft_clear : after (exec .ftClear { State.reset with ft := tableHT1, tree := some treeHT1 })
    (fun s => tblInfo s == 0) = true := by decide
/-- V-FT1, its last tally. -/
theorem test_ft_tally : after (exec .ftTally { State.reset with ft := [⟨3, 1⟩, ⟨9, 1⟩], arg0 := 9 })
    (fun s => s.res0 == 2 && s.ft == [⟨3, 1⟩, ⟨9, 2⟩]) = true := by decide
/-- V-FT1, its second tally: symbol 3 goes before symbol 9, and TREE becomes NONE. -/
theorem test_ft_tally_inserts : after (exec .ftTally
    { State.reset with ft := [⟨9, 1⟩], tree := some tree9, arg0 := 3 })
    (fun s => s.res0 == 1 && s.ft == [⟨3, 1⟩, ⟨9, 1⟩] && s.tree == none) = true := by decide
/-- V-FT5. -/
theorem test_ft_from_tokens : after (exec .ftFromTokens
    { State.reset with tokbuf := [.lit 1, .pair 3 3, .lit 2, .pair 7 4] })
    (fun s => s.ft == [⟨3, 1⟩, ⟨4, 1⟩] && s.res0 == 2) = true := by decide
/-- V-FT4. -/
theorem test_ft_from_tokens_placeholder : after (exec .ftFromTokens { State.reset with tokbuf := [.lit 1] })
    (fun s => s.ft == [⟨3, 1⟩] && s.res0 == 1) = true := by decide
/-- V-FT2. -/
theorem test_ft_read : after (exec .ftRead { State.reset with ft := [⟨3, 1⟩, ⟨9, 2⟩], arg0 := 1 })
    (fun s => s.res0 == 9 && s.res1 == 2) = true := by decide
/-- V-HT1. -/
theorem test_ht_build : after (exec .htBuild { State.reset with ft := tableHT1 })
    (fun s => s.tree == some treeHT1 && s.res0 == 4) = true := by decide
/-- V-HT1's merges, as R260's loop makes them: 9 and 4, then 5 and that node, then 3 and that one. -/
theorem test_greedy : Greedy (initialQueue tableHT1) 4 (some treeHT1) := by
  refine .merge (a := ⟨.leaf 9, 1, 3⟩) (b := ⟨.leaf 4, 2, 1⟩) (r := [⟨.leaf 3, 5, 0⟩, ⟨.leaf 5, 2, 2⟩])
    (by decide) (by decide) (by decide) (by decide) ?_
  refine .merge (a := ⟨.leaf 5, 2, 2⟩) (b := ⟨.internal (.leaf 9) (.leaf 4) 3, 3, 4⟩) (r := [⟨.leaf 3, 5, 0⟩])
    (by decide) (by decide) (by decide) (by decide) ?_
  refine .merge (a := ⟨.leaf 3, 5, 0⟩)
    (b := ⟨.internal (.leaf 5) (.internal (.leaf 9) (.leaf 4) 3) 5, 5, 5⟩) (r := [])
    (by decide) (by decide) (by decide) (by decide) ?_
  exact .root ⟨treeHT1, 10, 6⟩ 7
/-- V-HT3: ties, and a merged node after every leaf. -/
theorem test_ht_build_ties : after (exec .htBuild { State.reset with ft := [⟨7, 0⟩, ⟨5, 0⟩, ⟨9, 0⟩] })
    (fun s => s.tree == some (.internal (.leaf 9) (.internal (.leaf 7) (.leaf 5) 0) 0)) = true := by decide
/-- V-HT1: 9 = `110`. -/
theorem test_ht_code : after (exec .htCode { State.reset with tree := some treeHT1, arg0 := 9 })
    (fun s => s.res0 == 3 && s.res1 == 6) = true := by decide
/-- V-HT7. -/
theorem test_ht_code_none : after (exec .htCode { State.reset with tree := some tree9, arg0 := 4 })
    (fun s => s.status.word == 0xA04 && s.finfo == 4) = true := by decide
/-- V-HT8. -/
theorem test_hd_walk : after (exec .hdWalk { st [0xC0] 0 with tree := some treeHT1 })
    (fun s => s.res0 == 9 && s.res1 == 0 && s.brPos == 3) = true := by decide
/-- V-HT9. -/
theorem test_hd_walk_end : after (exec .hdWalk { st [0xC0] 0 with tree := some treeHT1, brPos := 8 })
    (fun s => s.res0 == 0 && s.res1 == 1 && s.status.eos) = true := by decide
/-- V-BS1. -/
theorem test_bw_putbits : after (exec .bwPutbits { st [] 8 with arg0 := 9, arg1 := 0x061 })
    (fun s => outByte s 0 == 0x30 && s.outLen == 1 && bwState s == 0x101) = true := by decide
/-- V-BS8. -/
theorem test_bw_putbits_overflow : after (exec .bwPutbits { st [] 0 with arg0 := 8, arg1 := 0x41 })
    (fun s => s.status.fcode == 6 && s.finfo == 0 && bwState s == 0x720 && s.outLen == 0) = true := by decide
/-- V-BS2. -/
theorem test_bw_flush : after (exec .bwFlush { outSt [0x30] 8 with bwAcc := 1, bwCnt := 1 })
    (fun s => outByte s 1 == 0x80 && s.res0 == 7 && s.outLen == 2 && bwState s == 0) = true := by decide
/-- V-BS3. -/
theorem test_bw_flush_empty : after (exec .bwFlush { outSt [0x30, 0x80] 8 with res0 := 7 })
    (fun s => s.res0 == 0 && s.outLen == 2) = true := by decide
/-- V-BS6. -/
theorem test_br_getbits : after (exec .brGetbits { st [0xA5] 0 with arg0 := 3 })
    (fun s => s.res0 == 5 && s.res1 == 0 && s.brPos == 3) = true := by decide
/-- V-BS7. -/
theorem test_br_getbits_cut : after (exec .brGetbits { st [0xA5] 0 with arg0 := 6, brPos := 3 })
    (fun s => s.res0 == 0 && s.res1 == 1 && s.brPos == 8 && s.status.eos) = true := by decide
/-- V-EN1. -/
theorem test_hdr_write : after (exec .hdrWrite { st [] 64 with inLen := 12, ft := [⟨9, 1⟩] })
    (fun s => s.outMem == bytes (abc4Container.take 20) && s.res0 == 20) = true := by decide
/-- V-BS9. -/
theorem test_hdr_write_pending : after (exec .hdrWrite { st [] 64 with bwAcc := 7, bwCnt := 3 })
    (fun s => s.status.word == 0x504 && s.finfo == 3) = true := by decide
/-- V-HR1. -/
theorem test_hdr_read : after (exec .hdrRead (st abc4Container 0)) (fun s =>
    s.ft == [⟨9, 1⟩] && s.tree == none && s.origLen == 12 && s.brPos == 160 && s.res0 == 12 &&
      s.res1 == 1) = true := by decide
/-- V-HR4. -/
theorem test_hdr_read_short : after (exec .hdrRead (st
    [1, 0, 0, 0, 0, 0, 0, 0, 2, 0, 3, 0, 1, 0, 0, 0, 0, 0, 0, 0, 4, 0, 1, 0, 0] 0))
    (fun s => s.status.word == 0x704 && s.finfo == 25) = true := by decide
/-- V-EN2, the first literal at OUT_LEN = 20. -/
theorem test_enc_lit : after (exec .encLit { st [] 64 with outLen := 20, arg0 := 0x61 })
    (fun s => s.outLen == 21 && bwState s == 0x101 && outByte s 20 == 0x30) = true := by decide
/-- V-EN3: after three pending bits `011`, 17 more bits. -/
theorem test_enc_match : after (exec .encMatch { st [] 64 with
      outLen := 23, bwAcc := 3, bwCnt := 3, tree := some tree9, arg0 := 3, arg1 := 9 })
    (fun s => s.outLen == 25 && bwState s == 0x404 && outByte s 23 == 0x70 && outByte s 24 == 0) = true := by
  decide
/-- V-EN6. -/
theorem test_enc_match_none : after (exec .encMatch { st [] 64 with
      tree := some tree9, arg0 := 3, arg1 := 4 })
    (fun s => s.status.word == 0xA04 && s.finfo == 4 && bwState s == 0) = true := by decide
/-- V-EN9. -/
theorem test_enc_tokens : after (exec .encTokens { st [] 64 with
      tree := some tree9, tokbuf := [.lit 0x61, .lit 0x62, .lit 0x63, .pair 2 9] })
    (fun s => s.res0 == 44 && s.outLen == 5 && bwState s == 0x404) = true := by decide +kernel
/-- V-R1. -/
theorem test_tre_lit : after (exec .treLit { st [] 16 with arg0 := 0x61 })
    (fun s => s.outMem == bytes [0x61] && s.ring == bytes [0x61] && s.outLen == 1) = true := by decide
/-- V-R2. -/
theorem test_tre_copy : after (exec .treCopy { outSt [0x61, 0x62] 16 with arg0 := 2, arg1 := 4 })
    (fun s => s.outMem == bytes [0x61, 0x62, 0x61, 0x62, 0x61, 0x62] && s.outLen == 6) = true := by decide
/-- V-R4. -/
theorem test_tre_copy_oob : after (exec .treCopy { outSt [0x61] 16 with arg0 := 2 })
    (fun s => s.status.word == 0xD04 && s.finfo == 2) = true := by decide
/-- V-R6, the first token. -/
theorem test_tre_step : after (exec .treStep { st abc4Container 64 with
      tree := some tree9, brPos := 160, origLen := 12 })
    (fun s => s.res0 == 0 && s.res1 == 1 && s.brPos == 169 && outByte s 0 == 0x61) = true := by decide
/-- V-R6, the last token: RES0 = 1 and RES1 = 9, in RING as in OUT. -/
theorem test_tre_step_match : after (exec .treStep { outSt [0x61, 0x62, 0x63] 64 with
      inMem := bytes abc4Container, inLen := 26, tree := some tree9, brPos := 187, origLen := 12 })
    (fun s => s.res0 == 1 && s.res1 == 9 && s.brPos == 204 && s.outMem == bytes abc4 &&
      s.ring == bytes abc4) = true := by decide
/-- V-R7: four padding bits left, OUT_LEN = ORIG_LEN. -/
theorem test_tre_step_end : after (exec .treStep { st abc4Container 64 with
      tree := some tree9, brPos := 204, origLen := 12, outLen := 12 })
    (fun s => s.res0 == 2 && s.res1 == 0 && s.brPos == 208 && s.status.word == 0x12) = true := by decide
/-- R355's example. -/
theorem test_tre_run : after (exec .treRun { st abc4Container 64 with
      tree := some tree9, brPos := 160, origLen := 12 })
    (fun s => s.outMem == bytes abc4 && s.res0 == 12 && s.res1 == 0 && s.brPos == 204) = true := by
  decide +kernel
/-- R350: the byte 'b' after "a". -/
theorem test_lit_token : after (exec (.litTok 0x62) { outSt [0x61] 16 with origLen := 2 })
    (fun s => s.outMem == bytes [0x61, 0x62] && s.outLen == 2) = true := by decide
/-- V-R3 as a token: the overlapping copy of W5. -/
theorem test_match_token : after (exec (.matchTok 0 9) { outSt [0x61] 16 with origLen := 10 })
    (fun s => s.outMem == bytes [0x61, 0x61, 0x61, 0x61, 0x61, 0x61, 0x61, 0x61, 0x61, 0x61]) = true := by
  decide
/-- V-F3: LENGTH_OVERRUN. -/
theorem test_match_token_overrun : after (exec (.matchTok 0 3) { outSt [0x61] 64 with origLen := 2 })
    (fun s => s.status.word == 0xE04 && s.finfo == 3 && s.outLen == 1) = true := by decide

/-! ## The host's side -/

/-- V-F8. -/
theorem test_illegal_word : after (step { State.reset with pending := [.wr .cmd 0x100] })
    (fun s => s.status.word == 0x104 && s.finfo == 0x100) = true := by decide
/-- V-F9: N_MAX = 16, IN_LEN = 17. -/
theorem test_in_range : after (step { State.reset with
      params := ⟨16, 16, .default⟩, inLen := 17, pending := [.wr .cmd 0x20] })
    (fun s => s.status.word == 0x204 && s.finfo == 17) = true := by decide
/-- V-F11 and P3: the fault lock. -/
theorem test_fault_lock : after (step { State.reset with
      finfo := 2, status := { Status.clear with fault := true, fcode := 0x0D }, pending := [.wr .cmd 0x50] })
    (fun s => s.status.word == 0xD24 && s.finfo == 2 && s.outLen == 0) = true := by decide
/-- P3: `clr`. -/
theorem test_clr : after (step { State.reset with
      finfo := 2, status := { Status.clear with fault := true, ign := true, fcode := 0x0D }, pending := clrMoves })
    (fun s => s.status.word == 0 && s.finfo == 0) = true := by decide
/-- R28: CTRL keeps bit 0 only; R40: IRQ follows DONE. -/
theorem test_ctrl : after (step { State.reset with
      status := { Status.clear with done := true }, pending := [.wr .ctrl 0xFF] })
    (fun s => readReg s .ctrl == 1 && irq s) = true := by decide
/-- R24. -/
theorem test_id : after (step { State.reset with pending := [.rd .id] })
    (fun s => s.hostData == 0x4C5A484300000007) = true := by decide
/-- R22, R24, R25: ID, CMD and a reserved offset read the same under RST. -/
theorem test_reads_under_rst : (∀ r ∈ [Reg.id, .cmd, .reserved 3, .ctrl],
    after (step { State.reset with rst := true, hostData := 5, pending := [.rd r] })
      (fun s => s.hostData == if r = .id then 0x4C5A484300000007 else 0) = true) := by decide
/-- R440: a write under RST is ignored. -/
theorem test_rst_ignores : after (step { State.reset with rst := true, pending := [.wr .arg0 5] })
    (fun s => s.arg0 == 0 && !s.status.ign) = true := by decide
/-- R452, I7: a host write to OUT leaves RING alone, and does not fix what OUT reads as. -/
theorem test_host_out_write : step { outSt [0x61] 16 with pending := [.outWr 0 0x7A] } =
    .next { outSt [0x61] 16 with outMem := [(0, Config.hostOutByte 0 0x7A)], draws := 1 } := rfl
/-- R21: the offsets of the map. -/
theorem test_offsets : Reg.offset .tokCnt = 0x80 ∧ Reg.offset .brPos = 0x68 ∧ Reg.offset (.reserved 14) = 0xF8 := by
  decide

/-! ## Witnesses: concrete states that meet the hypotheses of each obligation, one per clause, at the boundary
values of the clauses. The name after `witness_` is the obligation's. -/

/-- A tree whose only code has `n` bits. -/
def chain : Nat → Node
  | 0 => .leaf 7
  | n + 1 => .internal (chain n) .guard 0

theorem witness_DecodeInvertsEncode : (Instr.matchTok 0x7FFF 3).wf placeholderTree = true ∧
    Instr.nop.wf placeholderTree = true ∧
    encodeToken placeholderTree (.lit 0xFF) = some [false, true, true, true, true, true, true, true, true] := by
  decide

theorem witness_OnlyAssignedWordsAreCommands :
    ({ State.reset with pending := [.wr .cmd 0x54] } : State).pending = [.wr .cmd 0x54] ∧
    State.reset.rst = false ∧ State.reset.status.busy = false ∧ State.reset.status.fault = false ∧
    (∀ i, decodeCommand 0x54 ≠ .ok i) ∧ (∀ i, decodeCommand 0x100 ≠ .ok i) ∧
    decodeCommand 0x53 = .ok .treRun := by
  have h : decodeCommand 0x54 = .error .unassignedOp := by decide
  have h' : decodeCommand 0x100 = .error .reservedNotZero := by decide
  refine ⟨rfl, rfl, rfl, rfl, ?_, ?_, by decide⟩
  · intro i e
    rw [h] at e
    cases e
  · intro i e
    rw [h'] at e
    cases e

/-- A core that a command finds busy, and one under the fault lock. -/
def busySt (op : HostOp) : State := { State.reset with
  pending := [op], status := { Status.clear with busy := true } }
def lockedSt (op : HostOp) : State := { State.reset with
  pending := [op], finfo := 2, status := { Status.clear with fault := true, fcode := 0x0D } }

theorem witness_StepRunsSubmittedCommand :
    ((busySt (.wr .cmd 0)).status.busy = true ∧ (busySt (.wr .cmd 0)).rst = false) ∧
    ((lockedSt (.wr .cmd 2)).status.busy = false ∧ (lockedSt (.wr .cmd 2)).status.fault = true ∧
      (2 : Word) ≠ 0 ∧ (2 : Word) ≠ 1) ∧
    ((lockedSt (.wr .cmd 1)).status.busy = false ∧ decodeCommand 1 = .ok .softReset) ∧
    (State.reset.status.fault = false ∧ decodeCommand 0x52 = .ok .treStep ∧
      decodeCommand 0x54 = .error .unassignedOp) := by decide

/-- A state at the stream of these bytes, with room for 16 bytes of output. -/
def streamSt (tree : Node) (b : List Nat) : State := { st b 16 with tree := some tree, origLen := 16 }

/-- BR_POS moved to `n`. -/
def atPos (s : State) (n : Nat) : State := { s with brPos := BitVec.ofNat 64 n }

theorem witness_TreStepRunsDecodedToken :
    (streamSt tree9 [0x30, 0x80]).Ready ∧
    (decodeToken tree9 (streamBits (streamSt tree9 [0x30, 0x80])) =
        .ok (.lit 0x61, [false, false, false, false, false, false, false]) ∧
      (match replayToken (.lit 0x61) (atPos (streamSt tree9 [0x30, 0x80]) 9) with
        | .ok k _ => k = 1 | .fault _ _ _ => False)) ∧
    (decodeToken tree9 (streamBits (streamSt tree9 [0x80, 0, 0])) =
        .ok (.pair 0 9, [false, false, false, false, false, false, false]) ∧
      (match replayToken (.pair 0 9) (atPos (streamSt tree9 [0x80, 0, 0]) 17) with
        | .ok _ _ => False | .fault c _ _ => c = .distOob)) ∧
    decodeToken tree9 (streamBits (streamSt tree9 [0x30])) = .error .streamEnds ∧
    decodeToken tree9 (streamBits (streamSt tree9 [])) = .error .streamEnds ∧
    readTokenWith listBit tree9 (streamBits (streamSt tree9 [0x80, 0, 0x80])) =
      (.guardReached, [false, false, false, false, false, false, false]) := by
  refine ⟨by decide, ⟨rfl, ?_⟩, ⟨rfl, ?_⟩, rfl, rfl, rfl⟩
  · show (1 : Word) = 1
    rfl
  · show FaultCode.distOob = .distOob
    rfl

theorem witness_TreStepAppendsLiteral : State.reset.Ready ∧ State.reset.tree = none ∧
    (streamSt tree9 [0x30, 0x80]).tree = some tree9 ∧
    streamBits (streamSt tree9 [0x30, 0x80]) =
      false :: bitsOf 8 0x61 ++ [false, false, false, false, false, false, false] ∧
    ({ streamSt tree9 [0x30, 0x80] with outLen := 15 } : State).outLen.toNat < 16 := by decide

/-- A core with N_MAX = OUT_MAX = 16. -/
def small (inLen outCap : Nat) : State := { State.reset with
  params := ⟨16, 16, .default⟩, inLen := BitVec.ofNat 64 inLen, outCap := BitVec.ofNat 64 outCap }

theorem witness_StartChecksComeFirst : Instr.mfClear.isToken = false ∧ Instr.mfClear ≠ .nop ∧
    Instr.mfClear ≠ .softReset ∧ (small 17 0).params.nMax.val < (small 17 0).inLen.toNat ∧
    (small 16 17).inLen.toNat ≤ (small 16 17).params.nMax.val ∧
    (small 16 17).params.outMax.val < (small 16 17).outCap.toNat ∧ (small 16 16).Ready := by decide

theorem witness_StatusWriteClearsNamedBits :
    (lockedSt (.wr .status 0x3E)).pending = [.wr .status 0x3E] ∧ (lockedSt (.wr .status 0x3E)).rst = false ∧
    (lockedSt (.wr .status 0x3E)).status.busy = false ∧ (busySt (.wr .status 0x3E)).status.busy = true := by decide

theorem witness_RegistersReadBack : State.reset.rst = false ∧ State.reset.status.busy = false ∧
    ((∀ k, Reg.reserved k ≠ .cmd) ∧ Reg.id ≠ .cmd ∧ Reg.tokCnt ≠ .cmd) ∧
    State.reset.ft.length ≤ 65535 ∧ (busySt (.rd .status)).status.busy = true ∧
    ({ State.reset with rst := true } : State).status.busy = false := by
  refine ⟨rfl, rfl, ⟨?_, ?_, ?_⟩, by decide⟩
  · rintro k ⟨⟩
  · decide
  · decide

theorem witness_HostReadsBackMemory : (small 0 0).status.busy = false ∧ 15 < (small 0 0).params.nMax.val ∧
    15 < (small 0 0).params.outMax.val ∧ (small 0 0).params.nMax.val ≤ 16 ∧
    (small 0 0).params.outMax.val ≤ 16 ∧ (busySt (.inWr 0 0)).status.busy = true ∧
    Sparse.get? (outSt [0x61] 16).outMem 0 = some 0x61 := by decide

theorem witness_HardwareResetClearsState :
    ({ lockedSt (.rst true) with pending := [.rst true, .wr .arg0 5, .rst false] } : State).pending =
      .rst true :: .wr .arg0 5 :: .rst false :: [] := by decide

theorem witness_InterruptFollowsStatus : (lockedSt (.rd .status)).rst = false ∧ State.reset.rst = false := by decide

theorem witness_CommandsEndDoneOrFaulted : Instr.treRun.isToken = false ∧ Instr.treRun ≠ .softReset ∧
    (exec .treRun State.reset = .next (nextOf (exec .treRun State.reset)) ∧
      (nextOf (exec .treRun State.reset)).status.fault = true) ∧
    (nextOf (exec .mfClear State.reset)).status.done = true := by
  refine ⟨rfl, by decide, ⟨?_, by decide⟩, by decide⟩
  exact eq_next_of_after (p := fun _ => true) (by decide)

/-- The state that appending "b" after "a" by TRE_LIT gives. -/
def afterLit : State := nextOf (exec .treLit { outSt [0x61] 16 with arg0 := 0x62 })

theorem afterLit_eq : exec .treLit { outSt [0x61] 16 with arg0 := 0x62 } = .next afterLit :=
  eq_next_of_after (p := fun _ => true) (by decide)

theorem witness_SequencerNeverWritesInputs :
    exec .treLit { outSt [0x61] 16 with arg0 := 0x62 } = .next afterLit ∧ Instr.treLit ≠ .softReset :=
  ⟨afterLit_eq, by decide⟩

theorem witness_OutputWritesStayInRange :
    exec .treLit { outSt [0x61] 16 with arg0 := 0x62 } = .next afterLit ∧
    (outSt [0x61] 16).outCap.toNat ≤ 16 ∧ afterLit.outLen.toNat ≤ 2 ∧ 0 < (outSt [0x61] 16).outLen.toNat ∧
    Instr.treLit ≠ .compress ∧ Instr.treLit ≠ .decompress := by
  refine ⟨afterLit_eq, ?_⟩
  decide

theorem witness_SequencerNeverReadsOut :
    exec .treLit { outSt [0x61] 16 with arg0 := 0x62 } = .next afterLit := afterLit_eq

/-- One byte is output, and the host submits MF_CLEAR. -/
def invSt : State := { State.reset with
  outLen := 1, outCap := 1, outMem := [(0, 0x61)], ring := [(0, 0x61)], pending := [.wr .cmd 0x20] }

theorem witness_StepKeepsInvariant : invSt.Inv ∧ step invSt = .next (nextOf (step invSt)) := by
  refine ⟨?_, eq_next_of_after (p := fun _ => true) (by decide)⟩
  constructor
  case treeOfTable => intro t h; cases h
  case historyWritten => intro i hi _; rw [show i = 0 from Nat.lt_one_iff.mp hi]; decide
  case headLinked => intro h q e; cases e
  case prevLinked => intro h q e; cases e
  all_goals decide

theorem witness_InstructionsKeepRingMirror : invSt.RingMirrorsOut ∧
    exec .outReset invSt = .next (nextOf (exec .outReset invSt)) := by
  refine ⟨?_, eq_next_of_after (p := fun _ => true) (by decide)⟩
  intro i hi _
  rw [show i = 0 from Nat.lt_one_iff.mp hi]
  decide

theorem witness_NopOnlySetsDone : (lockedSt (.wr .cmd 0)).pending = [.wr .cmd 0] ∧
    (lockedSt (.wr .cmd 0)).rst = false ∧ (lockedSt (.wr .cmd 0)).status.busy = false := by decide

theorem witness_SoftResetKeepsMemories : (lockedSt (.wr .cmd 1)).pending = [.wr .cmd 1] ∧
    (lockedSt (.wr .cmd 1)).rst = false ∧ (lockedSt (.wr .cmd 1)).status.busy = false := by decide

theorem witness_ClearCommandsClearTheirUnit : (st abc4 64).Ready ∧ State.reset.Ready := by decide

/-- "abcabcabcabc" with ARG0 = p. -/
def atArg (p : Nat) : State := { mfState with arg0 := BitVec.ofNat 64 p }

theorem witness_MfHashComputesBucket : (atArg 9).Ready ∧ (atArg 9).arg0.toNat + 3 ≤ (atArg 9).inLen.toNat ∧
    (atArg 9).params.hash3 = .default ∧ (atArg 10).inLen.toNat < (atArg 10).arg0.toNat + 3 := by decide

theorem witness_MfSearchReportsTrueMatch : (atArg 11).Ready ∧ (atArg 11).arg0.toNat < (atArg 11).inLen.toNat ∧
    (atArg 12).inLen.toNat ≤ (atArg 12).arg0.toNat := by decide

theorem witness_SearchTakesFirstLongestCandidate : search mfState 3 ≠ (0, 0) ∧ search mfState 10 = (0, 0) ∧
    candidates mfState 3 = [0] := by decide

theorem witness_MfInsertPushesPosition : (atArg 9).Ready ∧ (atArg 9).arg0.toNat + 3 ≤ (atArg 9).inLen.toNat ∧
    ((atArg 10).arg0.toNat < (atArg 10).inLen.toNat ∧ (atArg 10).inLen.toNat < (atArg 10).arg0.toNat + 3) ∧
    (atArg 12).inLen.toNat ≤ (atArg 12).arg0.toNat := by decide

theorem witness_MfStepSearchesThenInserts : (atArg 11).Ready ∧ (atArg 11).arg0.toNat < (atArg 11).inLen.toNat ∧
    (atArg 12).inLen.toNat ≤ (atArg 12).arg0.toNat := by decide

theorem witness_TokDeriveEqualsTwoPhase : (st abc4 64).Ready ∧ (small 16 16).Ready := by decide

/-- Two tokens, with ARG0 = i. -/
def tokAt (i : Nat) : State := { State.reset with
  tokbuf := [.lit 0xFF, .pair 0x7FFF 65535], arg0 := BitVec.ofNat 64 i }

theorem witness_TokReadReturnsToken : (tokAt 0).Ready ∧
    (tokAt 0).tokbuf[(tokAt 0).arg0.toNat]? = some (.lit 0xFF) ∧
    (tokAt 1).tokbuf[(tokAt 1).arg0.toNat]? = some (.pair 0x7FFF 65535) ∧
    (tokAt 2).tokbuf.length ≤ (tokAt 2).arg0.toNat := by decide

/-- A table, with ARG0 = v. -/
def ftSt (ft : List FtEntry) (v : Nat) : State := { State.reset with ft := ft, arg0 := BitVec.ofNat 64 v }

theorem ftFreq_replicate (n : Nat) : ftFreq (List.replicate n ⟨3, 1⟩) 65535 = none := by
  induction n with
  | zero => rfl
  | succ n ih =>
    show (if (3 : Sym) = 65535 then some (1 : Word) else ftFreq (List.replicate n ⟨3, 1⟩) 65535) = none
    rw [if_neg (by decide), ih]

theorem witness_FtTallyCountsSymbol : (ftSt [] 0).Ready ∧ (ftSt [] 0).arg0.toNat = 0 ∧
    65535 < (ftSt [] 65536).arg0.toNat ∧
    ((ftSt [⟨65535, 0xFFFFFFFFFFFFFFFF⟩] 65535).arg0 = (65535 : Sym).setWidth 64 ∧ (65535 : Sym) ≠ 0 ∧
      ftFreq [⟨65535, 0xFFFFFFFFFFFFFFFF⟩] 65535 = some 0xFFFFFFFFFFFFFFFF ∧
      (0xFFFFFFFFFFFFFFFF : Word).toNat = 2 ^ 64 - 1) ∧
    ((ftSt [⟨1, 0xFFFFFFFFFFFFFFFE⟩] 1).arg0 = (1 : Sym).setWidth 64 ∧
      ftFreq [⟨1, 0xFFFFFFFFFFFFFFFE⟩] 1 = some 0xFFFFFFFFFFFFFFFE ∧
      (0xFFFFFFFFFFFFFFFE : Word).toNat ≠ 2 ^ 64 - 1) ∧
    (ftFreq (List.replicate 65535 ⟨3, 1⟩) 65535 = none ∧
      (ftSt (List.replicate 65535 ⟨3, 1⟩) 65535).ft.length = 65535) ∧
    (ftFreq (List.replicate 65534 ⟨3, 1⟩) 65535 = none ∧
      (ftSt (List.replicate 65534 ⟨3, 1⟩) 65535).ft.length ≠ 65535) := by
  refine ⟨by decide, by decide, by decide, by decide, by decide,
    ⟨ftFreq_replicate _, List.length_replicate⟩, ⟨ftFreq_replicate _, ?_⟩⟩
  rw [show (ftSt (List.replicate 65534 ⟨3, 1⟩) 65535).ft.length = 65534 from List.length_replicate]
  decide

theorem witness_FtFromTokensCountsLengths : State.reset.Ready ∧
    (∀ t ∈ [Token.lit 1, .pair 3 3, .pair 7 65535], t.wf = true) ∧
    [Token.lit 1, .pair 3 3, .pair 7 65535].length ≤ 2 ^ 60 ∧ (∀ t ∈ ([] : List Token), t.wf = true) := by decide

theorem witness_FtReadReturnsEntry : (ftSt tableHT1 3).Ready ∧
    (ftSt tableHT1 3).ft[(ftSt tableHT1 3).arg0.toNat]? = some ⟨9, 1⟩ ∧
    (ftSt tableHT1 4).ft.length ≤ (ftSt tableHT1 4).arg0.toNat := by decide

theorem witness_HtBuildSucceedsWhenWeightsFit : (ftSt tableHT1 0).Ready ∧ ([] : List FtEntry).length ≤ 1 ∧
    (2 ≤ tableHT1.length ∧ totalFreq tableHT1 < 2 ^ 64) ∧
    totalFreq [⟨3, 0xFFFFFFFFFFFFFFFE⟩, ⟨4, 1⟩] < 2 ^ 64 ∧
    (2 ≤ [(⟨3, 0xFFFFFFFFFFFFFFFF⟩ : FtEntry), ⟨4, 1⟩].length ∧
      2 ^ 64 ≤ totalFreq [⟨3, 0xFFFFFFFFFFFFFFFF⟩, ⟨4, 1⟩]) := by decide

theorem witness_ExtractMinTakesLeast :
    (([⟨.leaf 3, 1, 2⟩, ⟨.leaf 4, 1, 0⟩, ⟨.guard, 0, 1⟩] : List QItem).map QItem.seq).Nodup := by decide

theorem witness_DegenerateTablesGetGuardTree : (ftSt [⟨9, 1⟩] 0).Ready ∧ (ftSt [⟨9, 1⟩] 0).ft = [⟨9, 1⟩] ∧
    (ftSt [] 0).ft = [] := by decide

theorem witness_CodesArePrefixFree : codeOf treeHT1 9 = some [true, true, false] ∧
    codeOf treeHT1 5 = some [true, false] ∧ [true, true, false] <+: [true, true, false] ∧
    treeHT1.isInternal = true := by decide

/-- A tree, with ARG0 = v and ARG1 = j. -/
def codeSt (tree : Option Node) (v j : Nat) : State := { st [] 64 with
  tree := tree, arg0 := BitVec.ofNat 64 v, arg1 := BitVec.ofNat 64 j }

theorem witness_HtCodeReturnsCode : (codeSt none 65536 0).Ready ∧ 65535 < (codeSt none 65536 0).arg0.toNat ∧
    ((codeSt none 65535 2).arg0 = (65535 : Sym).setWidth 64 ∧ 1 < (codeSt none 65535 2).arg1.toNat) ∧
    ((codeSt none 65535 1).arg1.toNat ≤ 1 ∧ (codeSt none 65535 1).tree = none) ∧
    codeOf tree9 65535 = none ∧
    (codeOf (chain 129) 7 = some (List.replicate 129 false) ∧ 128 < (List.replicate 129 false).length) ∧
    (codeOf (chain 128) 7 = some (List.replicate 128 false) ∧ (List.replicate 128 false).length ≤ 128) := by
  decide +kernel

theorem witness_HdWalkFollowsStream : (streamSt treeHT1 [0xC0]).Ready ∧ State.reset.tree = none ∧
    (streamSt treeHT1 [0xC0]).tree = some treeHT1 ∧ treeHT1.isInternal = true ∧
    (codeOf treeHT1 9 = some [true, true, false] ∧
      streamBits (streamSt treeHT1 [0xC0]) = [true, true, false] ++ [false, false, false, false, false]) ∧
    walkWith listBit treeHT1 (streamBits (streamSt treeHT1 [0xC0])) =
      (.symbol 9, [false, false, false, false, false]) ∧
    walkWith listBit treeHT1 (streamBits (atPos (streamSt treeHT1 [0xC1]) 7)) = (.endOfStream, []) ∧
    walkWith listBit treeHT1 (streamBits (atPos (streamSt treeHT1 [0xC0]) 8)) = (.endOfStream, []) ∧
    walkWith listBit tree9 (streamBits (streamSt tree9 [0x80])) =
      (.guardReached, [false, false, false, false, false, false, false]) := by decide +kernel

theorem witness_CodesStayBelowCodeMax : (∀ e ∈ tableHT1, 1 ≤ e.freq.toNat) ∧
    buildTree tableHT1 = some treeHT1 ∧ codeOf treeHT1 9 = some [true, true, false] := by decide

/-- A packer with `n` pending bits, with ARG0 = w and ARG1 = v, and room for `cap` bytes. -/
def packSt (acc n w v cap : Nat) : State := { st [] cap with
  bwAcc := BitVec.ofNat 8 acc, bwCnt := BitVec.ofNat 3 n, arg0 := BitVec.ofNat 64 w, arg1 := BitVec.ofNat 64 v }

theorem witness_BwPutbitsAppendsField : (packSt 0 0 65 0 0).Ready ∧ 64 < (packSt 0 0 65 0 0).arg0.toNat ∧
    ((packSt 0x7F 7 64 5 8).arg0.toNat ≤ 64 ∧ (packSt 0x7F 7 64 5 8).PackerOk ∧
      (packSt 0x7F 7 64 5 8).RoomFor (bitsOf 64 5).length) ∧
    ¬ (packSt 0x7F 7 64 5 7).RoomFor (bitsOf 64 5).length ∧
    (packSt 0 0 7 5 0).RoomFor (bitsOf 7 5).length ∧ ¬ (packSt 0 0 8 5 0).RoomFor (bitsOf 8 5).length := by decide

theorem witness_BwFlushPadsLastByte : (packSt 0 0 0 0 0).Ready ∧ (packSt 0 0 0 0 0).PackerOk ∧
    (packSt 0 0 0 0 0).bwCnt = 0 ∧
    ((packSt 0x7F 7 0 0 1).PackerOk ∧ (packSt 0x7F 7 0 0 1).bwCnt ≠ 0 ∧
      (packSt 0x7F 7 0 0 1).outLen.toNat < (packSt 0x7F 7 0 0 1).outCap.toNat) ∧
    (packSt 1 1 0 0 0).outCap.toNat ≤ (packSt 1 1 0 0 0).outLen.toNat := by decide

/-- The stream byte A5 with ARG0 = w. -/
def fieldSt (w : Nat) : State := { st [0xA5] 0 with arg0 := BitVec.ofNat 64 w }

theorem witness_BrGetbitsReadsField : (fieldSt 65).Ready ∧ 64 < (fieldSt 65).arg0.toNat ∧
    ((fieldSt 8).arg0.toNat ≤ 64 ∧ (fieldSt 8).arg0.toNat ≤ (streamBits (fieldSt 8)).length) ∧
    ((fieldSt 64).arg0.toNat ≤ 64 ∧ (streamBits (fieldSt 9)).length < (fieldSt 9).arg0.toNat) := by decide

/-- The state a piece of pseudocode ends in. -/
def resState {α : Type} (r : Res α) : State :=
  match r with
  | .ok _ s => s
  | .fault _ _ s => s

theorem witness_PackedFieldsReadBack :
    (∀ f ∈ [((9 : Nat), (0x61 : Nat)), (64, 2 ^ 64 - 1), (0, 0)], f.1 ≤ 64 ∧ f.2 < 2 ^ f.1) ∧
    (st [] 16).bwCnt = 0 ∧ (st [] 16).bwAcc = 0 ∧
    putFields [(9, 0x61), (64, 2 ^ 64 - 1), (0, 0)] (st [] 16) =
      .ok () (resState (putFields [(9, 0x61), (64, 2 ^ 64 - 1), (0, 0)] (st [] 16))) ∧
    flush (resState (putFields [(9, 0x61), (64, 2 ^ 64 - 1), (0, 0)] (st [] 16))) =
      .ok 7 (resState (flush (resState (putFields [(9, 0x61), (64, 2 ^ 64 - 1), (0, 0)] (st [] 16))))) := by
  decide +kernel

theorem witness_HdrWriteWritesHeader : (packSt 1 1 0 0 0).Ready ∧ (packSt 1 1 0 0 0).ft.length ≤ 65535 ∧
    (packSt 1 1 0 0 0).bwCnt ≠ 0 ∧
    ((packSt 0 0 0 0 10).bwCnt = 0 ∧ (packSt 0 0 0 0 10).outLen.toNat + (10 + 10 * 0) ≤ 10) ∧
    (packSt 0 0 0 0 9).outCap.toNat < (packSt 0 0 0 0 9).outLen.toNat + (10 + 10 * 0) := by decide

theorem witness_HdrReadLoadsHeader : (st (abc4Container.take 9) 0).inLen.toNat < 10 ∧
    ((st (abc4Container.take 19) 0).inLen.toNat < 10 + 10 * 1 ∧
      1 = (inByte (st (abc4Container.take 19) 0) 8).toNat +
        256 * (inByte (st (abc4Container.take 19) 0) 9).toNat) ∧
    ((st (abc4Container.take 20) 0).Ready ∧ 10 + 10 * 1 ≤ (st (abc4Container.take 20) 0).inLen.toNat ∧
      1 = (inByte (st (abc4Container.take 20) 0) 8).toNat +
        256 * (inByte (st (abc4Container.take 20) 0) 9).toNat) := by decide

/-- The encoder's side of a header round trip, and the state HDR_WRITE leaves. -/
def hdrSt : State := { st [] 20 with inLen := 12, ft := [⟨9, 1⟩] }
def hdrNext : State := nextOf (exec .hdrWrite hdrSt)

theorem witness_HeaderRoundTrips : hdrSt.Ready ∧ (st abc4Container 0).Ready ∧ hdrSt.ft.length ≤ 65535 ∧
    hdrSt.bwCnt = 0 ∧ hdrSt.outLen = 0 ∧ 10 + 10 * hdrSt.ft.length ≤ hdrSt.outCap.toNat ∧
    10 + 10 * hdrSt.ft.length ≤ (st abc4Container 0).inLen.toNat ∧
    exec .hdrWrite hdrSt = .next hdrNext ∧
    ∀ i < 10 + 10 * hdrSt.ft.length, inByte (st abc4Container 0) i = outByte hdrNext i :=
  ⟨by decide, by decide, by decide, by decide, by decide, by decide, by decide,
    eq_next_of_after (p := fun _ => true) (by decide), by decide⟩

theorem witness_EncLitAppendsToken : (packSt 0 0 256 0 0).Ready ∧ 255 < (packSt 0 0 256 0 0).arg0.toNat ∧
    ((packSt 0x7F 7 255 0 2).arg0.toNat ≤ 255 ∧ (packSt 0x7F 7 255 0 2).PackerOk ∧
      (packSt 0x7F 7 255 0 2).RoomFor (false :: bitsOf 8 255).length) ∧
    ¬ (packSt 0x7F 7 255 0 1).RoomFor (false :: bitsOf 8 255).length := by decide

theorem witness_EncMatchAppendsToken : (codeSt none 0 0).Ready ∧ (codeSt none 0 0).arg0.toNat = 0 ∧
    32768 < (codeSt none 32769 0).arg0.toNat ∧
    (1 ≤ (codeSt none 1 65536).arg0.toNat ∧ 65535 < (codeSt none 1 65536).arg1.toNat) ∧
    ((codeSt none 32768 65535).arg0.toNat ≤ 32768 ∧ (codeSt none 32768 65535).arg1 = (65535 : Sym).setWidth 64 ∧
      (codeSt none 32768 65535).tree = none) ∧
    codeOf tree9 65535 = none ∧
    (codeOf (chain 129) 7 = some (List.replicate 129 false) ∧ 128 < (List.replicate 129 false).length) ∧
    (codeOf tree9 9 = some [false] ∧ (codeSt (some tree9) 32768 9).PackerOk ∧
      (codeSt (some tree9) 32768 9).RoomFor (true :: (bitsOf 15 32767 ++ [false])).length) ∧
    ¬ ({ codeSt (some tree9) 32768 9 with outCap := 1 } : State).RoomFor
      (true :: (bitsOf 15 32767 ++ [false])).length := by decide +kernel

/-- A tree in which 9 has the code `0` and 7 a code of `n` + 1 bits. -/
def longTree (n : Nat) : Node := .internal (.leaf 9) (chain n) 1

/-- Before a match of length 7 and a literal, 26 bits that fit; room for `cap` bytes. -/
def encSt (n cap : Nat) : State := { codeSt (some (longTree n)) 0 0 with
  tokbuf := [.lit 0x61, .pair 0x7FFF 9] ++ .pair 0 7 :: [.lit 1], outCap := BitVec.ofNat 64 cap }

theorem witness_EncTokensAppendsTokens : State.reset.Ready ∧ State.reset.tree = none ∧
    (codeSt (some tree9) 0 0).tree = some tree9 ∧ (codeSt (some tree9) 0 0).PackerOk ∧
    tokenBits tree9 [.lit 0x61, .pair 0x7FFF 9] =
      some (false :: bitsOf 8 0x61 ++ (true :: (bitsOf 15 32767 ++ [false]))) ∧
    (codeSt (some tree9) 0 0).RoomFor 26 ∧
    ¬ ({ codeSt (some tree9) 0 0 with outCap := 2 } : State).RoomFor 26 ∧
    ((encSt 128 3).Ready ∧ (encSt 128 3).PackerOk ∧ (encSt 128 3).RoomFor 26 ∧ ¬ (encSt 128 2).RoomFor 26 ∧
      tokenBits (longTree 128) [.lit 0x61, .pair 0x7FFF 9] =
        some (false :: bitsOf 8 0x61 ++ (true :: (bitsOf 15 32767 ++ [false])))) ∧
    (codeOf (longTree 128) 7 = some (true :: List.replicate 128 false) ∧
      128 < (true :: List.replicate 128 false).length) ∧
    (codeOf (longTree 127) 7 = some (true :: List.replicate 127 false) ∧
      (true :: List.replicate 127 false).length ≤ 128) ∧
    codeOf tree9 7 = none := by
  decide +kernel

theorem witness_EncTokensCodesFit : CodesFit tree9 [.lit 0x61, .pair 0x7FFF 9] ∧
    CodesFit (longTree 128) [.lit 0x61, .pair 0x7FFF 9] := by
  constructor <;> intro v hv c hc <;> rw [List.mem_singleton.mp hv] at hc <;>
    rw [show c = [false] from (Option.some.inj hc).symm] <;> decide

theorem witness_TreLitAppendsByte : (packSt 0 0 256 0 0).Ready ∧ 255 < (packSt 0 0 256 0 0).arg0.toNat ∧
    ((packSt 0 0 255 0 0).arg0.toNat ≤ 255 ∧ (packSt 0 0 255 0 0).outCap.toNat ≤ 0) ∧
    ((packSt 0 0 255 0 1).arg0 = (255 : Byte).setWidth 64 ∧ (packSt 0 0 255 0 1).outLen.toNat < 1) := by decide

/-- "ab" is output, with ARG0 = d and ARG1 = L. -/
def copySt (d len : Nat) : State := { outSt [0x61, 0x62] 4 with
  arg0 := BitVec.ofNat 64 d, arg1 := BitVec.ofNat 64 len }

theorem witness_TreCopyRepeatsHistory : (copySt 0 0).Ready ∧ (copySt 0 0).arg0.toNat = 0 ∧
    32768 < (copySt 32769 0).arg0.toNat ∧ 65535 < (copySt 32768 65536).arg1.toNat ∧
    ((copySt 3 65535).arg1.toNat ≤ 65535 ∧ (copySt 3 65535).outLen.toNat < (copySt 3 65535).arg0.toNat) ∧
    (1 ≤ (copySt 2 2).arg0.toNat ∧ (copySt 2 2).arg0.toNat ≤ (copySt 2 2).outLen.toNat) ∧
    min (copySt 2 2).arg1.toNat ((copySt 2 2).outCap.toNat - (copySt 2 2).outLen.toNat) = 2 ∧
    min (copySt 2 3).arg1.toNat ((copySt 2 3).outCap.toNat - (copySt 2 3).outLen.toNat) = 2 := by decide

/-- "ab" is output, with ORIG_LEN = n and OUT_CAP = cap. -/
def tokSt (n cap : Nat) : State := { outSt [0x61, 0x62] cap with origLen := BitVec.ofNat 64 n }

theorem witness_LitTokenAppendsByte : (tokSt 2 9).origLen.toNat ≤ (tokSt 2 9).outLen.toNat ∧
    ((tokSt 3 2).outLen.toNat < (tokSt 3 2).origLen.toNat ∧ (tokSt 3 2).outCap.toNat ≤ (tokSt 3 2).outLen.toNat) ∧
    ((tokSt 3 3).outLen.toNat < (tokSt 3 3).origLen.toNat ∧
      (tokSt 3 3).outLen.toNat < (tokSt 3 3).outCap.toNat) := by decide

theorem witness_MatchTokenCopiesBytes : (tokSt 9 9).outLen.toNat < (2 : BitVec 15).toNat + 1 ∧
    (1 : BitVec 15).toNat + 1 ≤ (tokSt 5 9).outLen.toNat ∧
    (tokSt 4 9).origLen.toNat < (tokSt 4 9).outLen.toNat + (3 : Sym).toNat ∧
    (tokSt 5 9).outLen.toNat + (3 : Sym).toNat ≤ (tokSt 5 9).origLen.toNat ∧
    min (3 : Sym).toNat ((tokSt 5 5).outCap.toNat - (tokSt 5 5).outLen.toNat) = 3 ∧
    min (3 : Sym).toNat ((tokSt 5 4).outCap.toNat - (tokSt 5 4).outLen.toNat) = 2 := by decide

theorem witness_TreRunStopsAtTargetOrEnd : State.reset.Ready ∧ State.reset.tree = none ∧
    (({ streamSt tree9 [0x30] with origLen := 0 } : State).Ready ∧
      ({ streamSt tree9 [0x30] with origLen := 0 } : State).origLen.toNat ≤ 0) ∧
    ((streamSt tree9 [0x30]).outLen.toNat < (streamSt tree9 [0x30]).origLen.toNat ∧
      8 * (atPos (streamSt tree9 [0x30]) 8).inLen.toNat ≤ (atPos (streamSt tree9 [0x30]) 8).brPos.toNat) := by
  decide

theorem witness_TreRunTurn :
    (decodeToken tree9 (streamBits (streamSt tree9 [0x30, 0x80])) =
        .ok (.lit 0x61, [false, false, false, false, false, false, false]) ∧
      (match replayToken (.lit 0x61) (atPos (streamSt tree9 [0x30, 0x80]) 9) with
        | .ok k _ => k = 1 | .fault _ _ _ => False)) ∧
    (decodeToken tree9 (streamBits (streamSt tree9 [0x80, 0, 0])) =
        .ok (.pair 0 9, [false, false, false, false, false, false, false]) ∧
      (match replayToken (.pair 0 9) (atPos (streamSt tree9 [0x80, 0, 0]) 17) with
        | .ok _ _ => False | .fault c _ _ => c = .distOob)) ∧
    decodeToken tree9 (streamBits (streamSt tree9 [0x30])) = .error .streamEnds ∧
    readTokenWith listBit tree9 (streamBits (streamSt tree9 [0x80, 0, 0x80])) =
      (.guardReached, [false, false, false, false, false, false, false]) ∧
    (streamSt tree9 [0x80, 0, 0x80]).outLen.toNat < (streamSt tree9 [0x80, 0, 0x80]).origLen.toNat := by
  refine ⟨⟨rfl, ?_⟩, ⟨rfl, ?_⟩, rfl, rfl, by decide⟩
  · show (1 : Word) = 1
    rfl
  · show FaultCode.distOob = .distOob
    rfl

/-- V-C2's tokens and its state before TRE_RUN. -/
def abc4Tokens : List Token := [.lit 0x61, .lit 0x62, .lit 0x63, .pair 2 9]
def runSt : State := { st abc4Container 64 with tree := some tree9, brPos := 160, origLen := 12 }

theorem witness_TreRunReplaysTokens : runSt.Ready ∧ runSt.tree = some tree9 ∧
    tokenBits tree9 abc4Tokens = some ((streamBits runSt).take 44) ∧ (∀ t ∈ abc4Tokens, t.wf = true) ∧
    streamBits runSt = (streamBits runSt).take 44 ++ [false, false, false, false] ∧
    expand abc4Tokens [] = some (abc4.map (BitVec.ofNat 8)) ∧ runSt.outLen = 0 ∧
    runSt.origLen.toNat = (abc4.map (BitVec.ofNat 8)).length ∧
    (abc4.map (BitVec.ofNat 8)).length ≤ runSt.outCap.toNat := by decide +kernel

theorem witness_CompressWritesContainer : (st abc4 26).Ready ∧
    IsTableOf (derive (st abc4 26)) [⟨9, 1⟩] ∧ buildTree [⟨9, 1⟩] = some tree9 ∧
    tokenBits tree9 (derive (st abc4 26)) = some ((streamBits runSt).take 44) ∧
    (container 12 [⟨9, 1⟩] ((streamBits runSt).take 44)).length ≤ (st abc4 26).outCap.toNat ∧
    (st abc4 25).outCap.toNat < (container 12 [⟨9, 1⟩] ((streamBits runSt).take 44)).length := by
  have hd : derive (st abc4 26) = abc4Tokens := by decide +kernel
  refine ⟨by decide, .inr ⟨?_, ?_, ?_⟩, by decide, by rw [hd]; decide +kernel, by decide +kernel,
    by decide +kernel⟩
  · rw [hd]; decide
  · decide
  · intro v
    rw [hd]
    by_cases h : v = 9
    · subst h; decide
    · have h' : ¬ (9 : Sym) = v := fun e => h e.symm
      rw [if_neg (by simpa [abc4Tokens, matchLengths] using h), ftFreq, if_neg h', ftFreq]

theorem witness_DecompressExpandsContainer : (st abc4Container 12).Ready ∧ [(⟨9, 1⟩ : FtEntry)].length ≤ 65535 ∧
    buildTree [⟨9, 1⟩] = some tree9 ∧ tokenBits tree9 abc4Tokens = some ((streamBits runSt).take 44) ∧
    (∀ t ∈ abc4Tokens, t.wf = true) ∧ expand abc4Tokens [] = some (abc4.map (BitVec.ofNat 8)) ∧
    (container 12 [⟨9, 1⟩] ((streamBits runSt).take 44)).length ≤ (st abc4Container 12).inLen.toNat ∧
    inBytes (st abc4Container 12) 0 26 = container 12 [⟨9, 1⟩] ((streamBits runSt).take 44) ∧
    (abc4.map (BitVec.ofNat 8)).length ≤ (st abc4Container 12).outCap.toNat := by decide +kernel

/-- A header of the two entries (3, f) and (4, f), f = 2^63 or 1. -/
def twoEntries (hi lo : Nat) : List Nat :=
  [0, 0, 0, 0, 0, 0, 0, 0, 2, 0, 3, 0, lo, 0, 0, 0, 0, 0, 0, hi, 4, 0, lo, 0, 0, 0, 0, 0, 0, hi]

theorem witness_DecompressParts : (st (abc4Container.take 9) 0).inLen.toNat < 10 ∧
    ((st (abc4Container.take 19) 0).inLen.toNat < 10 + 10 * 1 ∧
      1 = (inByte (st (abc4Container.take 19) 0) 8).toNat +
        256 * (inByte (st (abc4Container.take 19) 0) 9).toNat) ∧
    ((st (twoEntries 128 0) 0).Ready ∧ 10 + 10 * 2 ≤ (st (twoEntries 128 0) 0).inLen.toNat ∧
      2 = (inByte (st (twoEntries 128 0) 0) 8).toNat + 256 * (inByte (st (twoEntries 128 0) 0) 9).toNat) ∧
    (nextOf (exec .htBuild (nextOf (exec .hdrRead (st (twoEntries 128 0) 0))))).tree = none ∧
    (nextOf (exec .htBuild (nextOf (exec .hdrRead (st (twoEntries 0 1) 0))))).tree =
      some (.internal (.leaf 3) (.leaf 4) 2) := by decide +kernel

/-- The compressed state. -/
def compressed : State := nextOf (exec .compress (st abc4 26))

theorem witness_CompressThenDecompressIsIdentity : (st abc4 26).Ready ∧ (st abc4Container 12).Ready ∧
    (st abc4 26).status.fault = false ∧ exec .compress (st abc4 26) = .next compressed ∧
    compressed.status.fault = false ∧ (st abc4Container 12).inLen = compressed.outLen ∧
    (st abc4 26).inLen.toNat ≤ (st abc4Container 12).outCap.toNat ∧
    ∀ i < compressed.outLen.toNat, inByte (st abc4Container 12) i = outByte compressed i :=
  ⟨by decide, by decide, by decide, eq_next_of_after (p := fun _ => true) (by decide +kernel),
    by decide +kernel, by decide +kernel, by decide, by decide +kernel⟩

end Sys2Proof.Tests
end

section
/-! The machine's invariant in parts, one for each group of fields that a command changes together. Each part
speaks of those fields alone, so an operation that leaves them unchanged leaves the part unchanged by `rfl`. -/

namespace Sys2Proof.Machine

/-! ## Sparse arrays: where a write lands -/

theorem Sparse.set_index_lt {α : Type} {m : Sparse α} {n a : Nat} (h : ∀ e ∈ m, e.1 < n) (ha : a < n) (v : α) :
    ∀ e ∈ Sparse.set m a v, e.1 < n := by
  intro e he
  rcases Sparse.mem_set he with rfl | he
  · exact ha
  · exact h e he

theorem Sparse.isSome_get?_set {α : Type} {m : Sparse α} {b : Nat} (h : (Sparse.get? m b).isSome) (a : Nat) (v : α) :
    (Sparse.get? (Sparse.set m a v) b).isSome := by
  rw [Sparse.get?_set]
  split_ifs
  · rfl
  · exact h

/-! ## The parts -/

/-- The fault record (R26, R27, R34, R400). -/
structure RecordOk (fault : Bool) (fcode : BitVec 8) (finfo : Word) : Prop where
  noFault : fault = false → fcode = 0 ∧ finfo = 0
  someFault : fault = true → 1 ≤ fcode.toNat ∧ fcode.toNat ≤ 14

/-- OUT, RING and OUT_LEN (R48, R49, R80). -/
structure OutputOk (outMax : Nat) (outMem ring : Memory) (outLen : Word) : Prop where
  outWf : Memory.wf outMem
  ringWf : Memory.wf ring
  outIndex : ∀ e ∈ outMem, e.1 < outMax
  ringIndex : ∀ e ∈ ring, e.1 < Config.ringSize
  bound : outLen.toNat ≤ outMax
  history : ∀ i < outLen.toNat, outLen.toNat ≤ i + Config.ringSize →
    (Sparse.get? ring (i % Config.ringSize)).isSome

/-- HEAD and PREV (R41, R42, R206). -/
structure FinderOk (head : Sparse Word) (prev : Sparse (Option Word)) : Prop where
  headWf : Sparse.wf head
  prevWf : Sparse.wf prev
  headIndex : ∀ e ∈ head, e.1 < Config.hashBuckets
  prevIndex : ∀ e ∈ prev, e.1 < Config.window
  headLinked : ∀ h q, Sparse.get? head h = some q → (Sparse.get? prev (q.toNat % Config.window)).isSome
  prevLinked : ∀ a q, Sparse.get? prev a = some (some q) →
    (Sparse.get? prev (q.toNat % Config.window)).isSome

/-- TOKBUF (R43). -/
structure TokensOk (nMax : Nat) (tokbuf : List Token) : Prop where
  wf : ∀ t ∈ tokbuf, t.wf = true
  count : tokbuf.length ≤ nMax

/-- FT and TREE (R44, R45). -/
structure TableOk (ft : List FtEntry) (tree : Option Node) : Prop where
  size : ft.length ≤ Config.ftMax
  built : ∀ t, tree = some t → buildTree ft = some t

/-- IN (R80). -/
structure InputOk (nMax : Nat) (inMem : Memory) : Prop where
  wf : Memory.wf inMem
  index : ∀ e ∈ inMem, e.1 < nMax

/-- The invariant without BUSY: what also holds while a command runs. -/
structure State.Sound (s : State) : Prop where
  record : RecordOk s.status.fault s.status.fcode s.finfo
  input : InputOk s.params.nMax.val s.inMem
  output : OutputOk s.params.outMax.val s.outMem s.ring s.outLen
  packer : s.PackerOk
  finder : FinderOk s.head s.prev
  tokens : TokensOk s.params.nMax.val s.tokbuf
  table : TableOk s.ft s.tree

/-- What holds at every point of a command's body: the start checks have passed (R403). -/
structure State.Running (s : State) : Prop where
  sound : s.Sound
  ready : s.Ready

/-- The parts make up the invariant. -/
theorem State.inv_iff {s : State} : s.Inv ↔ s.status.busy = false ∧ s.Sound := by
  constructor
  · intro h
    exact ⟨h.idle,
      { record := ⟨h.noFault, h.someFault⟩
        input := ⟨h.inWf, h.inIndex⟩
        output := ⟨h.outWf, h.ringWf, h.outIndex, h.ringIndex, h.outBound, h.historyWritten⟩
        packer := h.pendingBits
        finder := ⟨h.headWf, h.prevWf, h.headIndex, h.prevIndex, h.headLinked, h.prevLinked⟩
        tokens := ⟨h.tokens, h.tokenCount⟩
        table := ⟨h.tableSize, h.treeOfTable⟩ }⟩
  · rintro ⟨hb, hr, hi, ho, hp, hf, hk, ht⟩
    exact
      { idle := hb
        noFault := hr.noFault
        someFault := hr.someFault
        inWf := hi.wf
        outWf := ho.outWf
        ringWf := ho.ringWf
        headWf := hf.headWf
        prevWf := hf.prevWf
        inIndex := hi.index
        outIndex := ho.outIndex
        ringIndex := ho.ringIndex
        headIndex := hf.headIndex
        prevIndex := hf.prevIndex
        pendingBits := hp
        tableSize := ht.size
        tokens := hk.wf
        tokenCount := hk.count
        treeOfTable := ht.built
        outBound := ho.bound
        historyWritten := ho.history
        headLinked := hf.headLinked
        prevLinked := hf.prevLinked }

/-! ## The fault record -/

theorem RecordOk.clear : RecordOk false 0 0 := ⟨fun _ => ⟨rfl, rfl⟩, nofun⟩

/-- Every code of R400 is one of 0x01..0x0E. -/
theorem FaultCode.code_range (c : FaultCode) : 1 ≤ c.code.toNat ∧ c.code.toNat ≤ 14 := by
  cases c <;> decide

theorem RecordOk.fault (c : FaultCode) (i : Word) : RecordOk true c.code i := ⟨nofun, fun _ => c.code_range⟩

/-! ## IN -/

theorem InputOk.empty (n : Nat) : InputOk n [] := ⟨.nil, nofun⟩

theorem InputOk.set {n : Nat} {m : Memory} (h : InputOk n m) {a : Nat} (ha : a < n) (b : Byte) :
    InputOk n (Sparse.set m a b) :=
  ⟨Memory.set_wf h.wf a b, Sparse.set_index_lt h.index ha b⟩

/-! ## OUT and RING -/

/-- With OUT_LEN = 0 no byte of history is needed. -/
theorem OutputOk.rewind {n : Nat} {o r : Memory} {l : Word} (h : OutputOk n o r l) : OutputOk n o r 0 :=
  { h with bound := Nat.zero_le n, history := fun i hi _ => absurd hi (Nat.not_lt_zero i) }

theorem OutputOk.empty (n : Nat) : OutputOk n [] [] 0 :=
  { outWf := .nil, ringWf := .nil, outIndex := nofun, ringIndex := nofun, bound := Nat.zero_le n,
    history := fun i hi _ => absurd hi (Nat.not_lt_zero i) }

theorem OutputOk.set_out {n : Nat} {o r : Memory} {l : Word} (h : OutputOk n o r l) {a : Nat} (ha : a < n)
    (b : Byte) : OutputOk n (Sparse.set o a b) r l :=
  { h with outWf := Memory.set_wf h.outWf a b, outIndex := Sparse.set_index_lt h.outIndex ha b }

/-- Appending the byte at OUT_LEN writes its slot of RING, so the window of history moves on by one (R86). -/
theorem OutputOk.append {n : Nat} {o r : Memory} {l : Word} (h : OutputOk n o r l) (hl : l.toNat < n)
    (hsucc : (l + 1).toNat = l.toNat + 1) (v : Byte) :
    OutputOk n (Sparse.set o l.toNat v) (Sparse.set r (l.toNat % Config.ringSize) v) (l + 1) where
  outWf := Memory.set_wf h.outWf _ v
  ringWf := Memory.set_wf h.ringWf _ v
  outIndex := Sparse.set_index_lt h.outIndex hl v
  ringIndex := Sparse.set_index_lt h.ringIndex (Nat.mod_lt _ (by decide)) v
  bound := by omega
  history := by
    intro i hi hwin
    rw [hsucc] at hi hwin
    rcases Nat.lt_succ_iff_lt_or_eq.mp hi with hi | rfl
    · exact Sparse.isSome_get?_set (h.history i hi (by omega)) _ v
    · simp

/-! ## HEAD and PREV -/

/-- With HEAD all NIL only the links inside PREV are left (R207). -/
theorem FinderOk.clear_head {head : Sparse Word} {prev : Sparse (Option Word)} (h : FinderOk head prev) :
    FinderOk [] prev :=
  { h with headWf := .nil, headIndex := nofun, headLinked := nofun }

theorem FinderOk.empty : FinderOk [] [] :=
  { headWf := .nil, prevWf := .nil, headIndex := nofun, prevIndex := nofun, headLinked := nofun,
    prevLinked := nofun }

/-- Inserting `p` writes PREV's slot of `p` before a link leads there, and the link that slot holds is the old
HEAD entry, which led to a written slot (R203). -/
theorem FinderOk.insert {head : Sparse Word} {prev : Sparse (Option Word)} (h : FinderOk head prev) {b p : Nat}
    (hb : b < Config.hashBuckets) (hp : p < 2 ^ 64) :
    FinderOk (Sparse.set head b (BitVec.ofNat 64 p))
      (Sparse.set prev (p % Config.window) (Sparse.get? head b)) where
  headWf := Sparse.set_wf h.headWf _ _
  prevWf := Sparse.set_wf h.prevWf _ _
  headIndex := Sparse.set_index_lt h.headIndex hb _
  prevIndex := Sparse.set_index_lt h.prevIndex (Nat.mod_lt _ (by decide)) _
  headLinked := by
    intro x q hq
    rw [Sparse.get?_set] at hq
    split_ifs at hq
    · cases hq
      rw [BitVec.toNat_ofNat, Nat.mod_eq_of_lt hp, Sparse.get?_set_same]
      rfl
    · exact Sparse.isSome_get?_set (h.headLinked x q hq) _ _
  prevLinked := by
    intro a q hq
    rw [Sparse.get?_set] at hq
    split_ifs at hq
    · exact Sparse.isSome_get?_set (h.headLinked b q (Option.some.inj hq)) _ _
    · exact Sparse.isSome_get?_set (h.prevLinked a q hq) _ _

/-! ## TOKBUF, FT and TREE -/

theorem TokensOk.empty (n : Nat) : TokensOk n [] := ⟨nofun, Nat.zero_le n⟩

theorem TokensOk.append {n : Nat} {l : List Token} (h : TokensOk n l) {t : Token} (ht : t.wf = true)
    (hl : l.length < n) : TokensOk n (l ++ [t]) where
  wf := by simpa [or_imp, forall_and] using ⟨h.wf, ht⟩
  count := by simpa using hl

/-- A table without a tree only has to fit. -/
theorem TableOk.no_tree {ft : List FtEntry} (h : ft.length ≤ Config.ftMax) : TableOk ft none := ⟨h, nofun⟩

/-! ## Reset -/

/-- After reset nothing is listed, no table stands and no fault is recorded (R52, R441). -/
theorem State.sound_reset : State.reset.Sound where
  record := RecordOk.clear
  input := InputOk.empty _
  output := OutputOk.empty _
  packer := by decide
  finder := FinderOk.empty
  tokens := TokensOk.empty _
  table := TableOk.no_tree (by decide)

/-- Settles O18: the parts hold at reset, and no command executes. -/
theorem resetMeetsInvariant : Obligations.ResetMeetsInvariant :=
  State.inv_iff.mpr ⟨rfl, State.sound_reset⟩

end Sys2Proof.Machine
end

section
/-! What the host reads and writes: the STATUS word bit by bit and as a number, the other composed registers, and
the two moves that reach a register. -/

namespace Sys2Proof.Machine

/-! ## Composed registers -/

theorem flagBit_eq_twoPow (b : Bool) (k : Nat) : flagBit b k = if b then BitVec.twoPow 64 k else 0 := rfl

theorem flagBit_toNat (b : Bool) {k : Nat} (hk : k < 64) : (flagBit b k).toNat = b.toNat * 2 ^ k := by
  have hlt : 2 ^ k < 2 ^ 64 := Nat.pow_lt_pow_right (by decide) hk
  cases b
  · simp [flagBit_eq_twoPow]
  · rw [flagBit_eq_twoPow, if_pos rfl, BitVec.toNat_twoPow, Nat.mod_eq_of_lt hlt, Bool.toNat_true, Nat.one_mul]

theorem flagBit_getLsbD (b : Bool) {k : Nat} (hk : k < 64) (i : Nat) :
    (flagBit b k).getLsbD i = (b && decide (k = i)) := by
  cases b
  · simp [flagBit_eq_twoPow]
  · simp [flagBit_eq_twoPow, BitVec.getLsbD_twoPow, hk]

/-- A field placed above all the bits set so far adds its value. -/
theorem toNat_or_field {x y : Word} {k m n : Nat} (hx : x.toNat = m) (hm : m < 2 ^ k) (hy : y.toNat = n * 2 ^ k) :
    (x ||| y).toNat = m + n * 2 ^ k := by
  rw [BitVec.toNat_or, hx, hy, Nat.or_comm, Nat.mul_comm, ← Nat.two_pow_add_eq_or_of_lt hm, Nat.add_comm]

/-- A byte-sized field at bit 8. -/
theorem setWidth_shiftLeft_toNat {w : Nat} (x : BitVec w) (hw : w ≤ 8) :
    (x.setWidth 64 <<< 8).toNat = x.toNat * 2 ^ 8 := by
  have hx : x.toNat < 2 ^ 8 := lt_of_lt_of_le x.isLt (Nat.pow_le_pow_right (by decide) hw)
  simp only [BitVec.toNat_shiftLeft, BitVec.toNat_setWidth, Nat.shiftLeft_eq]
  omega

/-- STATUS as a number (R26). -/
theorem Status.word_toNat (f : Status) : f.word.toNat = f.busy.toNat + 2 * f.done.toNat +
    4 * f.fault.toNat + 8 * f.trunc.toNat + 16 * f.eos.toNat + 32 * f.ign.toNat + 256 * f.fcode.toNat := by
  have hb := f.busy.toNat_lt
  have hd := f.done.toNat_lt
  have hf := f.fault.toNat_lt
  have ht := f.trunc.toNat_lt
  have he := f.eos.toNat_lt
  have hi := f.ign.toNat_lt
  have h₀ : (flagBit f.busy 0).toNat = f.busy.toNat := by simp [flagBit_toNat]
  have h₁ := toNat_or_field h₀ (by omega) (flagBit_toNat f.done (k := 1) (by decide))
  have h₂ := toNat_or_field h₁ (by omega) (flagBit_toNat f.fault (k := 2) (by decide))
  have h₃ := toNat_or_field h₂ (by omega) (flagBit_toNat f.trunc (k := 3) (by decide))
  have h₄ := toNat_or_field h₃ (by omega) (flagBit_toNat f.eos (k := 4) (by decide))
  have h₅ := toNat_or_field h₄ (by omega) (flagBit_toNat f.ign (k := 5) (by decide))
  exact (toNat_or_field h₅ (by omega) (setWidth_shiftLeft_toNat f.fcode (by decide))).trans (by omega)

/-- Bits 1 and 2 of STATUS are DONE and FAULT (R26). -/
theorem Status.word_getLsbD_one (f : Status) : f.word.getLsbD 1 = f.done := by
  simp [Status.word, BitVec.getLsbD_or, flagBit_getLsbD, -BitVec.getLsbD_eq_getElem]

theorem Status.word_getLsbD_two (f : Status) : f.word.getLsbD 2 = f.fault := by
  simp [Status.word, BitVec.getLsbD_or, flagBit_getLsbD, -BitVec.getLsbD_eq_getElem]

theorem bwState_toNat (s : State) : (bwState s).toNat = s.bwAcc.toNat + 256 * s.bwCnt.toNat := by
  rw [Nat.mul_comm]
  have hacc : (s.bwAcc.setWidth 64).toNat = s.bwAcc.toNat := BitVec.toNat_setWidth_of_le (by decide)
  exact toNat_or_field hacc s.bwAcc.isLt (setWidth_shiftLeft_toNat s.bwCnt (by decide))

theorem tblInfo_toNat {s : State} (h : s.ft.length ≤ 65535) :
    (tblInfo s).toNat = s.ft.length + 65536 * s.tree.isSome.toNat := by
  rw [Nat.mul_comm]
  have hlen : ((BitVec.ofNat 16 s.ft.length).setWidth 64).toNat = s.ft.length := by
    rw [BitVec.toNat_setWidth_of_le (by decide), BitVec.toNat_ofNat, Nat.mod_eq_of_lt (by omega)]
  exact toNat_or_field hlen (by omega) (flagBit_toNat s.tree.isSome (by decide))

/-- CTRL keeps bit 0 of what is written (R28). -/
theorem flagBit_getLsbD_zero (v : Word) : flagBit (v.getLsbD 0) 0 = v &&& 1 := by
  apply BitVec.eq_of_toNat_eq
  rw [flagBit_toNat _ (by decide), BitVec.getLsbD, Nat.testBit_zero, BitVec.toNat_and]
  rcases Nat.mod_two_eq_zero_or_one v.toNat with h | h <;> simp [h]

/-! ## The moves that reach a register -/

/-- A STATUS write clears the W1C bits it names, and FCODE and FINFO with FAULT (R27). -/
theorem writeStatus_eq (w : Word) (s : State) : writeStatus w s = { s with
    finfo := if w.getLsbD 2 then 0 else s.finfo
    status :=
      { busy := s.status.busy
        done := s.status.done && !w.getLsbD 1
        fault := s.status.fault && !w.getLsbD 2
        trunc := s.status.trunc && !w.getLsbD 3
        eos := s.status.eos && !w.getLsbD 4
        ign := s.status.ign && !w.getLsbD 5
        fcode := if w.getLsbD 2 then 0 else s.status.fcode } } := by
  cases h : w.getLsbD 2 <;> simp [writeStatus, h, acknowledgeFault, -BitVec.getLsbD_eq_getElem]

/-- No register write reaches the host's moves or BUSY. -/
@[simp] theorem writeReg_pending (v : Word) (s : State) (r : Reg) : (writeReg v s r).pending = s.pending := by
  cases r <;> simp [writeReg, writeStatus_eq]

@[simp] theorem writeReg_busy (v : Word) (s : State) (r : Reg) : (writeReg v s r).status.busy = s.status.busy := by
  cases r <;> simp [writeReg, writeStatus_eq]

/-- No register shows the host's moves. -/
theorem readReg_with_pending (s : State) (ops : List HostOp) (r : Reg) :
    readReg { s with pending := ops } r = readReg s r := by cases r <;> rfl

/-- A register write while RST is low and BUSY = 0, to any register but CMD. -/
theorem step_write {s : State} {r : Reg} {v : Word} {ops : List HostOp} (hp : s.pending = .wr r v :: ops)
    (hrst : s.rst = false) (hbusy : s.status.busy = false) (hr : r ≠ .cmd) :
    step s = .next (writeReg v { s with pending := ops } r) := by
  rw [step_move hp]
  cases r
  case cmd => exact absurd rfl hr
  all_goals simp [hostMove, hostWrite, hrst, hbusy]

/-- A register write under BUSY only sets IGN (R413). -/
theorem step_write_busy {s : State} {r : Reg} {v : Word} {ops : List HostOp} (hp : s.pending = .wr r v :: ops)
    (hrst : s.rst = false) (hbusy : s.status.busy = true) :
    step s = .next (setIgn { s with pending := ops }) := by
  rw [step_move hp]
  cases r <;> simp [hostMove, hostWrite, onCmdWrite, hrst, hbusy]

/-- A register read that the spec specifies: of STATUS, or outside a command. -/
theorem step_read {s : State} {r : Reg} {ops : List HostOp} (hp : s.pending = .rd r :: ops)
    (hr : r = .status ∨ s.status.busy = false) :
    step s = .next { s with pending := ops, hostData := readReg s r } := by
  rw [step_move hp, hostMove, hostRead_eq (s := { s with pending := ops }) hr, readReg_with_pending]

/-! ## The statements about registers -/

/-- Settles O8: `writeStatus_eq`, on the next move of the host. -/
theorem statusWriteClearsNamedBits : Obligations.StatusWriteClearsNamedBits := by
  intro s w ops hp hrst
  refine ⟨fun hbusy => ?_, fun hbusy => step_write_busy hp hrst hbusy⟩
  rw [step_write hp hrst hbusy nofun, writeReg, writeStatus_eq, hbusy]

/-- Settles O13: bits 1 and 2 of STATUS and bit 0 of CTRL are the flags that IRQ combines. -/
theorem interruptFollowsStatus : Obligations.InterruptFollowsStatus := by
  intro s hrst
  simp only [readReg, Status.word_getLsbD_one, Status.word_getLsbD_two, irq, hrst,
    flagBit_getLsbD s.ie (k := 0) (by decide)]
  simp

/-- What STATUS reads after a write of `v` to it. -/
theorem readReg_writeReg_status_toNat (v : Word) {s : State} (hbusy : s.status.busy = false) :
    (readReg (writeReg v s .status) .status).toNat =
      2 * (s.status.done && !v.getLsbD 1).toNat + 4 * (s.status.fault && !v.getLsbD 2).toNat +
      8 * (s.status.trunc && !v.getLsbD 3).toNat + 16 * (s.status.eos && !v.getLsbD 4).toNat +
      32 * (s.status.ign && !v.getLsbD 5).toNat + 256 * if v.getLsbD 2 then 0 else s.status.fcode.toNat := by
  rw [readReg, Status.word_toNat, writeReg, writeStatus_eq]
  cases v.getLsbD 2 <;> simp [hbusy]

/-- Settles O9: each move is `step_write` or `step_read`, and the composed registers read by their layouts. -/
theorem registersReadBack : Obligations.RegistersReadBack := by
  refine ⟨fun s r v hrst hbusy hr => ?_, fun s r hr => ⟨_, step_read rfl hr, ?_⟩⟩
  · refine ⟨_, _, step_write rfl hrst hbusy hr,
      step_read (writeReg_pending _ _ _) (.inr ((writeReg_busy _ _ _).trans hbusy)), rfl, ?_⟩
    cases r
    case cmd => exact absurd rfl hr
    case ctrl => exact ⟨rfl, flagBit_getLsbD_zero v⟩
    case status => exact readReg_writeReg_status_toNat v hbusy
    case bwState => exact ⟨rfl, bwState_toNat s⟩
    case tblInfo => exact ⟨rfl, tblInfo_toNat⟩
    all_goals exact ⟨rfl, rfl⟩
  · cases r
    case status => exact s.status.word_toNat
    case ctrl => simp [readReg, flagBit_toNat]
    case bwState => exact bwState_toNat s
    case tblInfo => exact tblInfo_toNat
    all_goals rfl

end Sys2Proof.Machine
end

section
/-! Every piece of a command's body keeps `State.Running`, in the order of the model: operands, output, input,
match finder, tokens, table, tree, container, replay. -/

namespace Sys2Proof.Machine

/-- Two pieces of pseudocode that keep a property keep it one after the other. -/
theorem Res.Keeps.andThen {α β : Type} {P : State → Prop} {r : Res α} {f : α → State → Res β} (h : r.Keeps P)
    (hf : ∀ a s, P s → (f a s).Keeps P) : (r.bind f).Keeps P := h.bind (fun _ => id) hf

section
variable {s : State}

/-! ## Operands and checks -/

theorem arg0Where_running (h : s.Running) (ok : Nat → Bool) : (arg0Where ok s).Keeps State.Running := by
  unfold arg0Where
  split_ifs <;> exact h

theorem arg1Where_running (h : s.Running) (ok : Nat → Bool) : (arg1Where ok s).Keeps State.Running := by
  unfold arg1Where
  split_ifs <;> exact h

theorem argIndexed_running {α : Type} (h : s.Running) (l : List α) : (argIndexed l s).Keeps State.Running := by
  unfold argIndexed
  split <;> exact h

theorem require_running (h : s.Running) (ok : Bool) (c : FaultCode) (i : Word) :
    (require ok c i s).Keeps State.Running := by
  unfold require
  split_ifs <;> exact h

theorem needTree_running (h : s.Running) : (needTree s).Keeps State.Running := by
  unfold needTree
  split <;> exact h

theorem needCode_running (h : s.Running) (tree : Node) (v : Sym) : (needCode tree v s).Keeps State.Running := by
  unfold needCode
  split
  · exact h
  · split_ifs <;> exact h

/-! ## Output -/

theorem appendByte_running (h : s.Running) (hroom : s.outLen.toNat < s.outCap.toNat) (v : Byte) :
    (appendByte v s).Running where
  sound := { h.sound with
    output := h.sound.output.append (lt_of_lt_of_le hroom h.ready.2) (appendByte_outLen_toNat (v := v) hroom) v }
  ready := h.ready

theorem outWrite_running (h : s.Running) (v : Byte) : (outWrite v s).Keeps State.Running := by
  rcases outWrite_cases v s with ⟨_, heq⟩ | ⟨hroom, heq⟩ <;> rw [heq]
  · exact h
  · exact appendByte_running h hroom v

theorem outWriteAll_running (h : s.Running) (vs : List Byte) : (outWriteAll vs s).Keeps State.Running := by
  induction vs generalizing s with
  | nil => exact h
  | cons v vs ih => exact (outWrite_running h v).andThen fun _ _ h => ih h

/-- The packer emptied (R291, R295). -/
theorem emptyPacker_running (h : s.Running) : State.Running { s with bwAcc := 0, bwCnt := 0 } :=
  ⟨{ h.sound with packer := Nat.one_pos }, h.ready⟩

theorem outResetBody_running (h : s.Running) : (outResetBody s).Running :=
  ⟨{ h.sound with output := h.sound.output.rewind, packer := Nat.one_pos }, h.ready⟩

/-- One more pending bit keeps BW_ACC < 2^BW_CNT (R47, R291). -/
theorem pushBit_lt {acc : Byte} {cnt : BitVec 3} (h : acc.toNat < 2 ^ cnt.toNat) (hcnt : cnt.toNat < 7) (b : Bool) :
    ((acc <<< 1) ||| (BitVec.ofBool b).setWidth 8).toNat < 2 ^ (cnt + 1).toNat := by
  have hsucc : (cnt + 1).toNat = cnt.toNat + 1 := by bv_omega
  have hacc : (acc <<< 1).toNat < 2 ^ (cnt.toNat + 1) := by
    rw [BitVec.toNat_shiftLeft, Nat.shiftLeft_eq, Nat.pow_succ]
    exact lt_of_le_of_lt (Nat.mod_le _ _) (by omega)
  have hbit : ((BitVec.ofBool b).setWidth 8).toNat < 2 ^ (cnt.toNat + 1) := by
    have hone : ((BitVec.ofBool b).setWidth 8).toNat < 2 := by cases b <;> decide
    exact lt_of_lt_of_le hone (Nat.le_self_pow (by omega) 2)
  rw [hsucc, BitVec.toNat_or]
  exact Nat.or_lt_two_pow hacc hbit

theorem putBit_running (h : s.Running) (b : Bool) : (putBit b s).Keeps State.Running := by
  rcases putBit_cases b s with ⟨hcnt, heq⟩ | ⟨_, hroom, heq⟩ | ⟨_, _, heq⟩ <;> rw [heq]
  · exact ⟨{ h.sound with packer := pushBit_lt h.sound.packer hcnt b }, h.ready⟩
  · exact emptyPacker_running (appendByte_running h hroom _)
  · exact h

theorem putBitList_running (h : s.Running) (l : List Bool) : (putBitList l s).Keeps State.Running := by
  induction l generalizing s with
  | nil => exact h
  | cons b l ih => exact (putBit_running h b).andThen fun _ _ h => ih h

theorem flush_running (h : s.Running) : (flush s).Keeps State.Running := by
  unfold flush
  split_ifs
  · exact h
  · exact (outWrite_running h _).andThen fun _ _ h => emptyPacker_running h

/-! ## Input -/

/-- The fields that the unpacker moves are in no part of the invariant. -/
theorem SameButReader.running {t : State} (hst : SameButReader s t) (h : s.Running) : t.Running := by
  rw [SameButReader] at hst
  rw [hst]
  exact ⟨{ h.sound with }, h.ready⟩

theorem setTrunc_running (h : s.Running) : (setTrunc s).Running := ⟨{ h.sound with }, h.ready⟩

/-! ## Match finder -/

theorem mfClearBody_running (h : s.Running) : (mfClearBody s).Running :=
  ⟨{ h.sound with finder := h.sound.finder.clear_head }, h.ready⟩

theorem insertPos_running (h : s.Running) (p : Nat) : (insertPos s p).Running := by
  unfold insertPos
  split_ifs with hp
  · have hlt : p < 2 ^ 64 := by
      have hle : p + 3 ≤ s.inLen.toNat := of_decide_eq_true hp
      have := s.inLen.isLt
      omega
    exact ⟨{ h.sound with finder := h.sound.finder.insert (BitVec.isLt _) hlt }, h.ready⟩
  · exact h

theorem matchRun_le (s : State) (k q p : Nat) : matchRun s k q p ≤ k := by
  induction k generalizing q p with
  | zero => exact Nat.le_refl 0
  | succ k ih =>
    unfold matchRun
    split_ifs
    · exact Nat.succ_le_succ (ih _ _)
    · exact Nat.zero_le _

/-- No extension is longer than MAX_MATCH (R201). -/
theorem extend_le (s : State) (q p : Nat) : extend s q p ≤ Config.maxMatch :=
  (matchRun_le s _ q p).trans (Nat.min_le_right _ _)

theorem searchLoop_length_le (s : State) (p k : Nat) (q : Option Word) {best : Nat × Nat}
    (h : best.2 ≤ Config.maxMatch) : (searchLoop s p k q best).2 ≤ Config.maxMatch := by
  induction k generalizing q best with
  | zero => exact h
  | succ k ih =>
    cases q with
    | none => exact h
    | some q =>
      unfold searchLoop
      split_ifs
      · exact h
      · refine ih _ ?_
        split_ifs
        · exact extend_le s _ p
        · exact h
      · exact ih _ h

/-- No match found is longer than MAX_MATCH (R202). -/
theorem search_length_le (s : State) (p : Nat) : (search s p).2 ≤ Config.maxMatch := by
  have hloop := searchLoop_length_le s p Config.maxChain (headAt s (hashAt s p)) (best := (0, 0)) (Nat.zero_le _)
  unfold search
  split_ifs
  · dsimp only
    split_ifs
    · exact Nat.zero_le _
    · exact hloop
  · exact Nat.zero_le _

/-! ## Tokens -/

/-- The token of a search is legal: its length, if it is a match, is between 3 and 65535 (R43, R231). -/
theorem tokenAt_wf (s : State) (p : Nat) {r : Nat × Nat} (h : r.2 ≤ Config.maxMatch) :
    (tokenAt s p r).wf = true := by
  unfold tokenAt
  split_ifs with hmin
  · have hlen : (BitVec.ofNat 16 r.2).toNat = r.2 := Nat.mod_eq_of_lt (Nat.lt_succ_of_le h)
    exact decide_eq_true (hlen.symm ▸ hmin)
  · rfl

@[simp] theorem insertPos_tokbuf (s : State) (p : Nat) : (insertPos s p).tokbuf = s.tokbuf := by
  unfold insertPos
  split_ifs <;> rfl

@[simp] theorem insertPos_params (s : State) (p : Nat) : (insertPos s p).params = s.params := by
  unfold insertPos
  split_ifs <;> rfl

/-- The scan appends at most one token per position, so TOKBUF stays within the positions there are (R43). -/
theorem deriveLoop_running {k : Nat} (p due : Nat) (h : s.Running)
    (hroom : s.tokbuf.length + k ≤ s.params.nMax.val) : (deriveLoop k p due s).Running := by
  induction k generalizing p due s with
  | zero => exact h
  | succ k ih =>
    unfold deriveLoop
    split_ifs
    · have htok : State.Running { s with tokbuf := s.tokbuf ++ [tokenAt s p (search s p)] } :=
        ⟨{ h.sound with tokens := h.sound.tokens.append (tokenAt_wf s p (search_length_le s p)) (by omega) },
          h.ready⟩
      refine ih _ _ (insertPos_running htok p) ?_
      simp only [insertPos_tokbuf, insertPos_params, List.length_append, List.length_singleton]
      omega
    · refine ih _ _ (insertPos_running h p) ?_
      simp only [insertPos_tokbuf, insertPos_params]
      omega

theorem tokDeriveBody_running (h : s.Running) : (tokDeriveBody s).Running := by
  have hstart : State.Running { mfClearBody s with tokbuf := [] } :=
    ⟨{ (mfClearBody_running h).sound with tokens := TokensOk.empty _ }, h.ready⟩
  exact deriveLoop_running 0 0 hstart (by simpa using h.ready.1)

/-! ## Frequency table -/

theorem setTable_running (h : s.Running) {ft : List FtEntry} (hft : ft.length ≤ Config.ftMax) :
    (setTable ft s).Running :=
  ⟨{ h.sound with table := TableOk.no_tree hft }, h.ready⟩

theorem ftBump_length (ft : List FtEntry) (v : Sym) : (ftBump ft v).length = ft.length := by
  induction ft with
  | nil => rfl
  | cons e es ih => unfold ftBump; split_ifs <;> simp [ih]

theorem ftInsert_length (ft : List FtEntry) (v : Sym) : (ftInsert ft v).length = ft.length + 1 := by
  induction ft with
  | nil => rfl
  | cons e es ih => unfold ftInsert; split_ifs <;> simp [ih]

/-- A new entry is only added below the capacity of FT (R234). -/
theorem tally_running (h : s.Running) (v : Sym) : (tally v s).Keeps State.Running := by
  have hsize := h.sound.table.size
  unfold tally
  split
  · split_ifs
    · exact h
    · exact setTable_running h ((ftBump_length s.ft v).trans_le hsize)
  · split_ifs with hfull
    · exact h
    · refine setTable_running h ?_
      rw [ftInsert_length]
      omega

theorem tallyTokens_running (h : s.Running) (ts : List Token) : (tallyTokens ts s).Keeps State.Running := by
  induction ts generalizing s with
  | nil => exact h
  | cons t ts ih =>
    cases t with
    | lit b => exact ih h
    | pair x len => exact (tally_running h len).andThen fun _ _ h => ih h

/-- Tallying into an empty FT changes nothing, or does as it would had TREE been NONE before: one tally into an
empty table cannot fault, and it sets TREE to NONE (R234). -/
theorem tallyTokens_of_empty (hft : s.ft = []) (ts : List Token) :
    tallyTokens ts s = .ok () s ∨ tallyTokens ts s = tallyTokens ts (setTable [] s) := by
  induction ts with
  | nil => exact .inl rfl
  | cons t ts ih =>
    cases t with
    | lit b => exact ih
    | pair x len =>
      have hone : ∀ u : State, u.ft = [] → tally len u = .ok () (setTable [⟨len, 1⟩] u) := by
        intro u hu
        simp [tally, hu, ftFreq, ftInsert]
      refine .inr ?_
      rw [tallyTokens, tallyTokens, hone s hft, hone (setTable [] s) rfl]
      rfl

/-- FT_FROM_TOKENS empties FT beside the old TREE, and no way out of it leaves that pair behind (R237, R455). -/
theorem ftFromTokensBody_running (h : s.Running) : (ftFromTokensBody s).Keeps State.Running := by
  have hempty : (setTable [] s).Running := setTable_running h (Nat.zero_le _)
  unfold ftFromTokensBody
  rcases tallyTokens_of_empty (s := { s with ft := [] }) rfl s.tokbuf with heq | heq <;> rw [heq]
  · exact setTable_running hempty (ft := [placeholderEntry]) (by decide)
  · refine (tallyTokens_running hempty s.tokbuf).andThen fun _ u hu => setTable_running hu ?_
    split_ifs
    · decide
    · exact hu.sound.table.size

/-! ## Tree -/

/-- HT_BUILD's tree is that of FT (R261). -/
theorem htBuildBody_running (h : s.Running) : (htBuildBody s).Keeps State.Running := by
  rcases htBuildBody_cases s with ⟨t, hbuild, heq⟩ | ⟨_, heq⟩ <;> rw [heq]
  · exact ⟨{ h.sound with table := ⟨h.sound.table.size, fun _ ht => Option.some.inj ht ▸ hbuild⟩ }, h.ready⟩
  · exact h

/-! ## Container -/

theorem hdrWriteBody_running (h : s.Running) : (hdrWriteBody s).Keeps State.Running := by
  unfold hdrWriteBody
  split_ifs
  · exact outWriteAll_running h _
  · exact h

theorem encLitBody_running (h : s.Running) (b : Nat) : (encLitBody b s).Keeps State.Running :=
  (putBit_running h false).andThen fun _ _ h => putBitList_running h _

theorem encMatchBody_running (h : s.Running) (d : Nat) (len : Sym) : (encMatchBody d len s).Keeps State.Running :=
  (needTree_running h).andThen fun tree _ h =>
  (needCode_running h tree len).andThen fun code _ h =>
  (putBit_running h true).andThen fun _ _ h =>
  (putBitList_running h _).andThen fun _ _ h =>
  (putBitList_running h code).andThen fun _ _ h => h

theorem encTokenList_running (h : s.Running) (ts : List Token) (n : Nat) :
    (encTokenList ts n s).Keeps State.Running := by
  induction ts generalizing n s with
  | nil => exact h
  | cons t ts ih =>
    cases t with
    | lit b => exact (encLitBody_running h b.toNat).andThen fun _ _ h => ih h _
    | pair x len => exact (encMatchBody_running h (distOf x) len).andThen fun _ _ h => ih h _

theorem encTokensBody_running (h : s.Running) : (encTokensBody s).Keeps State.Running :=
  (needTree_running h).andThen fun _ u h => encTokenList_running h u.tokbuf 0

theorem headerEntries_length (s : State) (a m : Nat) : (headerEntries s a m).length = m := by
  induction m generalizing a with
  | zero => rfl
  | succ m ih => simp [headerEntries, ih]

/-- M has two bytes (R130). -/
theorem headerCount_le (s : State) : headerCount s ≤ Config.ftMax := by
  have hlo := (inByte s 8).isLt
  have hhi := (inByte s 9).isLt
  simp only [headerCount, inNumber, inBytes, leValue, Config.ftMax]
  omega

theorem hdrReadBody_running (h : s.Running) : (hdrReadBody s).Keeps State.Running := by
  unfold hdrReadBody parseHeader
  split_ifs
  · exact h
  · exact h
  · have hft := (headerEntries_length s 10 (headerCount s)).trans_le (headerCount_le s)
    exact ⟨{ (setTable_running h hft).sound with }, h.ready⟩

/-! ## Replay -/

theorem copyBytes_running (h : s.Running) (d k : Nat) : (copyBytes d k s).Keeps State.Running := by
  induction k generalizing s with
  | zero => exact h
  | succ k ih => exact (outWrite_running h _).andThen fun _ _ h => ih h

theorem replayToken_running (h : s.Running) (t : Token) : (replayToken t s).Keeps State.Running := by
  cases t with
  | lit b =>
    simp only [replayToken, replayLit]
    split_ifs
    · exact h
    · exact (outWrite_running h b).andThen fun _ _ h => h
  | pair x len =>
    simp only [replayToken, replayMatch]
    split_ifs
    · exact h
    · exact h
    · exact (copyBytes_running h _ _).andThen fun _ _ h => h

theorem stepToken_running (h : s.Running) (tree : Node) : (stepToken tree s).Keeps State.Running := by
  have hread := (fetchToken_same tree s).running h
  rcases stepToken_cases tree s with ⟨u, hf, heq⟩ | ⟨u, hf, heq⟩ | ⟨t, u, hf, heq⟩ <;>
    rw [hf] at hread <;> rw [heq]
  · exact hread
  · exact hread
  · exact (replayToken_running hread t).andThen fun _ _ h => h

theorem treStepBody_running (h : s.Running) (tree : Node) : (treStepBody tree s).Keeps State.Running := by
  refine (stepToken_running h tree).andThen fun r u hu => ?_
  cases r with
  | none =>
    dsimp only
    split_ifs
    · exact setTrunc_running hu
    · exact hu
  | some kindAndCount => exact hu

theorem treRunLoop_running (h : s.Running) (tree : Node) (k : Nat) :
    (treRunLoop tree k s).Keeps State.Running := by
  induction k generalizing s with
  | zero => exact h
  | succ k ih =>
    unfold treRunLoop
    split_ifs
    · refine (stepToken_running h tree).andThen fun r u hu => ?_
      cases r with
      | none => exact setTrunc_running hu
      | some kindAndCount => exact ih hu
    · exact h

theorem treRunBody_running (h : s.Running) : (treRunBody s).Keeps State.Running :=
  (needTree_running h).andThen fun tree _ h =>
  (treRunLoop_running h tree _).andThen fun _ _ h => h

/-! ## Whole transforms -/

theorem compressStart_running (h : s.Running) : (compressStart s).Running := by
  have htable := setTable_running h (ft := []) (Nat.zero_le _)
  have htokens : State.Running { mfClearBody (setTable [] s) with tokbuf := [] } :=
    ⟨{ (mfClearBody_running htable).sound with tokens := TokensOk.empty _ }, h.ready⟩
  exact outResetBody_running htokens

theorem compressBody_running (h : s.Running) : (compressBody s).Keeps State.Running :=
  (ftFromTokensBody_running (tokDeriveBody_running (compressStart_running h))).andThen fun _ _ h =>
  (htBuildBody_running h).andThen fun _ _ h =>
  (hdrWriteBody_running h).andThen fun _ _ h =>
  (encTokensBody_running h).andThen fun _ _ h =>
  (flush_running h).andThen fun _ _ h => ⟨{ h.sound with }, h.ready⟩

theorem decompressBody_running (h : s.Running) : (decompressBody s).Keeps State.Running :=
  (hdrReadBody_running h).andThen fun _ _ h =>
  (htBuildBody_running h).andThen fun _ _ h => treRunBody_running (outResetBody_running h)

end

end Sys2Proof.Machine
end

section
/-! From bodies to steps: a command that ends, in either way, and every other host move lead back to `State.Inv`. -/

namespace Sys2Proof.Machine

section
variable {s t : State}

/-! ## Commands -/

theorem complete_inv (h : s.Sound) (r : Results) : (complete r s).Inv := State.inv_iff.mpr ⟨rfl, { h with }⟩

theorem takeFault_inv (h : s.Sound) (c : FaultCode) (i : Word) : (takeFault c i s).Inv :=
  State.inv_iff.mpr ⟨rfl, { h with record := RecordOk.fault c i }⟩

theorem finish_inv {r : Res Results} (h : r.Keeps State.Running) (ht : finish r = .next t) : t.Inv := by
  cases r with
  | ok x u => cases ht; exact complete_inv h.sound x
  | fault c i u => cases ht; exact takeFault_inv h.sound c i

/-- A command whose body keeps `State.Running` ends in the invariant, also where its start checks fail. -/
theorem runCommand_inv {body : State → Res Results} (h : s.Sound) (ht : runCommand body s = .next t)
    (hbody : ∀ u, u.Running → (body u).Keeps State.Running) : t.Inv := by
  rcases startChecks_cases s with ⟨_, heq⟩ | ⟨_, _, heq⟩ | ⟨hin, hout, heq⟩ <;> rw [runCommand, heq] at ht
  · cases ht; exact takeFault_inv h .inRange s.inLen
  · cases ht; exact takeFault_inv h .outRange s.outCap
  · exact finish_inv (hbody s ⟨h, hin, hout⟩) ht

theorem softResetState_inv (h : s.Sound) : (softResetState s).Inv :=
  State.inv_iff.mpr ⟨rfl,
    { record := RecordOk.clear
      input := { h.input with }
      output := h.output.rewind
      packer := Nat.one_pos
      finder := h.finder.clear_head
      tokens := TokensOk.empty _
      table := TableOk.no_tree (Nat.zero_le _) }⟩

/-- Command by command: the body is a chain of pieces that keep `State.Running`. -/
theorem exec_inv {i : Instr} (hi : i.isToken = false) (h : s.Sound) (ht : exec i s = .next t) : t.Inv := by
  cases i with
  | nop => cases ht; exact complete_inv h Results.none
  | softReset => cases ht; exact softResetState_inv h
  | outReset => exact runCommand_inv h ht fun _ h => outResetBody_running h
  | compress => exact runCommand_inv h ht fun _ h => compressBody_running h
  | decompress => exact runCommand_inv h ht fun _ h => decompressBody_running h
  | mfClear => exact runCommand_inv h ht fun _ h => mfClearBody_running h
  | mfHash => exact runCommand_inv h ht fun _ h => (arg0Where_running h _).andThen fun _ _ h => h
  | mfSearch => exact runCommand_inv h ht fun _ h => (arg0Where_running h _).andThen fun _ _ h => h
  | mfInsert =>
    exact runCommand_inv h ht fun _ h => (arg0Where_running h _).andThen fun p _ h => insertPos_running h p
  | mfStep =>
    exact runCommand_inv h ht fun _ h => (arg0Where_running h _).andThen fun p _ h => insertPos_running h p
  | tokDerive => exact runCommand_inv h ht fun _ h => tokDeriveBody_running h
  | tokRead => exact runCommand_inv h ht fun _ h => (argIndexed_running h _).andThen fun _ _ h => h
  | ftClear => exact runCommand_inv h ht fun _ h => setTable_running h (Nat.zero_le _)
  | ftTally =>
    exact runCommand_inv h ht fun _ h => (arg0Where_running h _).andThen fun _ _ h =>
      (tally_running h _).andThen fun _ _ h => h
  | ftFromTokens =>
    exact runCommand_inv h ht fun _ h => (ftFromTokensBody_running h).andThen fun _ _ h => h
  | ftRead => exact runCommand_inv h ht fun _ h => (argIndexed_running h _).andThen fun _ _ h => h
  | htBuild => exact runCommand_inv h ht fun _ h => (htBuildBody_running h).andThen fun _ _ h => h
  | htCode =>
    exact runCommand_inv h ht fun _ h => (arg0Where_running h _).andThen fun v _ h =>
      (arg1Where_running h _).andThen fun _ _ h =>
      (needTree_running h).andThen fun tree _ h =>
      (needCode_running h tree _).andThen fun _ _ h => h
  | hdWalk =>
    refine runCommand_inv h ht fun _ h => (needTree_running h).andThen fun tree u hu => ?_
    have hwalk := (walk_same tree u).running hu
    rcases hw : walk tree u with ⟨_ | _ | _, v⟩ <;> rw [hw] at hwalk <;> exact hwalk
  | bwPutbits =>
    exact runCommand_inv h ht fun _ h => (arg0Where_running h _).andThen fun _ _ h =>
      (putBitList_running h _).andThen fun _ _ h => h
  | bwFlush => exact runCommand_inv h ht fun _ h => (flush_running h).andThen fun _ _ h => h
  | brGetbits =>
    exact runCommand_inv h ht fun _ h => (arg0Where_running h _).andThen fun w u h =>
      (getBits_same w u).running h
  | hdrWrite => exact runCommand_inv h ht fun _ h => (hdrWriteBody_running h).andThen fun _ _ h => h
  | hdrRead => exact runCommand_inv h ht fun _ h => (hdrReadBody_running h).andThen fun _ _ h => h
  | encLit =>
    exact runCommand_inv h ht fun _ h => (arg0Where_running h _).andThen fun b _ h =>
      (encLitBody_running h b).andThen fun _ _ h => h
  | encMatch =>
    exact runCommand_inv h ht fun _ h => (arg0Where_running h _).andThen fun d _ h =>
      (arg1Where_running h _).andThen fun _ _ h =>
      (encMatchBody_running h d _).andThen fun _ _ h => h
  | encTokens => exact runCommand_inv h ht fun _ h => (encTokensBody_running h).andThen fun _ _ h => h
  | treLit =>
    exact runCommand_inv h ht fun _ h => (arg0Where_running h _).andThen fun _ _ h =>
      (outWrite_running h _).andThen fun _ _ h => h
  | treCopy =>
    exact runCommand_inv h ht fun _ h => (arg0Where_running h _).andThen fun d _ h =>
      (arg1Where_running h _).andThen fun l _ h =>
      (require_running h _ _ _).andThen fun _ _ h =>
      (copyBytes_running h d l).andThen fun _ _ h => h
  | treStep =>
    exact runCommand_inv h ht fun _ h => (needTree_running h).andThen fun tree _ h => treStepBody_running h tree
  | treRun => exact runCommand_inv h ht fun _ h => treRunBody_running h
  | litTok b => cases hi
  | matchTok x len => cases hi

/-- No command word is a token (R122). -/
theorem decodeCommand_isToken {w : Word} {i : Instr} (h : decodeCommand w = .ok i) : i.isToken = false := by
  have hop : ∀ op, decodeOp op = some i → i.isToken = false := by
    intro op hop
    unfold decodeOp at hop
    split at hop <;> cases hop <;> rfl
  unfold decodeCommand at h
  split_ifs at h
  split at h
  · cases h; exact hop _ ‹_›
  · cases h

/-! ## Host moves -/

theorem setIgn_inv (h : s.Inv) : (setIgn s).Inv := by
  obtain ⟨hbusy, hsound⟩ := State.inv_iff.mp h
  exact State.inv_iff.mpr ⟨hbusy, { hsound with }⟩

/-- A submitted word that is accepted runs from a state that differs in BUSY and DONE only. -/
theorem onCmdWrite_inv {w : Word} (h : s.Inv) (ht : onCmdWrite w s = .next t) : t.Inv := by
  have haccept : (accept s).Sound := { (State.inv_iff.mp h).2 with }
  rcases onCmdWrite_cases w s with ⟨_, heq⟩ | ⟨_, _, ⟨i, hi, heq⟩ | ⟨e, _, heq⟩⟩ <;> rw [heq] at ht
  · cases ht; exact setIgn_inv h
  · exact exec_inv (decodeCommand_isToken hi) haccept ht
  · cases ht; exact takeFault_inv haccept .illegalCmd w

/-- Clearing FAULT clears its record with it (R27). -/
theorem writeStatus_inv (h : s.Inv) (w : Word) : (writeStatus w s).Inv := by
  obtain ⟨hbusy, hsound⟩ := State.inv_iff.mp h
  rw [writeStatus_eq]
  refine State.inv_iff.mpr ⟨hbusy, { hsound with record := ?_ }⟩
  cases w.getLsbD 2
  · simpa using hsound.record
  · simpa using RecordOk.clear

/-- The other registers that the host can write are in no part of the invariant. -/
theorem writeReg_inv (h : s.Inv) (v : Word) (r : Reg) : (writeReg v s r).Inv := by
  obtain ⟨hbusy, hsound⟩ := State.inv_iff.mp h
  cases r
  case status => exact writeStatus_inv h v
  all_goals exact State.inv_iff.mpr ⟨hbusy, { hsound with }⟩

theorem hostRead_inv (h : s.Inv) (r : Reg) : (hostRead r s).Inv := by
  obtain ⟨hbusy, hsound⟩ := State.inv_iff.mp h
  rw [hostRead_eq (.inr hbusy)]
  exact State.inv_iff.mpr ⟨hbusy, { hsound with }⟩

theorem driveRst_inv (h : s.Inv) (level : Bool) : (driveRst level s).Inv := by
  rcases driveRst_cases level s with ⟨_, _, heq⟩ | ⟨_, heq⟩ <;> rw [heq]
  · exact h
  · exact State.inv_iff.mpr ⟨rfl,
      { State.sound_reset with
        input := InputOk.empty _
        output := OutputOk.empty _
        tokens := TokensOk.empty _ }⟩

theorem hostMove_inv {op : HostOp} (h : s.Inv) (ht : hostMove op s = .next t) : t.Inv := by
  obtain ⟨hbusy, hsound⟩ := State.inv_iff.mp h
  rcases hostMove_next ht with ⟨w, -, -, hcmd⟩ | ⟨r, v, -, -, rfl⟩ | ⟨r, v, -, -, -, -, rfl⟩ |
    ⟨r, v, -, -, -, -, rfl⟩ | ⟨r, -, rfl⟩ | ⟨a, b, -, -, ha, rfl⟩ | ⟨a, -, -, -, rfl⟩ |
    ⟨a, b, -, -, ha, rfl⟩ | ⟨a, -, -, -, rfl⟩ | ⟨level, -, rfl⟩
  · exact onCmdWrite_inv h hcmd
  · exact h
  · exact setIgn_inv h
  · exact writeReg_inv h v r
  · exact hostRead_inv h r
  · exact State.inv_iff.mpr ⟨hbusy, { hsound with input := hsound.input.set ha b }⟩
  · exact State.inv_iff.mpr ⟨hbusy, { hsound with }⟩
  · exact State.inv_iff.mpr ⟨hbusy, { hsound with output := hsound.output.set_out ha _ }⟩
  · exact State.inv_iff.mpr ⟨hbusy, { hsound with }⟩
  · exact driveRst_inv h level

end

/-- Settles O19: a step makes a host move from a state that differs in the queue of moves only. -/
theorem stepKeepsInvariant : Obligations.StepKeepsInvariant := by
  intro s t h ht
  rcases step_next ht with ⟨_, rfl⟩ | ⟨op, ops, _, hmove⟩
  · exact h
  · obtain ⟨hbusy, hsound⟩ := State.inv_iff.mp h
    have hrest : State.Inv { s with pending := ops } := State.inv_iff.mpr ⟨hbusy, { hsound with }⟩
    exact hostMove_inv hrest hmove

end Sys2Proof.Machine
end

section
/-! OUT seen from the sequencer: a piece of pseudocode appends a list of bytes at OUT_LEN, to OUT and RING alike, and
neither the bytes nor anything else it does depends on what OUT holds (R82, R86, R87). -/

namespace Sys2Proof.Machine

/-! ## Runs of writes to OUT and RING -/

theorem add_length_cons {α : Type} (n : Nat) (v : α) (vs : List α) : n + (v :: vs).length = n + 1 + vs.length := by
  rw [List.length_cons]
  omega

theorem Sparse.setAll_append {α : Type} (vs ws : List α) (m : Sparse α) (a : Nat) :
    Sparse.setAll m a (vs ++ ws) = Sparse.setAll (Sparse.setAll m a vs) (a + vs.length) ws := by
  induction vs generalizing m a with
  | nil => rfl
  | cons v vs ih =>
    rw [add_length_cons]
    exact ih (Sparse.set m a v) (a + 1)

/-- A run of writes leaves every index outside it as it was. -/
theorem Sparse.get?_setAll_outside {α : Type} (vs : List α) (m : Sparse α) {a b : Nat}
    (h : b < a ∨ a + vs.length ≤ b) : Sparse.get? (Sparse.setAll m a vs) b = Sparse.get? m b := by
  induction vs generalizing m a with
  | nil => rfl
  | cons v vs ih =>
    rw [List.length_cons] at h
    exact (ih (Sparse.set m a v) (by omega)).trans (Sparse.get?_set_other m v (by omega))

/-- The ring's side of a run of writes to OUT from index `a` (R86). -/
def ringSetAll : Memory → Nat → List Byte → Memory
  | r, _, [] => r
  | r, a, v :: vs => ringSetAll (Sparse.set r (a % Config.ringSize) v) (a + 1) vs

theorem ringSetAll_append (vs ws : List Byte) (r : Memory) (a : Nat) :
    ringSetAll r a (vs ++ ws) = ringSetAll (ringSetAll r a vs) (a + vs.length) ws := by
  induction vs generalizing r a with
  | nil => rfl
  | cons v vs ih =>
    rw [add_length_cons]
    exact ih _ (a + 1)

/-- `State.RingMirrorsOut` for two memories and an output length (R87). -/
def Mirrors (out ring : Memory) (n : Nat) : Prop :=
  ∀ i < n, n ≤ i + Config.ringSize →
    Sparse.get? ring (i % Config.ringSize) = Sparse.get? out i ∧ (Sparse.get? out i).isSome

theorem State.ringMirrorsOut_iff {s : State} : s.RingMirrorsOut ↔ Mirrors s.outMem s.ring s.outLen.toNat := Iff.rfl

theorem Mirrors.zero (out ring : Memory) : Mirrors out ring 0 := fun i hi => absurd hi (Nat.not_lt_zero i)

/-- The byte at `n` takes the slot of index `n - 32768`, which leaves the window; no other index of the window shares
that slot. -/
theorem Mirrors.append {out ring : Memory} {n : Nat} (h : Mirrors out ring n) (v : Byte) :
    Mirrors (Sparse.set out n v) (Sparse.set ring (n % Config.ringSize) v) (n + 1) := by
  intro i hi hwin
  rcases Nat.lt_succ_iff_lt_or_eq.mp hi with hlt | rfl
  · have hslot : i % Config.ringSize ≠ n % Config.ringSize := by simp only [Config.ringSize] at hwin ⊢; omega
    rw [Sparse.get?_set_other _ _ hslot, Sparse.get?_set_other _ _ hlt.ne]
    exact h i hlt (by omega)
  · simp

theorem Mirrors.appendAll (vs : List Byte) {out ring : Memory} {n : Nat} (h : Mirrors out ring n) :
    Mirrors (Sparse.setAll out n vs) (ringSetAll ring n vs) (n + vs.length) := by
  induction vs generalizing out ring n with
  | nil => exact h
  | cons v vs ih =>
    rw [add_length_cons]
    exact ih (h.append v)

/-! ## Pieces of pseudocode that append -/

/-- What the core never writes: IN, the parameters, the host's moves, RST, and the registers that only the host sets
(R28, R29, R30, R32, R81). -/
def State.hostSide (s : State) : Memory × Params × List HostOp × Bool × Word × Word × Word × Word × Bool :=
  (s.inMem, s.params, s.pending, s.rst, s.arg0, s.arg1, s.inLen, s.outCap, s.ie)

/-- The same state with other contents of OUT. -/
def State.withOut (s : State) (m : Memory) : State := { s with outMem := m }

/-- The same end with other contents of OUT. -/
def Res.withOut {α : Type} (m : Memory) : Res α → Res α
  | .ok a s => .ok a (s.withOut m)
  | .fault c i s => .fault c i (s.withOut m)

/-- `t` is `s` after writes of `bs` to the output indexes from `start` on, which end at OUT_LEN and below OUT_CAP. -/
structure Wrote (start : Nat) (s : State) (bs : List Byte) (t : State) : Prop where
  hostSide : t.hostSide = s.hostSide
  outLen : t.outLen.toNat = start + bs.length
  belowCap : bs ≠ [] → t.outLen.toNat ≤ s.outCap.toNat
  out : t.outMem = Sparse.setAll s.outMem start bs
  ring : t.ring = ringSetAll s.ring start bs

/-- From `s`, the piece `f` writes `bs` to the output indexes from `start` on, and does so whatever OUT holds. -/
def Writes {α : Type} (f : State → Res α) (s : State) (start : Nat) (bs : List Byte) : Prop :=
  (f s).Keeps (Wrote start s bs) ∧ ∀ m : Memory, f (s.withOut m) = (f s).withOut (Sparse.setAll m start bs)

/-- From `s`, the piece `f` appends some bytes to OUT, at OUT_LEN unless another start is named. -/
def Appends {α : Type} (f : State → Res α) (s : State) (start : Nat := s.outLen.toNat) : Prop :=
  ∃ bs : List Byte, Writes f s start bs

theorem State.outCap_of_hostSide {s t : State} (h : t.hostSide = s.hostSide) : t.outCap = s.outCap := by
  simp only [State.hostSide, Prod.mk.injEq] at h
  tauto

/-- Nothing written, and OUT_LEN at `start`. -/
theorem Wrote.nothing {start : Nat} {s t : State}
    (h : (t.hostSide, t.outLen.toNat, t.outMem, t.ring) = (s.hostSide, start, s.outMem, s.ring)) :
    Wrote start s [] t := by
  simp only [Prod.mk.injEq] at h
  obtain ⟨hhost, hlen, hout, hring⟩ := h
  exact ⟨hhost, hlen, nofun, hout, hring⟩

theorem Wrote.trans {start : Nat} {s t u : State} {bs cs : List Byte} (h : Wrote start s bs t)
    (h' : Wrote t.outLen.toNat t cs u) : Wrote start s (bs ++ cs) u where
  hostSide := h'.hostSide.trans h.hostSide
  outLen := by rw [h'.outLen, h.outLen, List.length_append, Nat.add_assoc]
  belowCap := by
    intro hne
    cases cs with
    | nil =>
      rw [h'.outLen]
      exact h.belowCap (by simpa using hne)
    | cons c cs =>
      rw [← State.outCap_of_hostSide h.hostSide]
      exact h'.belowCap nofun
  out := by rw [h'.out, h.out, h.outLen, Sparse.setAll_append]
  ring := by rw [h'.ring, h.ring, h.outLen, ringSetAll_append]

theorem Wrote.out_outside {start a : Nat} {s t : State} {bs : List Byte} (h : Wrote start s bs t)
    (ha : a < start ∨ t.outLen.toNat ≤ a) : Sparse.get? t.outMem a = Sparse.get? s.outMem a := by
  rw [h.outLen] at ha
  rw [h.out, Sparse.get?_setAll_outside bs s.outMem ha]

theorem Res.Keeps.mono {α : Type} {P Q : State → Prop} {r : Res α} (h : r.Keeps P) (hPQ : ∀ s, P s → Q s) :
    r.Keeps Q := by
  cases r with
  | ok a s => exact hPQ s h
  | fault c i s => exact hPQ s h

section
variable {α β : Type} {s : State} {start : Nat}

/-- A piece that goes on as another one does from a state reached without writes. -/
theorem Appends.via {u : State} {f g : State → Res α} (hnothing : Wrote start s [] u)
    (hstep : ∀ m, f (s.withOut m) = g (u.withOut m)) (hg : Appends g u) : Appends f s start := by
  obtain ⟨bs, hkeeps, hblind⟩ := hg
  have hstart : u.outLen.toNat = start := hnothing.outLen
  have hout : u.outMem = s.outMem := hnothing.out
  have hs : f s = g u := (hstep s.outMem).trans (by rw [← hout]; rfl)
  rw [hstart] at hkeeps hblind
  exact ⟨bs, hs ▸ hkeeps.mono fun _ h => hnothing.trans (hstart ▸ h), fun m => by rw [hstep, hblind, hs]⟩

/-- A piece that is another one, whatever OUT holds. -/
theorem Appends.congr {f g : State → Res α} (hg : Appends g s) (h : ∀ m, f (s.withOut m) = g (s.withOut m)) :
    Appends f s :=
  .via (.nothing rfl) h hg

/-- One piece after the other writes the two lists one after the other. -/
theorem Appends.bind {f : State → Res α} {g : α → State → Res β} (hf : Appends f s start)
    (hg : ∀ a u, Appends (g a) u) : Appends (fun s => (f s).bind g) s start := by
  obtain ⟨bs, hkeeps, hblind⟩ := hf
  cases hfs : f s with
  | fault c i u =>
    rw [hfs] at hkeeps hblind
    refine ⟨bs, ?_, fun m => ?_⟩ <;> beta_reduce
    · rw [hfs]; exact hkeeps
    · rw [hblind, hfs]; rfl
  | ok a u =>
    rw [hfs] at hkeeps hblind
    have hwrote : Wrote start s bs u := hkeeps
    obtain ⟨cs, hkeeps', hblind'⟩ := hg a u
    refine ⟨bs ++ cs, ?_, fun m => ?_⟩ <;> beta_reduce
    · rw [hfs]; exact hkeeps'.mono fun _ => hwrote.trans
    · rw [hblind, hfs, Sparse.setAll_append, ← hwrote.outLen]
      exact hblind' _

theorem Appends.ok (a : α) : Appends (Res.ok a) s := ⟨[], .nothing rfl, fun _ => rfl⟩

theorem Appends.fault (c : FaultCode) (i : Word) : Appends (Res.fault (α := α) c i) s :=
  ⟨[], .nothing rfl, fun _ => rfl⟩

/-- An end with an answer read off the state, after a change of the state that writes nothing. -/
theorem Appends.okAfter {a : State → α} {f : State → State} (hnothing : Wrote start s [] (f s))
    (ha : ∀ m, a (s.withOut m) = a s) (hf : ∀ m, f (s.withOut m) = (f s).withOut m) :
    Appends (fun s => Res.ok (a s) (f s)) s start :=
  .via hnothing (fun m => by rw [ha, hf]) (.ok (a s))

theorem Appends.okWith {a : State → α} (ha : ∀ m, a (s.withOut m) = a s) : Appends (fun s => Res.ok (a s) s) s :=
  .okAfter (f := id) (.nothing rfl) ha fun _ => rfl

/-- A test of anything but OUT. -/
theorem Appends.ite {p : State → Prop} [DecidablePred p] {f g : State → Res α}
    (hp : ∀ m, p (s.withOut m) ↔ p s) (hf : p s → Appends f s) (hg : ¬p s → Appends g s) :
    Appends (fun s => if p s then f s else g s) s := by
  by_cases h : p s
  · exact (hf h).congr fun m => if_pos ((hp m).mpr h)
  · exact (hg h).congr fun m => if_neg (mt (hp m).mp h)

/-! ## Operands and checks -/

theorem arg0Where_appends (ok : Nat → Bool) : Appends (arg0Where ok) s :=
  .ite (fun _ => Iff.rfl) (fun _ => .ok s.arg0.toNat) (fun _ => .fault .badArg 0)

theorem arg1Where_appends (ok : Nat → Bool) : Appends (arg1Where ok) s :=
  .ite (fun _ => Iff.rfl) (fun _ => .ok s.arg1.toNat) (fun _ => .fault .badArg 1)

theorem argIndexed_appends (l : List α) : Appends (argIndexed l) s := by
  cases h : l[s.arg0.toNat]? with
  | some a => exact (Appends.ok a).congr fun m => by simp [argIndexed, State.withOut, h]
  | none => exact (Appends.fault .badArg 0).congr fun m => by simp [argIndexed, State.withOut, h]

theorem require_appends (cond : Bool) (c : FaultCode) (i : Word) : Appends (require cond c i) s :=
  .ite (fun _ => Iff.rfl) (fun _ => .ok ()) (fun _ => .fault c i)

theorem needTree_appends : Appends needTree s := by
  cases h : s.tree with
  | some t => exact (Appends.ok t).congr fun m => by simp [needTree, State.withOut, h]
  | none => exact (Appends.fault .noTree 0).congr fun m => by simp [needTree, State.withOut, h]

theorem needCode_appends (tree : Node) (v : Sym) : Appends (needCode tree v) s := by
  unfold needCode
  split
  · exact .fault .noCode _
  · exact .ite (fun _ => Iff.rfl) (fun _ => .fault .codeTooLong _) (fun _ => .ok _)

/-! ## Output -/

theorem outWrite_appends (v : Byte) : Appends (outWrite v) s := by
  refine .ite (fun _ => Iff.rfl) (fun _ => .fault .outOverflow _) fun hroom => ?_
  have hlt : s.outLen.toNat < s.outCap.toNat := Nat.lt_of_not_le hroom
  have hlen := appendByte_outLen_toNat (v := v) hlt
  exact ⟨[v], ⟨rfl, hlen, fun _ => hlen.trans_le hlt, rfl, rfl⟩, fun _ => rfl⟩

theorem outWriteAll_appends (vs : List Byte) : Appends (outWriteAll vs) s := by
  induction vs generalizing s with
  | nil => exact .ok ()
  | cons v vs ih => exact .bind (outWrite_appends v) fun _ _ => ih

theorem putBit_appends (b : Bool) : Appends (putBit b) s :=
  .ite (fun _ => Iff.rfl)
    (fun _ => .bind (outWrite_appends _) fun _ _ => .okAfter (.nothing rfl) (fun _ => rfl) fun _ => rfl)
    (fun _ => .okAfter (.nothing rfl) (fun _ => rfl) fun _ => rfl)

theorem putBitList_appends (l : List Bool) : Appends (putBitList l) s := by
  induction l generalizing s with
  | nil => exact .ok ()
  | cons b l ih => exact .bind (putBit_appends b) fun _ _ => ih

theorem flush_appends : Appends flush s := by
  refine .ite (fun _ => Iff.rfl) (fun _ => .ok 0) fun _ => ?_
  have hpad : Appends (fun u => (outWrite (s.bwAcc <<< (8 - s.bwCnt.toNat)) u).bind fun _ v =>
      .ok (8 - s.bwCnt.toNat) { v with bwAcc := 0, bwCnt := 0 }) s :=
    .bind (outWrite_appends _) fun _ _ => .okAfter (.nothing rfl) (fun _ => rfl) fun _ => rfl
  exact hpad.congr fun _ => rfl

end

/-! ## Input -/

/-- A reader that commutes with a change of the state which it does not see. -/
def Commutes {σ β : Type} (φ : σ → σ) (rd : σ → β × σ) : Prop := ∀ s, rd (φ s) = ((rd s).1, φ (rd s).2)

section
variable {σ : Type} {φ : σ → σ} {get : σ → Option Bool × σ}

theorem readBitsWith_commutes (h : Commutes φ get) (w v : Nat) : Commutes φ (readBitsWith get w v) := by
  intro s
  induction w generalizing v s with
  | zero => rfl
  | succ w ih =>
    simp only [readBitsWith, h s]
    rcases get s with ⟨_ | b, u⟩
    · rfl
    · exact ih _ u

theorem walkWith_commutes (h : Commutes φ get) (t : Node) : Commutes φ (walkWith get t) := by
  intro s
  induction t generalizing s with
  | leaf v => rfl
  | guard => rfl
  | internal l r w ihl ihr =>
    simp only [walkWith, h s]
    rcases get s with ⟨_ | _ | _, u⟩
    · rfl
    · exact ihl u
    · exact ihr u

theorem readTokenWith_commutes (h : Commutes φ get) (t : Node) : Commutes φ (readTokenWith get t) := by
  intro s
  simp only [readTokenWith, h s]
  rcases get s with ⟨_ | _ | _, u⟩
  · rfl
  · simp only [readBitsWith_commutes h _ _ u]
    rcases readBitsWith get Config.litBits 0 u with ⟨_ | v, u₂⟩ <;> rfl
  · simp only [readBitsWith_commutes h _ _ u]
    rcases readBitsWith get Config.distBits 0 u with ⟨_ | x, u₂⟩
    · rfl
    · simp only [walkWith_commutes h t u₂]
      rcases walkWith get t u₂ with ⟨_ | _ | _, u₃⟩ <;> rfl

end

/-! The unpacker reads IN and not OUT. -/

theorem getBit_blind (m : Memory) : Commutes (·.withOut m) getBit := by
  intro s
  by_cases h : 8 * s.inLen.toNat ≤ s.brPos.toNat
  · simp [getBit, State.withOut, h, setEos]
  · simp [getBit, State.withOut, h, streamBit, inByte]

theorem getBits_blind (m : Memory) (w : Nat) : Commutes (·.withOut m) (getBits w) :=
  readBitsWith_commutes (getBit_blind m) w 0

theorem walk_blind (m : Memory) (tree : Node) : Commutes (·.withOut m) (walk tree) :=
  walkWith_commutes (getBit_blind m) tree

theorem fetchToken_blind (m : Memory) (tree : Node) : Commutes (·.withOut m) (fetchToken tree) :=
  readTokenWith_commutes (getBit_blind m) tree

section
variable {α : Type} {s : State}

theorem SameButReader.wrote {t : State} (h : SameButReader s t) : Wrote s.outLen.toNat s [] t := by
  rw [SameButReader] at h
  rw [h]
  exact .nothing rfl

/-- A piece that reads some stream bits first and then goes on by what it read. -/
theorem Appends.read {β : Type} {rd : State → β × State} {r : β} {u : State} {f g : State → Res α}
    (hread : rd s = (r, u)) (hsame : SameButReader s (rd s).2) (hblind : ∀ m, Commutes (·.withOut m) rd)
    (hstep : ∀ m, rd (s.withOut m) = (r, u.withOut m) → f (s.withOut m) = g (u.withOut m)) (hg : Appends g u) :
    Appends f s := by
  rw [hread] at hsame
  exact .via hsame.wrote (fun m => hstep m (by rw [hblind m s, hread])) hg

/-! ## Match finder and tokens -/

@[simp] theorem matchRun_withOut (m : Memory) (k q p : Nat) : matchRun (s.withOut m) k q p = matchRun s k q p := by
  induction k generalizing q p with
  | zero => rfl
  | succ k ih => simp only [matchRun, ih]; rfl

@[simp] theorem searchLoop_withOut (m : Memory) (p k : Nat) (q : Option Word) (best : Nat × Nat) :
    searchLoop (s.withOut m) p k q best = searchLoop s p k q best := by
  induction k generalizing q best with
  | zero => rfl
  | succ k ih =>
    cases q with
    | none => rfl
    | some q => simp only [searchLoop, ih, extend, matchRun_withOut]; rfl

@[simp] theorem search_withOut (m : Memory) (p : Nat) : search (s.withOut m) p = search s p := by
  simp only [search, searchLoop_withOut]
  rfl

theorem insertPos_withOut (s : State) (m : Memory) (p : Nat) :
    insertPos (s.withOut m) p = (insertPos s p).withOut m := by
  unfold insertPos
  rw [apply_ite (State.withOut · m)]
  rfl

theorem deriveLoop_withOut (m : Memory) (k p due : Nat) :
    deriveLoop k p due (s.withOut m) = (deriveLoop k p due s).withOut m := by
  induction k generalizing p due s with
  | zero => rfl
  | succ k ih =>
    simp only [deriveLoop, search_withOut]
    split_ifs
    · have hinsert := insertPos_withOut { s with tokbuf := s.tokbuf ++ [tokenAt s p (search s p)] } m p
      exact (congrArg _ hinsert).trans (ih _ _)
    · exact (congrArg _ (insertPos_withOut s m p)).trans (ih _ _)

theorem SameButFinder.wrote {t : State} (h : SameButFinder s t) : Wrote s.outLen.toNat s [] t := by
  rw [SameButFinder] at h
  rw [h]
  exact .nothing rfl

theorem insertPos_appends (r : Results) (p : Nat) : Appends (fun s => .ok r (insertPos s p)) s :=
  .okAfter (insertPos_same s p).wrote (fun _ => rfl) fun m => insertPos_withOut s m p

theorem tokDeriveBody_withOut (s : State) (m : Memory) : tokDeriveBody (s.withOut m) = (tokDeriveBody s).withOut m :=
  deriveLoop_withOut (s := { mfClearBody s with tokbuf := [] }) m _ 0 0

/-! ## Table and tree -/

theorem tally_appends (v : Sym) : Appends (tally v) s := by
  cases h : ftFreq s.ft v with
  | some f =>
    have hbump : Appends (fun u => if f.toNat = 2 ^ 64 - 1 then .fault .freqOverflow (v.setWidth 64) u
        else .ok () (setTable (ftBump u.ft v) u)) s :=
      .ite (fun _ => Iff.rfl) (fun _ => .fault _ _) (fun _ => .okAfter (.nothing rfl) (fun _ => rfl) fun _ => rfl)
    exact hbump.congr fun m => by simp [tally, State.withOut, h]
  | none =>
    have hinsert : Appends (fun u => if u.ft.length = Config.ftMax then .fault .badState 65535 u
        else .ok () (setTable (ftInsert u.ft v) u)) s :=
      .ite (fun _ => Iff.rfl) (fun _ => .fault _ _) (fun _ => .okAfter (.nothing rfl) (fun _ => rfl) fun _ => rfl)
    exact hinsert.congr fun m => by simp [tally, State.withOut, h]

theorem tallyTokens_appends (ts : List Token) : Appends (tallyTokens ts) s := by
  induction ts generalizing s with
  | nil => exact .ok ()
  | cons t ts ih =>
    cases t with
    | lit b => exact ih
    | pair x len => exact .bind (tally_appends len) fun _ _ => ih

theorem ftFromTokensBody_appends : Appends ftFromTokensBody s := by
  have htally : Appends (fun u => tallyTokens u.tokbuf { u with ft := [] }) s :=
    .via (u := { s with ft := [] }) (.nothing rfl) (fun _ => rfl) (tallyTokens_appends s.tokbuf)
  exact htally.bind fun _ _ => .okAfter (.nothing rfl) (fun _ => rfl) fun _ => rfl

theorem htBuildBody_appends : Appends htBuildBody s := by
  cases h : buildTree s.ft with
  | some t =>
    exact .via (u := { s with tree := some t }) (.nothing rfl)
      (fun m => by simp [htBuildBody, State.withOut, h]) (.ok t)
  | none =>
    exact (Appends.fault .freqOverflow 0xFFFFFFFFFFFFFFFF).congr fun m => by simp [htBuildBody, State.withOut, h]

/-! ## Container -/

theorem hdrWriteBody_appends : Appends hdrWriteBody s :=
  .ite (fun _ => Iff.rfl) (fun _ => outWriteAll_appends _) (fun _ => .fault .badState _)

theorem encLitBody_appends (b : Nat) : Appends (encLitBody b) s :=
  .bind (putBit_appends false) fun _ _ => putBitList_appends _

theorem encMatchBody_appends (d : Nat) (len : Sym) : Appends (encMatchBody d len) s :=
  .bind needTree_appends fun tree _ =>
  .bind (needCode_appends tree len) fun code _ =>
  .bind (putBit_appends true) fun _ _ =>
  .bind (putBitList_appends _) fun _ _ =>
  .bind (putBitList_appends code) fun _ _ => .ok code.length

theorem encTokenList_appends (ts : List Token) (n : Nat) : Appends (encTokenList ts n) s := by
  induction ts generalizing n s with
  | nil => exact .ok n
  | cons t ts ih =>
    cases t with
    | lit b => exact .bind (encLitBody_appends b.toNat) fun _ _ => ih _
    | pair x len => exact .bind (encMatchBody_appends (distOf x) len) fun _ _ => ih _

theorem encTokensBody_appends : Appends encTokensBody s :=
  .bind needTree_appends fun _ u => encTokenList_appends u.tokbuf 0

@[simp] theorem inBytes_withOut (m : Memory) (a k : Nat) : inBytes (s.withOut m) a k = inBytes s a k := by
  induction k generalizing a with
  | zero => rfl
  | succ k ih => simp only [inBytes, ih]; rfl

@[simp] theorem inNumber_withOut (m : Memory) (a k : Nat) : inNumber (s.withOut m) a k = inNumber s a k :=
  congrArg leValue (inBytes_withOut m a k)

@[simp] theorem headerCount_withOut (m : Memory) : headerCount (s.withOut m) = headerCount s := inNumber_withOut m 8 2

@[simp] theorem headerEntries_withOut (m : Memory) (a k : Nat) :
    headerEntries (s.withOut m) a k = headerEntries s a k := by
  induction k generalizing a with
  | zero => rfl
  | succ k ih => simp [headerEntries, ih]

theorem parseHeader_appends : Appends parseHeader s :=
  .ite (fun _ => Iff.rfl) (fun _ => .fault .headerShort _) fun _ =>
  .ite (fun m => by rw [headerCount_withOut]; rfl) (fun _ => .fault .headerShort _) fun _ =>
  .okWith fun m => by simp only [inNumber_withOut, headerCount_withOut, headerEntries_withOut]

theorem hdrReadBody_appends : Appends hdrReadBody s :=
  .bind parseHeader_appends fun _ _ => .okAfter (.nothing rfl) (fun _ => rfl) fun _ => rfl

/-! ## Replay -/

theorem copyBytes_appends (d k : Nat) : Appends (copyBytes d k) s := by
  induction k generalizing s with
  | zero => exact .ok ()
  | succ k ih => exact .bind (outWrite_appends _) fun _ _ => ih

theorem replayToken_appends (t : Token) : Appends (replayToken t) s := by
  cases t with
  | lit b =>
    exact .ite (fun _ => Iff.rfl) (fun _ => .fault .lengthOverrun 1) fun _ =>
      .bind (outWrite_appends b) fun _ _ => .ok 1
  | pair x len =>
    exact .ite (fun _ => Iff.rfl) (fun _ => .fault .distOob _) fun _ =>
      .ite (fun _ => Iff.rfl) (fun _ => .fault .lengthOverrun _) fun _ =>
      .bind (copyBytes_appends _ _) fun _ _ => .ok (len.setWidth 64)

theorem stepToken_appends (tree : Node) : Appends (stepToken tree) s := by
  have hsame := fetchToken_same tree s
  have hblind := fun m => fetchToken_blind m tree
  rcases h : fetchToken tree s with ⟨t | _ | _, u⟩
  · exact .read h hsame hblind (fun _ hm => by rw [stepToken, hm])
      (.bind (replayToken_appends t) fun k _ => .ok (some (tokenKind t, k)))
  · exact .read h hsame hblind (fun _ hm => by rw [stepToken, hm]; rfl) (.fault .guardCode u.brPos)
  · exact .read h hsame hblind (fun _ hm => by rw [stepToken, hm]) (.ok none)

theorem treStepBody_appends (tree : Node) : Appends (treStepBody tree) s := by
  refine .bind (stepToken_appends tree) fun r u => ?_
  cases r with
  | none =>
    by_cases h : u.outLen.toNat < u.origLen.toNat
    · exact .via (u := setTrunc u) (.nothing rfl) (fun _ => congrArg (Res.ok _) (if_pos h)) (.ok _)
    · exact (Appends.ok _).congr fun _ => congrArg (Res.ok _) (if_neg h)
  | some kindAndCount => exact .ok _

theorem treRunLoop_appends (tree : Node) (k : Nat) : Appends (treRunLoop tree k) s := by
  induction k generalizing s with
  | zero => exact .ok false
  | succ k ih =>
    refine .ite (fun _ => Iff.rfl) (fun _ => .bind (stepToken_appends tree) fun r u => ?_) (fun _ => .ok false)
    cases r with
    | none => exact .okAfter (.nothing rfl) (fun _ => rfl) fun _ => rfl
    | some kindAndCount => exact ih

theorem treRunBody_appends : Appends treRunBody s :=
  .bind needTree_appends fun tree _ =>
  .bind (treRunLoop_appends tree _) fun _ _ => .ok _

end

/-! ## Whole transforms -/

section
variable {α : Type} {s t : State}

theorem compressBody_appends : Appends compressBody s 0 := by
  have hderived : Wrote 0 s [] (tokDeriveBody (compressStart s)) :=
    Wrote.trans (t := compressStart s) (bs := []) (.nothing rfl) (tokDeriveBody_same (compressStart s)).wrote
  have htail : ∀ u : State, Appends (fun v => (ftFromTokensBody v).bind fun _ v =>
      (htBuildBody v).bind fun _ v => (hdrWriteBody v).bind fun _ v => (encTokensBody v).bind fun _ v =>
      (flush v).bind fun _ v => .ok (Results.two v.outLen (tokCount v)) { v with origLen := v.inLen }) u :=
    fun _ =>
      .bind ftFromTokensBody_appends fun _ _ => .bind htBuildBody_appends fun _ _ =>
      .bind hdrWriteBody_appends fun _ _ => .bind encTokensBody_appends fun _ _ =>
      .bind flush_appends fun _ _ => .okAfter (.nothing rfl) (fun _ => rfl) fun _ => rfl
  exact .via hderived (fun m => by rw [compressBody, ← tokDeriveBody_withOut]; rfl) (htail _)

/-- A piece that appends and leaves OUT_LEN alone has written nothing. -/
theorem Appends.writes_nil {f : State → Res α} (h : Appends f s) (hlen : (f s).Keeps (·.outLen = s.outLen)) :
    Writes f s s.outLen.toNat [] := by
  obtain ⟨bs, hkeeps, hblind⟩ := h
  have hnil : ∀ t, Wrote s.outLen.toNat s bs t → t.outLen = s.outLen → bs = [] := by
    intro t hw hlen
    have hcount := hw.outLen
    rw [hlen] at hcount
    exact List.eq_nil_of_length_eq_zero (by omega)
  have hbs : bs = [] := by
    cases hf : f s with
    | ok a t => rw [hf] at hkeeps hlen; exact hnil t hkeeps hlen
    | fault c i t => rw [hf] at hkeeps hlen; exact hnil t hkeeps hlen
  exact hbs ▸ ⟨hkeeps, hblind⟩

theorem hdrReadBody_outLen (s : State) : (hdrReadBody s).Keeps (·.outLen = s.outLen) := by
  unfold hdrReadBody parseHeader
  split_ifs <;> rfl

theorem htBuildBody_outLen (s : State) : (htBuildBody s).Keeps (·.outLen = s.outLen) := by
  rcases htBuildBody_cases s with ⟨t, _, heq⟩ | ⟨_, heq⟩ <;> rw [heq] <;> rfl

/-! ## Commands -/

/-- From `s`, the body `f` writes some bytes at `base`; one that writes none may leave OUT_LEN as it was, or at 0. -/
def BodyWrites (base : Nat) (f : State → Res α) (s : State) : Prop :=
  ∃ start bs, (start = s.outLen.toNat ∨ start = 0) ∧ (bs ≠ [] → start = base) ∧ Writes f s start bs

/-- From `s`, the instruction `F` leads to `t` by such writes; from other contents of OUT it leads to `t` with the same
bytes written there. -/
def ExecWrites (base : Nat) (F : State → Host.Outcome State Fault Refusal) (s t : State) : Prop :=
  ∃ start bs, (start = s.outLen.toNat ∨ start = 0) ∧ (bs ≠ [] → start = base) ∧ Wrote start s bs t ∧
    ∀ m, F (s.withOut m) = .next (t.withOut (Sparse.setAll m start bs))

theorem Appends.body {f : State → Res α} (h : Appends f s) : BodyWrites s.outLen.toNat f s := by
  obtain ⟨bs, hbs⟩ := h
  exact ⟨_, bs, .inl rfl, fun _ => rfl, hbs⟩

theorem Appends.body_zero {f : State → Res α} (h : Appends f s 0) : BodyWrites 0 f s := by
  obtain ⟨bs, hbs⟩ := h
  exact ⟨0, bs, .inr rfl, fun _ => rfl, hbs⟩

/-- DECOMPRESS reads the header and builds the tree without output, and only then does OUT_LEN become 0 (R383). -/
theorem decompressBody_writes (s : State) : BodyWrites 0 decompressBody s := by
  have hprepare : Writes (fun s => (hdrReadBody s).bind fun _ s => htBuildBody s) s s.outLen.toNat [] :=
    Appends.writes_nil (.bind hdrReadBody_appends fun _ _ => htBuildBody_appends)
      ((hdrReadBody_outLen s).bind (fun _ => id) fun _ u hu => (htBuildBody_outLen u).mono fun _ h => h.trans hu)
  have hbody : ∀ s, decompressBody s =
      ((hdrReadBody s).bind fun _ s => htBuildBody s).bind fun _ s => treRunBody (outResetBody s) :=
    fun s => (Res.bind_assoc _ _ _).symm
  obtain ⟨hkeeps, hblind⟩ := hprepare
  beta_reduce at hkeeps hblind
  cases hr : (hdrReadBody s).bind fun _ s => htBuildBody s with
  | fault c i u =>
    rw [hr] at hkeeps hblind
    refine ⟨_, [], .inl rfl, nofun, ?_, fun m => ?_⟩
    · rw [hbody, hr]; exact hkeeps
    · rw [hbody, hbody, hblind, hr]; rfl
  | ok n u =>
    rw [hr] at hkeeps hblind
    have hreset : Wrote 0 s [] (outResetBody u) := ⟨hkeeps.hostSide, rfl, nofun, hkeeps.out, hkeeps.ring⟩
    exact Appends.body_zero (.via hreset (fun m => by rw [hbody, hblind]; rfl) treRunBody_appends)

/-- How a body that ended is closed writes nothing more: a fault is recorded, and a normal end leaves OUT and what the
host owns as they are. -/
theorem BodyWrites.close {base : Nat} {f : State → Res α} (h : BodyWrites base f s)
    {close : Res α → Host.Outcome State Fault Refusal} {ended : α → State → State}
    (hok : ∀ a u, close (.ok a u) = .next (ended a u))
    (hfault : ∀ c i u, close (.fault c i u) = .next (takeFault c i u))
    (hnothing : ∀ a u, Wrote u.outLen.toNat u [] (ended a u))
    (hended : ∀ a u m, ended a (u.withOut m) = (ended a u).withOut m) (ht : close (f s) = .next t) :
    ExecWrites base (fun s => close (f s)) s t := by
  obtain ⟨start, bs, hstart, hbase, hkeeps, hblind⟩ := h
  refine ⟨start, bs, hstart, hbase, ?_⟩
  simp only [hblind]
  cases hf : f s with
  | ok a u =>
    rw [hf, hok] at ht
    rw [hf] at hkeeps
    cases ht
    exact ⟨List.append_nil bs ▸ Wrote.trans hkeeps (hnothing a u), fun m => (hok a _).trans (by rw [hended])⟩
  | fault c i u =>
    rw [hf, hfault] at ht
    rw [hf] at hkeeps
    cases ht
    exact ⟨{ hkeeps with }, fun m => hfault c i _⟩

theorem finish_writes {base : Nat} {f : State → Res Results} (h : BodyWrites base f s)
    (ht : finish (f s) = .next t) : ExecWrites base (fun s => finish (f s)) s t :=
  h.close (ended := complete) (fun _ _ => rfl) (fun _ _ _ => rfl) (fun _ _ => .nothing rfl) (fun _ _ _ => rfl) ht

theorem finishToken_writes {base : Nat} {f : State → Res Word} (h : BodyWrites base f s)
    (ht : finishToken (f s) = .next t) : ExecWrites base (fun s => finishToken (f s)) s t :=
  h.close (ended := fun _ u => u) (fun _ _ => rfl) (fun _ _ _ => rfl) (fun _ _ => .nothing rfl) (fun _ _ _ => rfl) ht

/-- The start checks write nothing and do not read OUT (R403). -/
theorem BodyWrites.checked {base : Nat} {f : State → Res α} (h : BodyWrites base f s) :
    BodyWrites base (fun s => (startChecks s).bind fun _ s => f s) s := by
  obtain ⟨start, bs, hstart, hbase, hkeeps, hblind⟩ := h
  have hchecks : ∀ m, startChecks (s.withOut m) = (startChecks s).withOut m := by
    intro m
    unfold startChecks
    rw [apply_ite (Res.withOut m), apply_ite (Res.withOut m)]
    rfl
  have hfault : ∀ c i, startChecks s = .fault c i s →
      BodyWrites base (fun s => (startChecks s).bind fun _ s => f s) s := fun c i heq =>
    ⟨_, [], .inl rfl, nofun, by simp only [heq]; exact .nothing rfl, fun m => by simp only [hchecks, heq]; rfl⟩
  rcases startChecks_cases s with ⟨_, heq⟩ | ⟨_, _, heq⟩ | ⟨_, _, heq⟩
  · exact hfault _ _ heq
  · exact hfault _ _ heq
  · exact ⟨start, bs, hstart, hbase, by simp only [heq]; exact hkeeps,
      fun m => by simp only [hchecks, heq]; exact hblind m⟩

theorem runCommand_writes {base : Nat} {body : State → Res Results} (ht : runCommand body s = .next t)
    (h : BodyWrites base body s) : ExecWrites base (runCommand body) s t := finish_writes h.checked ht

/-- A command that only appends. -/
theorem runCommand_appends {body : State → Res Results} (ht : runCommand body s = .next t) (h : Appends body s) :
    ExecWrites s.outLen.toNat (runCommand body) s t := runCommand_writes ht h.body

/-- Where an instruction's output starts (R86, R382, R383). -/
def writeStart (s : State) : Instr → Nat
  | .compress => 0
  | .decompress => 0
  | _ => s.outLen.toNat

theorem writeStart_eq (s : State) (i : Instr) :
    writeStart s i = if i = .compress ∨ i = .decompress then 0 else s.outLen.toNat := by
  cases i <;> simp [writeStart]

/-- Instruction by instruction: the body is a chain of pieces that append. -/
theorem exec_writes {i : Instr} (hi : i ≠ .softReset) (ht : exec i s = .next t) :
    ExecWrites (writeStart s i) (exec i) s t := by
  cases i with
  | nop => exact finish_writes (Appends.ok Results.none).body ht
  | softReset => exact absurd rfl hi
  | outReset => exact runCommand_writes ht ⟨0, [], .inr rfl, nofun, .nothing rfl, fun _ => rfl⟩
  | compress => exact runCommand_writes ht compressBody_appends.body_zero
  | decompress => exact runCommand_writes ht (decompressBody_writes s)
  | mfClear => exact runCommand_appends ht (.okAfter (.nothing rfl) (fun _ => rfl) fun _ => rfl)
  | mfHash => exact runCommand_appends ht (.bind (arg0Where_appends _) fun _ _ => .ok _)
  | mfSearch =>
    exact runCommand_appends ht (.bind (arg0Where_appends _) fun p u =>
      (Appends.ok (pairResults (search u p))).congr fun m => by rw [search_withOut])
  | mfInsert =>
    exact runCommand_appends ht (.bind (arg0Where_appends _) fun p _ => insertPos_appends _ p)
  | mfStep =>
    exact runCommand_appends ht (.bind (arg0Where_appends _) fun p u =>
      (insertPos_appends (pairResults (search u p)) p).congr fun m => by rw [search_withOut])
  | tokDerive =>
    exact runCommand_appends ht (.via (tokDeriveBody_same s).wrote
      (fun m => by rw [tokDeriveBody_withOut]; rfl) (.ok (Results.one (tokCount (tokDeriveBody s)))))
  | tokRead => exact runCommand_appends ht (.bind (argIndexed_appends _) fun _ _ => .ok _)
  | ftClear => exact runCommand_appends ht (.okAfter (.nothing rfl) (fun _ => rfl) fun _ => rfl)
  | ftTally =>
    exact runCommand_appends ht (.bind (arg0Where_appends _) fun _ _ =>
      .bind (tally_appends _) fun _ _ => .ok _)
  | ftFromTokens => exact runCommand_appends ht (.bind ftFromTokensBody_appends fun _ _ => .ok _)
  | ftRead => exact runCommand_appends ht (.bind (argIndexed_appends _) fun _ _ => .ok _)
  | htBuild => exact runCommand_appends ht (.bind htBuildBody_appends fun _ _ => .ok _)
  | htCode =>
    exact runCommand_appends ht (.bind (arg0Where_appends _) fun _ _ =>
      .bind (arg1Where_appends _) fun _ _ => .bind needTree_appends fun tree _ =>
      .bind (needCode_appends tree _) fun _ _ => .ok _)
  | hdWalk =>
    refine runCommand_appends ht (.bind needTree_appends fun tree u => ?_)
    have hsame := walk_same tree u
    have hblind := fun m => walk_blind m tree
    rcases h : walk tree u with ⟨v | _ | _, w⟩
    · exact .read h hsame hblind (fun _ hm => by rw [hm]) (.ok (Results.two (v.setWidth 64) 0))
    · exact .read h hsame hblind (fun _ hm => by rw [hm]; rfl) (.fault .guardCode w.brPos)
    · exact .read h hsame hblind (fun _ hm => by rw [hm]) (.ok (Results.two 0 1))
  | bwPutbits =>
    exact runCommand_appends ht (.bind (arg0Where_appends _) fun _ _ =>
      .bind (putBitList_appends _) fun _ _ => .ok _)
  | bwFlush => exact runCommand_appends ht (.bind flush_appends fun _ _ => .ok _)
  | brGetbits =>
    refine runCommand_appends ht (.bind (arg0Where_appends _) fun w u => ?_)
    rcases h : getBits w u with ⟨v, x⟩
    exact .read h (getBits_same w u) (getBits_blind · w) (fun _ hm => by rw [hm]) (.ok (fieldResults v))
  | hdrWrite => exact runCommand_appends ht (.bind hdrWriteBody_appends fun _ _ => .ok _)
  | hdrRead => exact runCommand_appends ht (.bind hdrReadBody_appends fun _ _ => .ok _)
  | encLit =>
    exact runCommand_appends ht (.bind (arg0Where_appends _) fun b _ =>
      .bind (encLitBody_appends b) fun _ _ => .ok _)
  | encMatch =>
    exact runCommand_appends ht (.bind (arg0Where_appends _) fun d _ =>
      .bind (arg1Where_appends _) fun _ _ => .bind (encMatchBody_appends d _) fun _ _ => .ok _)
  | encTokens => exact runCommand_appends ht (.bind encTokensBody_appends fun _ _ => .ok _)
  | treLit =>
    exact runCommand_appends ht (.bind (arg0Where_appends _) fun _ _ =>
      .bind (outWrite_appends _) fun _ _ => .ok _)
  | treCopy =>
    exact runCommand_appends ht (.bind (arg0Where_appends _) fun d _ =>
      .bind (arg1Where_appends _) fun l _ => .bind (require_appends _ _ _) fun _ _ =>
      .bind (copyBytes_appends d l) fun _ _ => .ok _)
  | treStep =>
    exact runCommand_appends ht (.bind needTree_appends fun tree _ => treStepBody_appends tree)
  | treRun => exact runCommand_appends ht treRunBody_appends
  | litTok b => exact finishToken_writes (replayToken_appends (.lit b)).body ht
  | matchTok x len => exact finishToken_writes (replayToken_appends (.pair x len)).body ht

end

/-! ## The statements about IN and OUT -/

/-- Settles O20: an instruction writes the same bytes to OUT and RING, from OUT_LEN or from 0 on, and in both places
RING mirrors OUT. -/
theorem instructionsKeepRingMirror : Obligations.InstructionsKeepRingMirror := by
  intro i s t hs ht
  by_cases hi : i = .softReset
  · subst hi
    cases ht
    exact Mirrors.zero _ _
  · obtain ⟨start, bs, hstart, -, hw, -⟩ := exec_writes hi ht
    have hbefore : Mirrors s.outMem s.ring start := by
      rcases hstart with rfl | rfl
      · exact hs
      · exact Mirrors.zero _ _
    rw [State.ringMirrorsOut_iff, hw.out, hw.ring, hw.outLen]
    exact hbefore.appendAll bs

/-- Settles O15: what the core never writes is `State.hostSide`, of which SOFT_RESET keeps the first four parts. -/
theorem sequencerNeverWritesInputs : Obligations.SequencerNeverWritesInputs := by
  intro i s t ht
  by_cases hi : i = .softReset
  · subst hi
    cases ht
    exact ⟨rfl, rfl, rfl, rfl, fun h => absurd rfl h⟩
  · obtain ⟨_, _, -, -, hw, -⟩ := exec_writes hi ht
    have hhost := hw.hostSide
    simp only [State.hostSide, Prod.mk.injEq] at hhost
    tauto

/-- Settles O16: every index that is not between `start` and OUT_LEN keeps its byte; without bytes all do. -/
theorem outputWritesStayInRange : Obligations.OutputWritesStayInRange := by
  intro i s t a ht
  by_cases hi : i = .softReset
  · subst hi
    cases ht
    exact ⟨fun _ => rfl, fun _ => rfl, fun _ _ _ => rfl⟩
  · obtain ⟨start, bs, -, hbase, hw, -⟩ := exec_writes hi ht
    by_cases hbs : bs = []
    · have hout : t.outMem = s.outMem := by rw [hw.out, hbs]; rfl
      rw [hout]
      exact ⟨fun _ => rfl, fun _ => rfl, fun _ _ _ => rfl⟩
    · refine ⟨fun ha => hw.out_outside (.inr ((hw.belowCap hbs).trans ha)), fun ha => hw.out_outside (.inr ha),
        fun hc hd ha => hw.out_outside (.inl ?_)⟩
      rw [hbase hbs, writeStart_eq, if_neg (not_or.mpr ⟨hc, hd⟩)]
      exact ha

/-- Settles O17: the bytes an instruction writes are fixed before the contents of OUT are. -/
theorem sequencerNeverReadsOut : Obligations.SequencerNeverReadsOut := by
  intro i s t ht
  by_cases hi : i = .softReset
  · subst hi
    cases ht
    exact ⟨0, [], fun h => absurd rfl h, fun _ => rfl⟩
  · obtain ⟨start, bs, -, hbase, hw, hblind⟩ := exec_writes hi ht
    exact ⟨start, bs, fun hbs => ⟨hw.outLen, (hbase hbs).trans (writeStart_eq s i)⟩, hblind⟩

/-- Settles O10: each access is a move that `hostIn` or `hostOut` lets pass, stops or refuses, and a read finds the byte
listed by the write before it. -/
theorem hostReadsBackMemory : Obligations.HostReadsBackMemory := by
  intro s a b
  refine ⟨fun hbusy ha => ?_, fun hbusy ha => ⟨fun hb => ?_, ?_⟩, fun hbusy ha => ?_, fun hbusy ha => ?_,
    fun hbusy => ?_⟩
  · have hin : ¬s.params.nMax.val ≤ a := Nat.not_le.mpr ha
    refine ⟨_, ?_, rfl, ?_⟩ <;> simp [step, hostMove, hostIn, hbusy, hin, inByte]
  · have hin : ¬s.params.outMax.val ≤ a := Nat.not_le.mpr ha
    simp [step, hostMove, hostOut, hbusy, hin, outByte, hb]
  · have hin : ¬s.params.outMax.val ≤ a := Nat.not_le.mpr ha
    refine ⟨_, ?_, rfl, _, ?_, rfl, ?_⟩ <;> simp [step, hostMove, hostOut, hostWriteOut, hbusy, hin, outByte]
  · simp [step, hostMove, hostIn, hbusy, ha]
  · simp [step, hostMove, hostOut, hbusy, ha]
  · simp [step, hostMove, hostIn, hostOut, hbusy]

end Sys2Proof.Machine
end

section
/-! The two encodings: a command word decodes to a command exactly when it is that command's word (R120, R122), and the
bits of a token decode to the token (R125, R126, R127, R263). -/

namespace Sys2Proof

/-! ## Command words -/

/-- The decoder's opcode map is the encoder's, read backwards (R122). -/
theorem decodeOp_eq_some_iff {op : BitVec 8} {i : Instr} : decodeOp op = some i ↔ opcode? i = some op := by
  constructor
  · intro h
    have hop : op = BitVec.ofNat 8 op.toNat := by simp
    unfold decodeOp at h
    split at h <;> cases h <;> rw [hop, ‹op.toNat = _›] <;> rfl
  · intro h
    cases i <;> cases h <;> rfl

/-- A legal word is its OP field, extended (R120). -/
theorem setWidth_op_of_rsv_zero {w : Word} (h : w.extractLsb' 8 56 = 0) :
    (w.extractLsb' 0 8).setWidth 64 = w :=
  calc (w.extractLsb' 0 8).setWidth 64 = 0#56 ++ w.extractLsb' 0 8 := BitVec.setWidth_eq_append (by decide)
    _ = w.extractLsb' 8 56 ++ w.extractLsb' 0 8 := by rw [h]; rfl
    _ = w := BitVec.extractLsb'_append_extractLsb'

@[simp] theorem op_setWidth (op : BitVec 8) : (op.setWidth 64).extractLsb' 0 8 = op := by
  rw [BitVec.setWidth_eq_append (by decide)]
  exact BitVec.extractLsb'_append_eq_right

@[simp] theorem rsv_setWidth (op : BitVec 8) : (op.setWidth 64).extractLsb' 8 56 = 0 := by
  ext i hi
  simp

/-- R120: RSV is 0 and OP is assigned. -/
theorem decodeCommand_eq_ok_iff {w : Word} {i : Instr} :
    decodeCommand w = .ok i ↔ w.extractLsb' 8 56 = 0 ∧ decodeOp (w.extractLsb' 0 8) = some i := by
  unfold decodeCommand
  split_ifs with hrsv
  · cases decodeOp (w.extractLsb' 0 8) <;> simp [hrsv]
  · exact iff_of_false nofun fun h => hrsv h.1

/-- The one word that decodes to a command is the word that encodes it. -/
theorem decodeCommand_eq_ok_iff_encodeCommand {w : Word} {i : Instr} :
    decodeCommand w = .ok i ↔ encodeCommand i = some w := by
  rw [decodeCommand_eq_ok_iff, decodeOp_eq_some_iff, encodeCommand, Option.map_eq_some_iff]
  constructor
  · rintro ⟨hrsv, hop⟩
    exact ⟨_, hop, setWidth_op_of_rsv_zero hrsv⟩
  · rintro ⟨op, hop, rfl⟩
    exact ⟨rsv_setWidth op, by rw [op_setWidth, hop]⟩

/-- The 31 codes of the opcode map (R122). -/
def assignedCodes : List Nat :=
  [0x00, 0x01, 0x02, 0x10, 0x11, 0x20, 0x21, 0x22, 0x23, 0x24, 0x28, 0x29, 0x2A, 0x2B, 0x2C, 0x2D, 0x30, 0x31, 0x32,
    0x38, 0x39, 0x3A, 0x40, 0x41, 0x48, 0x49, 0x4A, 0x50, 0x51, 0x52, 0x53]

theorem encodeCommand_mem_assignedCodes {i : Instr} {w : Word} (h : encodeCommand i = some w) :
    w.toNat ∈ assignedCodes := by
  cases i <;> cases h <;> decide

theorem decodeCommand_isOk_of_mem : ∀ n ∈ assignedCodes, (decodeCommand (BitVec.ofNat 64 n)).isOk = true := by
  decide

/-- R120, R123: the legal words are the assigned codes. -/
theorem decodeCommand_isOk_iff (w : Word) : (∃ i, decodeCommand w = .ok i) ↔ w.toNat ∈ assignedCodes := by
  constructor
  · rintro ⟨i, hi⟩
    exact encodeCommand_mem_assignedCodes (decodeCommand_eq_ok_iff_encodeCommand.mp hi)
  · intro hw
    have hok := decodeCommand_isOk_of_mem _ hw
    rw [BitVec.ofNat_toNat, BitVec.setWidth_eq] at hok
    cases hd : decodeCommand w with
    | ok i => exact ⟨i, rfl⟩
    | error e => rw [hd] at hok; cases hok

/-! ## Tokens -/

/-- A token has bits exactly when its instruction is well-formed against the tree. -/
theorem encodeToken_isSome (tree : Node) (t : Token) : (encodeToken tree t).isSome = t.toInstr.wf tree := by
  cases t with
  | lit b => rfl
  | pair x len => simp [encodeToken, Token.toInstr, Instr.wf, codeOf_isSome]

/-- Reading a list that begins with a token's bits gives the token and the bits after them (R126, R127). -/
theorem readTokenWith_encodeToken {tree : Node} {t : Token} {l : List Bool} (h : encodeToken tree t = some l)
    (rest : List Bool) : readTokenWith listBit tree (l ++ rest) = (.token t, rest) := by
  cases t with
  | lit b =>
    cases h
    simp [readTokenWith, listBit, readBitsWith_bitsOf, Nat.mod_eq_of_lt b.isLt]
  | pair x len =>
    obtain ⟨c, hc, rfl⟩ := Option.map_eq_some_iff.mp h
    simp [readTokenWith, listBit, readBitsWith_bitsOf, walkWith_codeOf tree len hc, Nat.mod_eq_of_lt x.isLt]

theorem decodeToken_encodeToken {tree : Node} {t : Token} {l : List Bool} (h : encodeToken tree t = some l)
    (rest : List Bool) : decodeToken tree (l ++ rest) = .ok (t, rest) := by
  simp only [decodeToken, readTokenWith_encodeToken h]

/-! ## Both encodings -/

/-- Every instruction is a token or has a command word. -/
theorem Instr.token_or_command (i : Instr) : (∃ t : Token, i = t.toInstr) ∨ ∃ w, encodeCommand i = some w := by
  cases i with
  | litTok b => exact .inl ⟨.lit b, rfl⟩
  | matchTok x len => exact .inl ⟨.pair x len, rfl⟩
  | _ => exact .inr ⟨_, rfl⟩

theorem encode_toInstr (tree : Node) (t : Token) : encode tree t.toInstr = (encodeToken tree t).map .bits := by
  cases t <;> rfl

theorem encode_of_encodeCommand (tree : Node) {i : Instr} {w : Word} (h : encodeCommand i = some w) :
    encode tree i = some (.word w) := by
  cases i <;> cases h <;> rfl

/-- A well-formed instruction has an encoding, and it decodes to the instruction. -/
theorem decode_encode {tree : Node} {i : Instr} (h : i.wf tree = true) :
    ∃ e, encode tree i = some e ∧ decode tree e = .ok i := by
  rcases i.token_or_command with ⟨t, rfl⟩ | ⟨w, hw⟩
  · obtain ⟨l, hl⟩ := Option.isSome_iff_exists.mp ((encodeToken_isSome tree t).trans h)
    have hdec := decodeToken_encodeToken hl []
    rw [List.append_nil] at hdec
    exact ⟨.bits l, by rw [encode_toInstr, hl, Option.map_some], by simp only [decode, hdec]⟩
  · exact ⟨.word w, encode_of_encodeCommand tree hw, decodeCommand_eq_ok_iff_encodeCommand.mpr hw⟩

/-! ## The statements about the encodings -/

/-- Settles O1: an instruction is a token or a command, and each kind has its own inverse. -/
theorem decodeInvertsEncode : Obligations.DecodeInvertsEncode :=
  fun _ _ hwf => ⟨decode_encode hwf, fun _ _ rest hl => decodeToken_encodeToken hl rest⟩

/-- Settles O3: each of the 31 words is its command's encoding; the rejected words and the bit strings are run. -/
theorem specWordsDecode : Obligations.SpecWordsDecode := by
  unfold Obligations.SpecWordsDecode
  iterate 31 refine ⟨decodeCommand_eq_ok_iff_encodeCommand.mpr rfl, ?_⟩
  decide

end Sys2Proof

namespace Sys2Proof.Machine

/-- R403: a word that is no command, submitted while the core takes commands, faults ILLEGAL_CMD. -/
theorem onCmdWrite_illegal {w : Word} {s : State} (hbusy : s.status.busy = false) (hfault : s.status.fault = false)
    (hw : ∀ i, decodeCommand w ≠ .ok i) : onCmdWrite w s = .next (takeFault .illegalCmd w (accept s)) := by
  rcases onCmdWrite_cases w s with ⟨hignored, -⟩ | ⟨-, -, ⟨i, hi, -⟩ | ⟨_, -, heq⟩⟩
  · simp [hbusy, hfault] at hignored
  · exact absurd hi (hw i)
  · exact heq

/-- Settles O2: `decodeCommand_isOk_iff`, the encoder as a function, and ILLEGAL_CMD on the host's next move. -/
theorem onlyAssignedWordsAreCommands : Obligations.OnlyAssignedWordsAreCommands := by
  refine ⟨decodeCommand_isOk_iff, fun w w' i hw hw' => ?_, fun s w ops hp hrst hbusy hfault hw => ?_⟩
  · rw [decodeCommand_eq_ok_iff_encodeCommand] at hw hw'
    exact Option.some.inj (hw.symm.trans hw')
  · have hmove : step s = onCmdWrite w { s with pending := ops } := by
      rw [step_move hp, hostMove, hostWrite, if_neg (by simp [hrst])]
    rw [hmove, onCmdWrite_illegal (s := { s with pending := ops }) hbusy hfault hw]
    simp [takeFault, accept, FaultCode.code, hbusy]

end Sys2Proof.Machine
end

section
/-! The match finder (R200–R212): how its commands start and end, what an extension says of the input, the chain walk as
a fold over the candidates it visits, and what an insertion writes. -/

namespace Sys2Proof.Machine

/-! ## Commands that start -/

section
variable {s : State}

/-- A command whose start checks pass is its body and completion (R403). -/
theorem runCommand_of_ready (h : s.Ready) (body : State → Res Results) : runCommand body s = finish (body s) := by
  rcases startChecks_cases s with ⟨hin, -⟩ | ⟨-, hout, -⟩ | ⟨-, -, hok⟩
  · exact absurd h.1 (Nat.not_le.mpr hin)
  · exact absurd h.2 (Nat.not_le.mpr hout)
  · exact runCommand_of_checks hok

/-- A command with an operand in ARG0 runs its body on it (R121). -/
theorem runCommand_arg0_of_ok (h : s.Ready) {ok : State → Nat → Bool} (hok : ok s s.arg0.toNat = true)
    (f : Nat → State → Res Results) :
    runCommand (fun s => (arg0Where (ok s) s).bind f) s = finish (f s.arg0.toNat s) := by
  rw [runCommand_of_ready h, arg0Where, if_pos hok, Res.bind_ok]

/-- Outside its domain the operand faults BAD_ARG with FINFO 0, and the body does not run (R121). -/
theorem runCommand_arg0_of_not_ok (h : s.Ready) {ok : State → Nat → Bool} (hok : ok s s.arg0.toNat = false)
    (f : Nat → State → Res Results) :
    runCommand (fun s => (arg0Where (ok s) s).bind f) s = .next (faulted 0x04 0 s) := by
  rw [runCommand_of_ready h, arg0Where, if_neg (Bool.eq_false_iff.mp hok)]
  rfl

/-- A position command at p < n (R209, R210, R211). -/
theorem runCommand_argPosition_of_lt (h : s.Ready) (hp : s.arg0.toNat < s.inLen.toNat)
    (f : Nat → State → Res Results) :
    runCommand (fun s => (argPosition s).bind f) s = finish (f s.arg0.toNat s) :=
  runCommand_arg0_of_ok h (ok := fun s p => decide (p < s.inLen.toNat)) (decide_eq_true hp) f

/-- A position command at p ≥ n. -/
theorem runCommand_argPosition_of_le (h : s.Ready) (hp : s.inLen.toNat ≤ s.arg0.toNat)
    (f : Nat → State → Res Results) :
    runCommand (fun s => (argPosition s).bind f) s = .next (faulted 0x04 0 s) :=
  runCommand_arg0_of_not_ok h (ok := fun s p => decide (p < s.inLen.toNat))
    (decide_eq_false (Nat.not_lt.mpr hp)) f

/-- MF_SEARCH at p < n (R209). -/
theorem exec_mfSearch_of_lt (h : s.Ready) (hp : s.arg0.toNat < s.inLen.toNat) :
    exec .mfSearch s = .next (complete (pairResults (search s s.arg0.toNat)) s) :=
  runCommand_argPosition_of_lt h hp _

/-- MF_INSERT at p < n (R210). -/
theorem exec_mfInsert_of_lt (h : s.Ready) (hp : s.arg0.toNat < s.inLen.toNat) :
    exec .mfInsert s = .next (complete .none (insertPos s s.arg0.toNat)) :=
  runCommand_argPosition_of_lt h hp _

/-- MF_STEP at p < n (R211). -/
theorem exec_mfStep_of_lt (h : s.Ready) (hp : s.arg0.toNat < s.inLen.toNat) :
    exec .mfStep s = .next (complete (pairResults (search s s.arg0.toNat)) (insertPos s s.arg0.toNat)) :=
  runCommand_argPosition_of_lt h hp _

end

/-! ## Hashable positions -/

theorem hashable_iff {s : State} {p : Nat} : hashable s p = true ↔ p + 3 ≤ s.inLen.toNat := decide_eq_true_iff

/-- The default HASH3 as a number: the mask cuts the shifts to 16 bits (R200). -/
theorem hash3Default_toNat (b₀ b₁ b₂ : Byte) :
    (hash3Default b₀ b₁ b₂).toNat = ((b₀.toNat <<< 8) ^^^ (b₁.toNat <<< 4) ^^^ b₂.toNat) &&& 0xFFFF := by
  have hlow (b : Byte) : (b.setWidth 16).toNat = b.toNat := BitVec.toNat_setWidth_of_le (by decide)
  have hb₂ : b₂.toNat % 2 ^ 16 = b₂.toNat := Nat.mod_eq_of_lt (b₂.isLt.trans (by decide))
  rw [Nat.and_two_pow_sub_one_eq_mod _ 16, Nat.xor_mod_two_pow, Nat.xor_mod_two_pow, hb₂]
  simp only [hash3Default, BitVec.toNat_xor, BitVec.toNat_shiftLeft, hlow]

/-! ## Extension (R201) -/

/-- The bytes run through agree. -/
theorem inByte_eq_of_lt_matchRun (s : State) {k q p i : Nat} (hi : i < matchRun s k q p) :
    inByte s (q + i) = inByte s (p + i) := by
  induction k generalizing q p i with
  | zero => exact absurd hi (Nat.not_lt_zero i)
  | succ k ih =>
    unfold matchRun at hi
    split_ifs at hi with heq
    · cases i with
      | zero => exact heq
      | succ i =>
        have := ih (Nat.lt_of_succ_lt_succ hi)
        rwa [Nat.add_right_comm q, Nat.add_right_comm p] at this
    · exact absurd hi (Nat.not_lt_zero i)

/-- A run ends at its bound or at a mismatch. -/
theorem matchRun_maximal (s : State) (k q p : Nat) :
    matchRun s k q p = k ∨ inByte s (q + matchRun s k q p) ≠ inByte s (p + matchRun s k q p) := by
  induction k generalizing q p with
  | zero => exact .inl rfl
  | succ k ih =>
    unfold matchRun
    split_ifs with heq
    · rcases ih (q + 1) (p + 1) with hk | hne
      · exact .inl (congrArg Nat.succ hk)
      · right
        rwa [Nat.add_right_comm q, Nat.add_right_comm p] at hne
    · exact .inr heq

theorem add_extend_le (s : State) (q : Nat) {p : Nat} (hp : p ≤ s.inLen.toNat) :
    p + extend s q p ≤ s.inLen.toNat := by
  have hle : extend s q p ≤ s.inLen.toNat - p := (matchRun_le s _ q p).trans (Nat.min_le_left _ _)
  omega

theorem inByte_eq_of_lt_extend (s : State) {q p i : Nat} (hi : i < extend s q p) :
    inByte s (q + i) = inByte s (p + i) :=
  inByte_eq_of_lt_matchRun s hi

/-- An extension stops at MAX_MATCH, at the end of the input or at a mismatch. -/
theorem extend_maximal (s : State) (q : Nat) {p : Nat} (hp : p ≤ s.inLen.toNat) :
    extend s q p = 65535 ∨ p + extend s q p = s.inLen.toNat ∨
      inByte s (q + extend s q p) ≠ inByte s (p + extend s q p) := by
  rcases matchRun_maximal s (min (s.inLen.toNat - p) Config.maxMatch) q p with hbound | hne
  · have hlen : extend s q p = min (s.inLen.toNat - p) 65535 := hbound
    omega
  · exact .inr (.inr hne)

/-! ## The chain walk (R202, R205) -/

theorem visited_length_le (s : State) (p k : Nat) (q : Option Word) : (visited s p k q).length ≤ k := by
  induction k generalizing q with
  | zero => exact Nat.le_refl 0
  | succ k ih =>
    cases q with
    | none => exact Nat.zero_le _
    | some q =>
      unfold visited
      split_ifs
      · exact Nat.zero_le _
      · exact Nat.succ_le_succ (ih _)

/-- No entry visited is a backward candidate outside the window. -/
theorem dist_le_of_mem_visited {s : State} {p k : Nat} {e : Option Word} {q : Nat} (hq : q ∈ visited s p k e)
    (hlt : q < p) : p - q ≤ 32768 := by
  induction k generalizing e with
  | zero => cases hq
  | succ k ih =>
    cases e with
    | none => cases hq
    | some e =>
      unfold visited at hq
      split_ifs at hq with hfar
      · cases hq
      · rcases List.mem_cons.mp hq with rfl | hq
        · exact Nat.not_lt.mp fun hwin => hfar ⟨hlt, hwin⟩
        · exact ih hq

/-- What the walk keeps after the candidate `q`: the longer match, and of two equally long ones the earlier. -/
def keepLonger (s : State) (p : Nat) (best : Nat × Nat) (q : Nat) : Nat × Nat :=
  if best.2 < extend s q p then (p - q, extend s q p) else best

/-- The walk folds `keepLonger` over the backward candidates among the entries visited. -/
theorem searchLoop_eq_foldl (s : State) (p k : Nat) (q : Option Word) (best : Nat × Nat) :
    searchLoop s p k q best = ((visited s p k q).filter (fun q => decide (q < p))).foldl (keepLonger s p) best := by
  induction k generalizing q best with
  | zero => rfl
  | succ k ih =>
    cases q with
    | none => rfl
    | some q =>
      unfold searchLoop visited
      by_cases hlt : q.toNat < p
      · by_cases hfar : Config.window < p - q.toNat
        · rw [if_pos hlt, if_pos hfar, if_pos ⟨hlt, hfar⟩]
          rfl
        · rw [if_pos hlt, if_neg hfar, if_neg fun h => hfar h.2, List.filter_cons,
            if_pos (decide_eq_true hlt)]
          exact ih _ _
      · rw [if_neg hlt, if_neg fun h => hlt h.1, List.filter_cons, if_neg (by simpa using hlt)]
        exact ih _ _

theorem search_eq_foldl (s : State) (p : Nat) :
    search s p = if ((candidates s p).foldl (keepLonger s p) (0, 0)).2 < 3 then (0, 0)
      else (candidates s p).foldl (keepLonger s p) (0, 0) := by
  by_cases hp : hashable s p = true
  · simp only [search, candidates, if_pos hp, searchLoop_eq_foldl]
  · simp only [search, candidates, if_neg hp]
    rfl

/-- `q` is the first of the longest among the candidates `l` at `p`. -/
def FirstLongest (s : State) (p : Nat) (l : List Nat) (q : Nat) : Prop :=
  ∃ pre post, l = pre ++ q :: post ∧
    (∀ q' ∈ pre, extend s q' p < extend s q p) ∧ ∀ q' ∈ post, extend s q' p ≤ extend s q p

/-- The fold keeps what it began with when no candidate is longer, and otherwise ends at the first of the longest. -/
theorem foldl_keepLonger (s : State) (p : Nat) (l : List Nat) (best : Nat × Nat) :
    (l.foldl (keepLonger s p) best = best ∧ ∀ q ∈ l, extend s q p ≤ best.2) ∨
      ∃ q, FirstLongest s p l q ∧ best.2 < extend s q p ∧
        l.foldl (keepLonger s p) best = (p - q, extend s q p) := by
  induction l generalizing best with
  | nil => exact .inl ⟨rfl, nofun⟩
  | cons x l ih =>
    rw [List.foldl_cons, keepLonger]
    split_ifs with hx
    · rcases ih (p - x, extend s x p) with ⟨heq, hle⟩ | ⟨q, ⟨pre, post, rfl, hpre, hpost⟩, hlt, heq⟩
      · exact .inr ⟨x, ⟨[], l, rfl, nofun, hle⟩, hx, heq⟩
      · exact .inr ⟨q, ⟨x :: pre, post, rfl, List.forall_mem_cons.mpr ⟨hlt, hpre⟩, hpost⟩, hx.trans hlt, heq⟩
    · have hx := Nat.not_lt.mp hx
      rcases ih best with ⟨heq, hle⟩ | ⟨q, ⟨pre, post, rfl, hpre, hpost⟩, hlt, heq⟩
      · exact .inl ⟨heq, List.forall_mem_cons.mpr ⟨hx, hle⟩⟩
      · exact .inr ⟨q, ⟨x :: pre, post, rfl, List.forall_mem_cons.mpr ⟨hx.trans_lt hlt, hpre⟩, hpost⟩, hlt, heq⟩

/-- All that Search can answer (R202): "no match", when no candidate extends to 3 bytes, or the first of the longest. -/
theorem search_cases (s : State) (p : Nat) :
    (search s p = (0, 0) ∧ ∀ q ∈ candidates s p, extend s q p < 3) ∨
      ∃ q, FirstLongest s p (candidates s p) q ∧ 3 ≤ extend s q p ∧ search s p = (p - q, extend s q p) := by
  rw [search_eq_foldl]
  rcases foldl_keepLonger s p (candidates s p) (0, 0) with ⟨heq, hle⟩ | ⟨q, hq, -, heq⟩ <;> rw [heq]
  · exact .inl ⟨rfl, fun q hq => (hle q hq).trans_lt (by decide)⟩
  · by_cases hlen : extend s q p < 3
    · obtain ⟨pre, post, hl, hpre, hpost⟩ := hq
      refine .inl ⟨if_pos hlen, fun q' hq' => ?_⟩
      rw [hl, List.mem_append, List.mem_cons] at hq'
      rcases hq' with hq' | rfl | hq'
      · exact (hpre q' hq').trans hlen
      · exact hlen
      · exact (hpost q' hq').trans_lt hlen
    · exact .inr ⟨q, hq, Nat.not_lt.mp hlen, if_neg hlen⟩

theorem FirstLongest.mem {s : State} {p q : Nat} {l : List Nat} (h : FirstLongest s p l q) : q ∈ l := by
  obtain ⟨pre, post, rfl, -⟩ := h
  simp

/-- A candidate lies before a hashable position, inside the window. -/
theorem mem_candidates {s : State} {p q : Nat} (h : q ∈ candidates s p) :
    p + 3 ≤ s.inLen.toNat ∧ q < p ∧ p - q ≤ 32768 := by
  unfold candidates at h
  split_ifs at h with hp
  · obtain ⟨hvis, hlt⟩ := List.mem_filter.mp h
    have hlt := of_decide_eq_true hlt
    exact ⟨hashable_iff.mp hp, hlt, dist_le_of_mem_visited hvis hlt⟩
  · cases h

/-- With HEAD all NIL there is nothing to find (R207). -/
theorem search_of_head_nil {s : State} (h : s.head = []) (p : Nat) : search s p = (0, 0) := by
  have hcand : candidates s p = [] := by
    unfold candidates headAt
    rw [h]
    exact ite_self _
  rw [search_eq_foldl, hcand]
  rfl

/-! ## Insertion (R203) -/

theorem insertPos_frame (s : State) (p : Nat) :
    insertPos s p = { s with head := (insertPos s p).head, prev := (insertPos s p).prev } := by
  unfold insertPos
  split_ifs <;> rfl

theorem insertPos_of_not_hashable {s : State} {p : Nat} (h : s.inLen.toNat < p + 3) : insertPos s p = s :=
  if_neg fun hp => Nat.not_le.mpr h (hashable_iff.mp hp)

section
variable {s : State} {p : Nat}

theorem headAt_insertPos (h : p + 3 ≤ s.inLen.toNat) (b : Nat) :
    headAt (insertPos s p) b = if b = hashAt s p then some (BitVec.ofNat 64 p) else headAt s b := by
  rw [insertPos, if_pos (hashable_iff.mpr h)]
  exact Sparse.get?_set _ _ _ _

theorem prevAt_insertPos_same (h : p + 3 ≤ s.inLen.toNat) : prevAt (insertPos s p) p = headAt s (hashAt s p) := by
  rw [insertPos, if_pos (hashable_iff.mpr h), prevAt, Sparse.get?_set_same]
  rfl

theorem prevAt_insertPos_other (h : p + 3 ≤ s.inLen.toNat) {q : Nat} (hq : q % 32768 ≠ p % 32768) :
    prevAt (insertPos s p) q = prevAt s q := by
  rw [insertPos, if_pos (hashable_iff.mpr h), prevAt, Sparse.get?_set_other _ _ hq]
  rfl

end

/-! ## The statements about the match finder -/

/-- Settles O26: `search_cases`, with the bound on the walk and the window of a candidate. -/
theorem searchTakesFirstLongestCandidate : Obligations.SearchTakesFirstLongestCandidate := by
  intro s p
  refine ⟨visited_length_le s p 64 _, ?_⟩
  rcases search_cases s p with ⟨hnone, hshort⟩ | ⟨q, hfirst, hlen, hfound⟩
  · exact ⟨iff_of_true hnone hshort, fun h => absurd hnone h⟩
  · have hmem := hfirst.mem
    obtain ⟨-, -, hwin⟩ := mem_candidates hmem
    obtain ⟨pre, post, hl, hpre, hpost⟩ := hfirst
    refine ⟨iff_of_false (fun h => ?_) fun h => absurd (h q hmem) (Nat.not_lt.mpr hlen), fun _ =>
      ⟨pre, q, post, hl, hfound, hwin, hpre, hpost⟩⟩
    have hzero : extend s q p = 0 := congrArg Prod.snd (hfound.symm.trans h)
    omega

/-- Settles O25: the result of `search_cases` is a candidate's extension, which is a true and maximal match. -/
theorem mfSearchReportsTrueMatch : Obligations.MfSearchReportsTrueMatch := by
  intro s hready
  refine ⟨fun hp => ⟨_, _, exec_mfSearch_of_lt hready hp, rfl, ?_⟩, fun hp => runCommand_argPosition_of_le hready hp _⟩
  rcases search_cases s s.arg0.toNat with ⟨hnone, -⟩ | ⟨q, hfirst, hlen, hfound⟩
  · exact .inl (by rw [hnone]; exact ⟨rfl, rfl⟩)
  · obtain ⟨-, hlt, hwin⟩ := mem_candidates hfirst.mem
    have hq : s.arg0.toNat - (s.arg0.toNat - q) = q := Nat.sub_sub_self hlt.le
    rw [hfound]
    dsimp only
    rw [hq]
    exact .inr ⟨Nat.sub_pos_of_lt hlt, hwin, Nat.sub_le _ _, hlen, extend_le s q _, add_extend_le s q hp.le,
      fun i hi => inByte_eq_of_lt_extend s hi, extend_maximal s q hp.le⟩

/-- Settles O23: each body is one update, and an empty HEAD has no candidates. -/
theorem clearCommandsClearTheirUnit : Obligations.ClearCommandsClearTheirUnit :=
  ⟨decodeCommand_eq_ok_iff_encodeCommand.mpr rfl, decodeCommand_eq_ok_iff_encodeCommand.mpr rfl,
    decodeCommand_eq_ok_iff_encodeCommand.mpr rfl, fun _ hready =>
      ⟨runCommand_of_ready hready _, search_of_head_nil rfl, runCommand_of_ready hready _,
        BitVec.eq_of_toNat_eq (tblInfo_toNat (Nat.zero_le _)), runCommand_of_ready hready _,
        BitVec.eq_of_toNat_eq (bwState_toNat _)⟩⟩

/-- Settles O24: RES0 is HASH3 of the three bytes, whose default is `hash3Default_toNat`. -/
theorem mfHashComputesBucket : Obligations.MfHashComputesBucket := by
  refine ⟨decodeCommand_eq_ok_iff_encodeCommand.mpr rfl, fun s hready => ⟨fun hp => ?_, fun hp => ?_⟩⟩
  · refine ⟨_, ?_, rfl, rfl, fun hdefault => ?_⟩
    · rw [← BitVec.ofNat_toNat]
      exact runCommand_arg0_of_ok hready (ok := hashable) (hashable_iff.mpr hp) _
    · rw [hdefault]
      exact hash3Default_toNat _ _ _
  · exact runCommand_arg0_of_not_ok hready (ok := hashable) (decide_eq_false (Nat.not_le.mpr hp)) _

/-- Settles O27: what an insertion writes, and the positions at which it writes nothing. -/
theorem mfInsertPushesPosition : Obligations.MfInsertPushesPosition := by
  refine ⟨decodeCommand_eq_ok_iff_encodeCommand.mpr rfl, fun s hready => ⟨fun hp => ?_, fun hp hshort => ?_, fun hp =>
    runCommand_argPosition_of_le hready hp _⟩⟩
  · refine ⟨_, exec_mfInsert_of_lt hready (by omega), ?_, fun h => ?_, ?_, fun q hq => ?_⟩
    · exact congrArg (complete .none) (insertPos_frame s _)
    · exact (headAt_insertPos hp h).trans (by rw [BitVec.ofNat_toNat, BitVec.setWidth_eq])
    · exact prevAt_insertPos_same hp
    · exact prevAt_insertPos_other hp hq
  · rw [exec_mfInsert_of_lt hready hp, insertPos_of_not_hashable hshort]
    rfl

/-- Settles O28: all three commands act on the same state, and an insertion changes HEAD and PREV only. -/
theorem mfStepSearchesThenInserts : Obligations.MfStepSearchesThenInserts := by
  refine ⟨decodeCommand_eq_ok_iff_encodeCommand.mpr rfl, fun s hready => ⟨fun hp => ?_, fun hp =>
    runCommand_argPosition_of_le hready hp _⟩⟩
  exact ⟨_, _, _, exec_mfSearch_of_lt hready hp, exec_mfInsert_of_lt hready hp, exec_mfStep_of_lt hready hp,
    congrArg (complete (pairResults (search s s.arg0.toNat))) (insertPos_frame s _)⟩

end Sys2Proof.Machine
end

section
/-! Token derivation (R230–R233): the match that the derivation records at each position, the two-phase scan as the
loop of TOK_DERIVE, and the input that the derived tokens denote. -/

namespace Sys2Proof.Machine

/-! ## Bytes of IN -/

theorem inBytes_length (s : State) (a k : Nat) : (inBytes s a k).length = k := by
  induction k generalizing a with
  | zero => rfl
  | succ k ih => exact congrArg Nat.succ (ih (a + 1))

/-- The bytes of a longer span end with the byte after the shorter one. -/
theorem inBytes_succ (s : State) (a k : Nat) : inBytes s a (k + 1) = inBytes s a k ++ [inByte s (a + k)] := by
  induction k generalizing a with
  | zero => rfl
  | succ k ih =>
    rw [inBytes, ih (a + 1), Nat.add_right_comm]
    rfl

theorem inBytes_getD (s : State) {a k i : Nat} (hi : i < k) (d : Byte) :
    (inBytes s a k).getD i d = inByte s (a + i) := by
  induction k generalizing a i with
  | zero => exact absurd hi (Nat.not_lt_zero i)
  | succ k ih =>
    cases i with
    | zero => rfl
    | succ i =>
      have := ih (a := a + 1) (Nat.lt_of_succ_lt_succ hi)
      rwa [Nat.add_right_comm] at this

/-! ## The match recorded at a position (R230, phase 1) -/

/-- The state in which the derivation searches at `p`: HEAD emptied, then the positions below `p` inserted. -/
def inserted (s : State) (p : Nat) : State := (List.range p).foldl insertPos (mfClearBody s)

/-- MATCH[p] of R230. -/
def matchAt (s : State) (p : Nat) : Nat × Nat := search (inserted s p) p

theorem inserted_succ (s : State) (p : Nat) : inserted s (p + 1) = insertPos (inserted s p) p := by
  rw [inserted, List.range_succ, List.foldl_append]
  rfl

theorem inserted_inLen (s : State) : inserted s s.inLen.toNat = insertAll s := rfl

/-- Insertions change HEAD and PREV only, so the input stays. -/
theorem inserted_same (s : State) (p : Nat) : SameButFinder s (inserted s p) := by
  induction p with
  | zero => rfl
  | succ p ih =>
    rw [inserted_succ]
    exact ih.trans (insertPos_same _ p)

theorem bestMatches_inserted (s : State) (k p : Nat) :
    bestMatches k p (inserted s p) = (List.range' p k).map (matchAt s) := by
  induction k generalizing p with
  | zero => rfl
  | succ k ih =>
    rw [bestMatches, ← inserted_succ, ih, List.range'_succ]
    rfl

theorem derive_eq (s : State) :
    derive s = greedyScan s ((List.range' 0 s.inLen.toNat).map (matchAt s)) 0 0 :=
  congrArg (greedyScan s · 0 0) (bestMatches_inserted s s.inLen.toNat 0)

/-! ## The recorded matches are true (R212) -/

/-- A search result at `p` that counts as a match gives a legal distance within the input before `p`, and the bytes
at that distance are those from `p`, to the end of the input at most. -/
def TrueMatch (s : State) (p : Nat) (r : Nat × Nat) : Prop :=
  3 ≤ r.2 → 1 ≤ r.1 ∧ r.1 ≤ 32768 ∧ r.1 ≤ p ∧ r.2 ≤ 65535 ∧ p + r.2 ≤ s.inLen.toNat ∧
    ∀ i < r.2, inByte s (p - r.1 + i) = inByte s (p + i)

theorem search_trueMatch (s : State) (p : Nat) : TrueMatch s p (search s p) := by
  rcases search_cases s p with ⟨hnone, -⟩ | ⟨q, hfirst, -, hfound⟩
  · rw [hnone]
    exact fun h => absurd h (by decide)
  · obtain ⟨hp, hlt, hwin⟩ := mem_candidates hfirst.mem
    rw [hfound]
    refine fun _ => ⟨Nat.sub_pos_of_lt hlt, hwin, Nat.sub_le _ _, extend_le s q p, add_extend_le s q (by omega), ?_⟩
    intro i hi
    rw [Nat.sub_sub_self hlt.le]
    exact inByte_eq_of_lt_extend s hi

theorem TrueMatch.of_same {s t : State} (h : SameButFinder s t) {p : Nat} {r : Nat × Nat} (hr : TrueMatch t p r) :
    TrueMatch s p r := by
  rw [SameButFinder] at h
  rw [h] at hr
  exact hr

theorem matchAt_trueMatch (s : State) (p : Nat) : TrueMatch s p (matchAt s p) :=
  (search_trueMatch _ p).of_same (inserted_same s p)

/-! ## The scan is the loop of TOK_DERIVE (R231) -/

/-- The state with another TOKBUF. -/
def State.withTokens (s : State) (ts : List Token) : State := { s with tokbuf := ts }

section
variable (s : State) (ts : List Token)

theorem matchRun_withTokens (k q p : Nat) : matchRun (s.withTokens ts) k q p = matchRun s k q p := by
  induction k generalizing q p with
  | zero => rfl
  | succ k ih =>
    rw [matchRun, ih]
    rfl

theorem searchLoop_withTokens (p k : Nat) (q : Option Word) (best : Nat × Nat) :
    searchLoop (s.withTokens ts) p k q best = searchLoop s p k q best := by
  induction k generalizing q best with
  | zero => rfl
  | succ k ih =>
    cases q with
    | none => rfl
    | some q =>
      simp only [searchLoop, ih, extend, matchRun_withTokens]
      rfl

/-- No search reads TOKBUF. -/
theorem search_withTokens (p : Nat) : search (s.withTokens ts) p = search s p := by
  rw [search, searchLoop_withTokens]
  rfl

theorem insertPos_withTokens (p : Nat) : insertPos (s.withTokens ts) p = (insertPos s p).withTokens ts := by
  rw [insertPos, insertPos, apply_ite (State.withTokens · ts)]
  rfl

end

theorem tokenAt_inserted (s : State) (q p : Nat) (r : Nat × Nat) : tokenAt (inserted s q) p r = tokenAt s p r := by
  rw [inserted_same s q]
  rfl

theorem advanceOf_of_match {r : Nat × Nat} (h : 3 ≤ r.2) : advanceOf r = r.2 := if_pos h

theorem advanceOf_of_literal {r : Nat × Nat} (h : ¬ 3 ≤ r.2) : advanceOf r = 1 := if_neg h

theorem advanceOf_pos (r : Nat × Nat) : 1 ≤ advanceOf r := by
  by_cases h : 3 ≤ r.2
  · rw [advanceOf_of_match h]
    omega
  · rw [advanceOf_of_literal h]

/-- A covered position is inserted and gives no token. -/
theorem deriveLoop_covered (s : State) (k p skip : Nat) (ts : List Token) :
    deriveLoop (k + 1) p (p + (skip + 1)) ((inserted s p).withTokens ts) =
      deriveLoop k (p + 1) (p + 1 + skip) ((inserted s (p + 1)).withTokens ts) := by
  rw [deriveLoop, if_neg (by omega), insertPos_withTokens, ← inserted_succ, Nat.add_right_comm]
  rfl

/-- A position that is due gives the token of its recorded match and is inserted. -/
theorem deriveLoop_due (s : State) (k p : Nat) (ts : List Token) :
    deriveLoop (k + 1) p p ((inserted s p).withTokens ts) =
      deriveLoop k (p + 1) (p + 1 + (advanceOf (matchAt s p) - 1))
        ((inserted s (p + 1)).withTokens (ts ++ [tokenAt s p (matchAt s p)])) := by
  have hnext : p + 1 + (advanceOf (matchAt s p) - 1) = p + advanceOf (matchAt s p) := by
    have := advanceOf_pos (matchAt s p)
    omega
  rw [hnext, inserted_succ, ← insertPos_withTokens, ← tokenAt_inserted s p, deriveLoop, if_pos rfl,
    search_withTokens]
  rfl

/-- From position `p`, with `skip` positions covered by the last token, the loop appends the tokens of the scan and
inserts every position, the covered ones too. -/
theorem deriveLoop_inserted (s : State) (k p skip : Nat) (ts : List Token) :
    deriveLoop k p (p + skip) ((inserted s p).withTokens ts) =
      (inserted s (p + k)).withTokens (ts ++ greedyScan s ((List.range' p k).map (matchAt s)) p skip) := by
  induction k generalizing p skip ts with
  | zero =>
    rw [List.range'_zero, List.map_nil, greedyScan, List.append_nil]
    rfl
  | succ k ih =>
    rw [List.range'_succ, List.map_cons, Nat.add_comm k 1, ← Nat.add_assoc, Nat.add_comm 1 k]
    cases skip with
    | succ skip => rw [deriveLoop_covered, ih, greedyScan]
    | zero => rw [Nat.add_zero p, deriveLoop_due, ih, greedyScan, List.append_assoc, List.singleton_append]

theorem tokDeriveBody_eq (s : State) : tokDeriveBody s = (insertAll s).withTokens (derive s) := by
  have hloop := deriveLoop_inserted s s.inLen.toNat 0 0 []
  rw [Nat.zero_add s.inLen.toNat, List.nil_append, inserted_inLen, ← derive_eq] at hloop
  exact hloop

/-! ## What the scan's tokens denote (R232) -/

/-- A backward copy of bytes that repeat the input at distance `d` gives the input's next bytes. -/
theorem copyOnto_inBytes (s : State) {d n p : Nat} (hd : 1 ≤ d) (hp : d ≤ p)
    (heq : ∀ i < n, inByte s (p - d + i) = inByte s (p + i)) :
    copyOnto d n (inBytes s 0 p) = inBytes s 0 (p + n) := by
  induction n generalizing p with
  | zero => rfl
  | succ n ih =>
    have hbyte : (inBytes s 0 p).getD (p - d) 0 = inByte s p := by
      rw [inBytes_getD s (by omega), Nat.zero_add]
      exact heq 0 (Nat.succ_pos n)
    have hnext : ∀ i < n, inByte s (p + 1 - d + i) = inByte s (p + 1 + i) := fun i hi => by
      have := heq (i + 1) (Nat.succ_lt_succ hi)
      rwa [show p - d + (i + 1) = p + 1 - d + i by omega, show p + (i + 1) = p + 1 + i by omega] at this
    have hsucc : inBytes s 0 p ++ [inByte s p] = inBytes s 0 (p + 1) := by rw [inBytes_succ, Nat.zero_add]
    rw [copyOnto, inBytes_length, hbyte, hsucc, ih (Nat.le_succ_of_le hp) hnext,
      Nat.succ_add_eq_add_succ]

/-- The token of a true match, or the literal where there is none, denotes the bytes it covers. -/
theorem expand_tokenAt (s : State) {p : Nat} {r : Nat × Nat} (h : TrueMatch s p r) (ts : List Token) :
    expand (tokenAt s p r :: ts) (inBytes s 0 p) = expand ts (inBytes s 0 (p + advanceOf r)) := by
  by_cases hlen : 3 ≤ r.2
  · obtain ⟨hpos, hwin, hback, hmax, -, heq⟩ := h hlen
    have htok : tokenAt s p r = .pair (BitVec.ofNat 15 (r.1 - 1)) (BitVec.ofNat 16 r.2) := if_pos hlen
    have hdist : distOf (BitVec.ofNat 15 (r.1 - 1)) = r.1 := by
      rw [distOf, BitVec.toNat_ofNat, Nat.mod_eq_of_lt (by omega)]
      omega
    have hlen16 : (BitVec.ofNat 16 r.2).toNat = r.2 := Nat.mod_eq_of_lt (Nat.lt_succ_of_le hmax)
    rw [htok, expand, hdist, inBytes_length, if_pos hback, hlen16, copyOnto_inBytes s hpos hback heq,
      advanceOf_of_match hlen]
  · have htok : tokenAt s p r = .lit (inByte s p) := if_neg hlen
    rw [htok, expand, advanceOf_of_literal hlen, inBytes_succ, Nat.zero_add]

/-- A token ends within the input. -/
theorem TrueMatch.add_advanceOf_le {s : State} {p : Nat} {r : Nat × Nat} (h : TrueMatch s p r)
    (hp : p < s.inLen.toNat) : p + advanceOf r ≤ s.inLen.toNat := by
  by_cases hlen : 3 ≤ r.2
  · obtain ⟨-, -, -, -, hend, -⟩ := h hlen
    rwa [advanceOf_of_match hlen]
  · rwa [advanceOf_of_literal hlen]

/-- Whatever true matches are recorded, the scan's tokens from `p` complete the input, `skip` bytes of it beyond `p`
being there already. -/
theorem expand_greedyScan {s : State} {f : Nat → Nat × Nat} (hf : ∀ q, TrueMatch s q (f q)) {k p skip : Nat}
    (hend : p + k = s.inLen.toNat) (hskip : skip ≤ k) :
    expand (greedyScan s ((List.range' p k).map f) p skip) (inBytes s 0 (p + skip)) =
      some (inBytes s 0 s.inLen.toNat) := by
  induction k generalizing p skip with
  | zero =>
    obtain rfl : skip = 0 := Nat.le_zero.mp hskip
    rw [← hend]
    rfl
  | succ k ih =>
    rw [List.range'_succ, List.map_cons]
    cases skip with
    | succ skip =>
      rw [greedyScan, show p + (skip + 1) = p + 1 + skip by omega]
      exact ih (by omega) (by omega)
    | zero =>
      have hpos := advanceOf_pos (f p)
      have hle := (hf p).add_advanceOf_le (by omega)
      rw [greedyScan, Nat.add_zero p, expand_tokenAt s (hf p),
        show p + advanceOf (f p) = p + 1 + (advanceOf (f p) - 1) by omega]
      exact ih (by omega) (by omega)

/-- The scan gives tokens of the recorded matches only. -/
theorem mem_greedyScan {s : State} {ms : List (Nat × Nat)} {p skip : Nat} {t : Token}
    (h : t ∈ greedyScan s ms p skip) : ∃ q, ∃ m ∈ ms, t = tokenAt s q m := by
  induction ms generalizing p skip with
  | nil => cases h
  | cons m ms ih =>
    cases skip with
    | succ skip =>
      obtain ⟨q, m', hm, ht⟩ := ih h
      exact ⟨q, m', List.mem_cons_of_mem m hm, ht⟩
    | zero =>
      rcases List.mem_cons.mp h with rfl | h
      · exact ⟨p, m, List.mem_cons_self, rfl⟩
      · obtain ⟨q, m', hm, ht⟩ := ih h
        exact ⟨q, m', List.mem_cons_of_mem m hm, ht⟩

theorem greedyScan_length_le (s : State) (ms : List (Nat × Nat)) (p skip : Nat) :
    (greedyScan s ms p skip).length ≤ ms.length := by
  induction ms generalizing p skip with
  | nil => exact Nat.le_refl 0
  | cons m ms ih =>
    cases skip with
    | succ skip => exact Nat.le_succ_of_le (ih _ _)
    | zero => exact Nat.succ_le_succ (ih _ _)

/-! ## TOK_READ (R233) -/

section
variable {s : State} {α : Type} {l : State → List α}

/-- A command that reads a list entry at ARG0 runs its body on it. -/
theorem runCommand_argIndexed_of_some (h : s.Ready) {a : α} (ha : (l s)[s.arg0.toNat]? = some a)
    (f : α → State → Res Results) :
    runCommand (fun s => (argIndexed (l s) s).bind f) s = finish (f a s) := by
  rw [runCommand_of_ready h, argIndexed, ha]
  rfl

/-- Past the end of the list it faults BAD_ARG with FINFO 0. -/
theorem runCommand_argIndexed_of_le (h : s.Ready) (hlen : (l s).length ≤ s.arg0.toNat)
    (f : α → State → Res Results) :
    runCommand (fun s => (argIndexed (l s) s).bind f) s = .next (faulted 0x04 0 s) := by
  rw [runCommand_of_ready h, argIndexed, List.getElem?_eq_none hlen]
  rfl

end

/-- RES1 of a match as a number: the fields do not overlap. -/
theorem matchPayload_eq (x : BitVec 15) (len : Sym) :
    (BitVec.ofNat 64 (distOf x) <<< 32) ||| len.setWidth 64 =
      BitVec.ofNat 64 ((x.toNat + 1) * 2 ^ 32 + len.toNat) := by
  have hx := x.isLt
  have hlen := len.isLt
  have hlen64 : (len.setWidth 64).toNat = len.toNat := BitVec.toNat_setWidth_of_le (by decide)
  have hdist : (BitVec.ofNat 64 (distOf x)).toNat = x.toNat + 1 := Nat.mod_eq_of_lt (by rw [distOf]; omega)
  refine BitVec.eq_of_toNat_eq ?_
  rw [BitVec.toNat_or, BitVec.toNat_shiftLeft, hlen64, hdist, BitVec.toNat_ofNat, Nat.shiftLeft_eq,
    Nat.mod_eq_of_lt (by omega), Nat.mod_eq_of_lt (by omega), ← Nat.shiftLeft_eq]
  exact (Nat.shiftLeft_add_eq_or_of_lt (by omega) _).symm

/-! ## The statements about tokens -/

/-- Settles O30: every recorded match is true of the input, and the scan of true matches denotes it. -/
theorem derivedTokensDenoteInput : Obligations.DerivedTokensDenoteInput := by
  intro s
  rw [derive_eq]
  refine ⟨expand_greedyScan (matchAt_trueMatch s) (Nat.zero_add _) (Nat.zero_le _), fun t ht => ?_, ?_⟩
  · obtain ⟨q, m, hm, rfl⟩ := mem_greedyScan ht
    obtain ⟨p, -, rfl⟩ := List.mem_map.mp hm
    exact tokenAt_wf s q (search_length_le _ p)
  · exact (greedyScan_length_le s _ 0 0).trans_eq (by rw [List.length_map, List.length_range'])

/-- Settles O29: the loop of TOK_DERIVE leaves the tokens of the scan in the state of all insertions. -/
theorem tokDeriveEqualsTwoPhase : Obligations.TokDeriveEqualsTwoPhase := by
  intro s hready
  have hexec : exec .tokDerive s =
      .next (complete (.one (tokCount (tokDeriveBody s))) (tokDeriveBody s)) := runCommand_of_ready hready _
  rw [tokDeriveBody_eq] at hexec
  refine ⟨_, hexec, rfl, ?_, rfl⟩
  exact congrArg (fun t => complete (.one (tokCount (t.withTokens (derive s)))) (t.withTokens (derive s)))
    (inserted_same s s.inLen.toNat)

/-- Settles O31: both kinds of token, the payload of a match as a number. -/
theorem tokReadReturnsToken : Obligations.TokReadReturnsToken := by
  refine ⟨decodeCommand_eq_ok_iff_encodeCommand.mpr rfl, fun s hready => ⟨fun b hb => ?_, fun x len hx => ?_,
    fun hlen => runCommand_argIndexed_of_le (l := State.tokbuf) hready hlen _⟩⟩
  · rw [BitVec.ofNat_toNat]
    exact runCommand_argIndexed_of_some (l := State.tokbuf) hready hb _
  · rw [← matchPayload_eq]
    exact runCommand_argIndexed_of_some (l := State.tokbuf) hready hx _

end Sys2Proof.Machine
end

section
/-! The frequency table (R234–R238): what a bump and an insertion do to the counts and the order, the four ways a tally
ends, and the table of a token list. -/

namespace Sys2Proof.Machine

/-! ## Counts -/

section
variable {ft pre post : List FtEntry} {v w : Sym} {f : Word}

theorem ftFreq_append_of_absent (h : ∀ e ∈ pre, e.sym ≠ v) : ftFreq (pre ++ post) v = ftFreq post v := by
  induction pre with
  | nil => rfl
  | cons e pre ih =>
    obtain ⟨he, hpre⟩ := List.forall_mem_cons.mp h
    rw [List.cons_append, ftFreq, if_neg he, ih hpre]

theorem ftFreq_at_first (h : ∀ e ∈ pre, e.sym ≠ v) : ftFreq (pre ++ ⟨v, f⟩ :: post) v = some f := by
  rw [ftFreq_append_of_absent h, ftFreq, if_pos rfl]

theorem ftFreq_eq_none_iff : ftFreq ft v = none ↔ ∀ e ∈ ft, e.sym ≠ v := by
  induction ft with
  | nil => exact iff_of_true rfl nofun
  | cons e ft ih =>
    rw [ftFreq, List.forall_mem_cons, ← ih]
    split_ifs with he
    · exact iff_of_false nofun fun h => h.1 he
    · exact (and_iff_right he).symm

/-- A known symbol's count stands in its first entry. -/
theorem exists_first_of_ftFreq (h : ftFreq ft v = some f) :
    ∃ pre post, ft = pre ++ ⟨v, f⟩ :: post ∧ ∀ e ∈ pre, e.sym ≠ v := by
  induction ft with
  | nil => cases h
  | cons e ft ih =>
    rw [ftFreq] at h
    split_ifs at h with he
    · cases h
      cases he
      exact ⟨[], ft, rfl, nofun⟩
    · obtain ⟨pre, post, rfl, hpre⟩ := ih h
      exact ⟨e :: pre, post, rfl, List.forall_mem_cons.mpr ⟨he, hpre⟩⟩

theorem ftBump_at_first (h : ∀ e ∈ pre, e.sym ≠ v) :
    ftBump (pre ++ ⟨v, f⟩ :: post) v = pre ++ ⟨v, f + 1⟩ :: post := by
  induction pre with
  | nil => exact if_pos rfl
  | cons e pre ih =>
    obtain ⟨he, hpre⟩ := List.forall_mem_cons.mp h
    rw [List.cons_append, ftBump, if_neg he, ih hpre]
    rfl

/-- Replacing the count of an entry, or adding one, leaves the counts of the other symbols. -/
theorem ftFreq_append_cons_other (h : v ≠ w) : ftFreq (pre ++ ⟨v, f⟩ :: post) w = ftFreq (pre ++ post) w := by
  induction pre with
  | nil => exact if_neg h
  | cons e pre ih => rw [List.cons_append, ftFreq, ih, List.cons_append, ftFreq]

/-- An insertion puts the entry after entries that are not larger and before the first larger one. -/
theorem exists_insert_place (ft : List FtEntry) (v : Sym) : ∃ pre post, ft = pre ++ post ∧
    ftInsert ft v = pre ++ ⟨v, 1⟩ :: post ∧ (∀ e ∈ pre, e.sym.toNat ≤ v.toNat) ∧
    ∀ e, post.head? = some e → v.toNat < e.sym.toNat := by
  induction ft with
  | nil => exact ⟨[], [], rfl, rfl, nofun, nofun⟩
  | cons e ft ih =>
    rw [ftInsert]
    split_ifs with he
    · exact ⟨[], e :: ft, rfl, rfl, nofun, fun _ h => Option.some.inj h ▸ he⟩
    · obtain ⟨pre, post, rfl, heq, hpre, hpost⟩ := ih
      exact ⟨e :: pre, post, rfl, congrArg (e :: ·) heq, List.forall_mem_cons.mpr ⟨Nat.not_lt.mp he, hpre⟩, hpost⟩

/-- A new symbol's place has smaller symbols before it. -/
theorem exists_insert_place_of_new (h : ftFreq ft v = none) : ∃ pre post, ft = pre ++ post ∧
    ftInsert ft v = pre ++ ⟨v, 1⟩ :: post ∧ (∀ e ∈ pre, e.sym.toNat < v.toNat) ∧
    ∀ e, post.head? = some e → v.toNat < e.sym.toNat := by
  obtain ⟨pre, post, rfl, hinsert, hpre, hpost⟩ := exists_insert_place ft v
  refine ⟨pre, post, rfl, hinsert, fun e he => (hpre e he).lt_of_ne fun heq => ?_, hpost⟩
  exact ftFreq_eq_none_iff.mp h e (List.mem_append_left post he) (BitVec.eq_of_toNat_eq heq)

theorem ne_of_toNat_lt (h : ∀ e ∈ pre, e.sym.toNat < v.toNat) : ∀ e ∈ pre, e.sym ≠ v :=
  fun e he heq => (h e he).ne (congrArg BitVec.toNat heq)

/-! ## Order -/

/-- An entry above all before it and below the next keeps the table ascending. -/
theorem ascending_insert (h : Ascending (pre ++ post)) (hpre : ∀ e ∈ pre, e.sym.toNat < v.toNat)
    (hpost : ∀ e, post.head? = some e → v.toNat < e.sym.toNat) : Ascending (pre ++ ⟨v, f⟩ :: post) := by
  rw [Ascending, List.pairwise_map, List.pairwise_append] at h ⊢
  obtain ⟨hpp, hqq, hpq⟩ := h
  have hall : ∀ e ∈ post, v.toNat < e.sym.toNat := by
    cases post with
    | nil => exact nofun
    | cons x post =>
      have hx := hpost x rfl
      exact List.forall_mem_cons.mpr ⟨hx, fun e he => hx.trans (List.rel_of_pairwise_cons hqq he)⟩
  exact ⟨hpp, List.pairwise_cons.mpr ⟨hall, hqq⟩, fun e he =>
    List.forall_mem_cons.mpr ⟨hpre e he, hpq e he⟩⟩

/-- The order does not depend on the counts. -/
theorem ascending_recount (g : Word) (h : Ascending (pre ++ ⟨v, f⟩ :: post)) :
    Ascending (pre ++ ⟨v, g⟩ :: post) := by
  simpa only [Ascending, List.map_append, List.map_cons] using h

/-- An ascending table without 0 and some other symbol is not full: there are 65536 symbols. -/
theorem length_ne_of_ascending (h : Ascending ft) (h0 : ftFreq ft 0 = none) (hv : ftFreq ft v = none)
    (hne : v ≠ 0) : ft.length ≠ 65535 := by
  have hnodup : (v :: 0 :: ft.map FtEntry.sym).Nodup := by
    have habsent {w : Sym} (hw : ftFreq ft w = none) : w ∉ ft.map FtEntry.sym := fun hmem => by
      obtain ⟨e, he, heq⟩ := List.mem_map.mp hmem
      exact ftFreq_eq_none_iff.mp hw e he heq
    have hsyms : (ft.map FtEntry.sym).Nodup :=
      List.pairwise_map.mpr ((List.pairwise_map.mp h).imp fun hlt heq => hlt.ne (congrArg BitVec.toNat heq))
    exact List.nodup_cons.mpr ⟨List.not_mem_cons_of_ne_of_not_mem hne (habsent hv),
      List.nodup_cons.mpr ⟨habsent h0, hsyms⟩⟩
  have hcard : Fintype.card Sym = 65536 := FinEnum.card_eq_fintypeCard.symm
  have hle := hnodup.length_le_card
  rw [hcard, List.length_cons, List.length_cons, List.length_map] at hle
  omega

end

/-! ## The four ways a tally ends (R234) -/

section
variable {s : State} {v : Sym}

theorem tally_of_max {f : Word} (h : ftFreq s.ft v = some f) (hf : f.toNat = 2 ^ 64 - 1) :
    tally v s = .fault .freqOverflow (v.setWidth 64) s := by
  rw [tally, h]
  exact if_pos hf

theorem tally_of_known {pre post : List FtEntry} {f : Word} (hft : s.ft = pre ++ ⟨v, f⟩ :: post)
    (hpre : ∀ e ∈ pre, e.sym ≠ v) (hf : f.toNat ≠ 2 ^ 64 - 1) :
    tally v s = .ok () (setTable (pre ++ ⟨v, f + 1⟩ :: post) s) := by
  rw [tally, hft, ftFreq_at_first hpre, ftBump_at_first hpre]
  exact if_neg hf

theorem tally_of_full (h : ftFreq s.ft v = none) (hfull : s.ft.length = 65535) :
    tally v s = .fault .badState 65535 s := by
  rw [tally, h]
  exact if_pos hfull

theorem tally_of_new (h : ftFreq s.ft v = none) (hroom : s.ft.length ≠ 65535) :
    tally v s = .ok () (setTable (ftInsert s.ft v) s) := by
  rw [tally, h]
  exact if_neg hroom

/-! ## FT_TALLY (R236) -/

/-- FT_TALLY of a symbol in 1..65535 is its tally, with the symbol's count as the result. -/
theorem exec_ftTally (h : s.Ready) (harg : s.arg0 = v.setWidth 64) (hv : v ≠ 0) :
    exec .ftTally s = finish ((tally v s).bind fun _ t => .ok (.one ((ftFreq t.ft v).getD 0)) t) := by
  have hnat : s.arg0.toNat = v.toNat := by rw [harg, BitVec.toNat_setWidth_of_le (by decide)]
  have hdom : decide (1 ≤ s.arg0.toNat ∧ s.arg0.toNat ≤ 65535) = true := by
    have hpos : v.toNat ≠ 0 := fun h0 => hv (BitVec.eq_of_toNat_eq h0)
    have := v.isLt
    exact decide_eq_true (by omega)
  have hsym : BitVec.ofNat 16 s.arg0.toNat = v := by rw [hnat, BitVec.ofNat_toNat, BitVec.setWidth_eq]
  have hexec := runCommand_arg0_of_ok h (ok := fun _ v => decide (1 ≤ v ∧ v ≤ 65535)) hdom fun v s =>
    (tally (BitVec.ofNat 16 v) s).bind fun _ s => .ok (.one ((ftFreq s.ft (BitVec.ofNat 16 v)).getD 0)) s
  rw [hsym] at hexec
  exact hexec

/-- Outside 1..65535 it faults BAD_ARG. -/
theorem exec_ftTally_badArg (h : s.Ready) (hbad : s.arg0.toNat = 0 ∨ 65535 < s.arg0.toNat) :
    exec .ftTally s = .next (faulted 0x04 0 s) :=
  runCommand_arg0_of_not_ok h (ok := fun _ v => decide (1 ≤ v ∧ v ≤ 65535)) (decide_eq_false (by omega)) _

/-- A tally that puts the count `f` in the symbol's first entry completes the command with `f`. -/
theorem exec_ftTally_of_tally (h : s.Ready) (harg : s.arg0 = v.setWidth 64) (hv : v ≠ 0)
    {pre post : List FtEntry} {f : Word} (hpre : ∀ e ∈ pre, e.sym ≠ v)
    (ht : tally v s = .ok () (setTable (pre ++ ⟨v, f⟩ :: post) s)) :
    exec .ftTally s = .next { s with
      ft := pre ++ ⟨v, f⟩ :: post, tree := none, res0 := f, status := doneStatus s } := by
  rw [exec_ftTally h harg hv, ht, Res.bind_ok, setTable_ft, ftFreq_at_first hpre]
  rfl

end

/-! ## The table of a token list (R237) -/

/-- The table of the counts of a list of match lengths. -/
def CountsOf (ls : List Sym) (ft : List FtEntry) : Prop :=
  Ascending ft ∧ ∀ w, ftFreq ft w = if w ∈ ls then some (BitVec.ofNat 64 (ls.count w)) else none

section
variable {ls : List Sym} {ft ft' : List FtEntry} {v : Sym}

theorem CountsOf.freq_of_mem (h : CountsOf ls ft) (hv : v ∈ ls) :
    ftFreq ft v = some (BitVec.ofNat 64 (ls.count v)) := (h.2 v).trans (if_pos hv)

theorem CountsOf.freq_of_notMem (h : CountsOf ls ft) (hv : v ∉ ls) : ftFreq ft v = none :=
  (h.2 v).trans (if_neg hv)

theorem CountsOf.nil : CountsOf [] [] := ⟨List.Pairwise.nil, fun _ => rfl⟩

/-- One more occurrence of `v`: its count grows by 1 and no other changes. -/
theorem CountsOf.snoc (h : CountsOf ls ft) (hasc : Ascending ft')
    (hv : ftFreq ft' v = some (BitVec.ofNat 64 (ls.count v + 1)))
    (hother : ∀ w, v ≠ w → ftFreq ft' w = ftFreq ft w) : CountsOf (ls ++ [v]) ft' := by
  refine ⟨hasc, fun w => ?_⟩
  by_cases hw : v = w
  · subst hw
    rw [hv, List.count_append, List.count_singleton_self, if_pos (List.mem_append_right ls List.mem_cons_self)]
  · have hmem : w ∈ ls ++ [v] ↔ w ∈ ls := by simp [Ne.symm hw]
    have hcount : (ls ++ [v]).count w = ls.count w := by
      rw [List.count_append, List.count_singleton, if_neg (by simpa using hw), Nat.add_zero]
    rw [hother w hw, h.2 w, hcount, if_congr hmem rfl rfl]

/-- The table is empty when there are no lengths, and only then. -/
theorem CountsOf.eq_nil_iff (h : CountsOf ls ft) : ft = [] ↔ ls = [] := by
  constructor
  · rintro rfl
    exact List.eq_nil_iff_forall_not_mem.mpr fun v hv => nomatch h.freq_of_mem hv
  · rintro rfl
    exact List.eq_nil_iff_forall_not_mem.mpr fun e he =>
      ftFreq_eq_none_iff.mp (h.freq_of_notMem List.not_mem_nil) e he rfl

/-- Tallying one more length cannot fault while the counts stay in range and no length is 0 (R237). -/
theorem CountsOf.tally_ok {s : State} (h : CountsOf ls s.ft) (hzero : 0 ∉ ls) (hv : v ≠ 0)
    (hlen : ls.length < 2 ^ 64 - 1) :
    ∃ l, tally v s = .ok () (setTable l s) ∧ CountsOf (ls ++ [v]) l := by
  by_cases hmem : v ∈ ls
  · obtain ⟨pre, post, hft, hpre⟩ := exists_first_of_ftFreq (h.freq_of_mem hmem)
    have hcount := (ls.count_le_length (a := v)).trans_lt hlen
    refine ⟨_, tally_of_known hft hpre ?_, h.snoc (ascending_recount _ (hft ▸ h.1)) ?_ fun w hw => ?_⟩
    · rw [BitVec.toNat_ofNat, Nat.mod_eq_of_lt (by omega)]
      exact hcount.ne
    · rw [ftFreq_at_first hpre, BitVec.ofNat_add]
      rfl
    · rw [hft, ftFreq_append_cons_other hw, ftFreq_append_cons_other hw]
  · have hnew := h.freq_of_notMem hmem
    have hroom := length_ne_of_ascending h.1 (h.freq_of_notMem hzero) hnew hv
    obtain ⟨pre, post, hft, hinsert, hpre, hpost⟩ := exists_insert_place_of_new hnew
    refine ⟨_, tally_of_new hnew hroom, ?_⟩
    rw [hinsert]
    refine h.snoc (ascending_insert (hft ▸ h.1) hpre hpost) ?_ fun w hw => ?_
    · rw [ftFreq_at_first (ne_of_toNat_lt hpre), List.count_eq_zero.mpr hmem]
      rfl
    · rw [hft, ftFreq_append_cons_other hw]

end

/-- The tallies of a token list that R43 allows leave the table of its match lengths. -/
theorem CountsOf.tallyTokens_ok {ts : List Token} (hwf : ∀ t ∈ ts, t.wf = true) {ls : List Sym} {s : State}
    (h : CountsOf ls s.ft) (hzero : 0 ∉ ls) (hlen : ls.length + ts.length ≤ 2 ^ 60) :
    ∃ u, tallyTokens ts s = .ok () u ∧ CountsOf (ls ++ matchLengths ts) u.ft := by
  induction ts generalizing ls s with
  | nil => exact ⟨s, rfl, (List.append_nil ls).symm ▸ h⟩
  | cons t ts ih =>
    obtain ⟨ht, hts⟩ := List.forall_mem_cons.mp hwf
    rw [List.length_cons] at hlen
    cases t with
    | lit b => exact ih hts h hzero (by omega)
    | pair x len =>
      have hmin : 3 ≤ len.toNat := of_decide_eq_true ht
      have hne : len ≠ 0 := fun heq => absurd (heq ▸ hmin) (by decide)
      obtain ⟨l, htally, hl⟩ := h.tally_ok hzero hne (by omega)
      have hzero' : 0 ∉ ls ++ [len] := by
        rw [List.mem_append, List.mem_singleton]
        exact not_or.mpr ⟨hzero, hne.symm⟩
      obtain ⟨u, hu, hcounts⟩ := ih hts (s := setTable l s) hl hzero' (by
        rw [List.length_append, List.length_singleton]; omega)
      refine ⟨u, by rw [tallyTokens, htally]; exact hu, ?_⟩
      rw [List.append_assoc] at hcounts
      exact hcounts

/-- The table FT_FROM_TOKENS makes of the counts: the placeholder stands in for an empty one. -/
theorem CountsOf.isTableOf {ts : List Token} {ft : List FtEntry} (h : CountsOf (matchLengths ts) ft) :
    IsTableOf ts (if ft = [] then [placeholderEntry] else ft) := by
  split_ifs with hft
  · exact .inl ⟨h.eq_nil_iff.mp hft, rfl⟩
  · exact .inr ⟨fun hnil => hft (h.eq_nil_iff.mpr hnil), h⟩

theorem SameButTable.setTable_eq {s t : State} (h : SameButTable s t) (l : List FtEntry) :
    setTable l t = setTable l s := by
  rw [SameButTable] at h
  rw [h]
  rfl

/-- The body of FT_FROM_TOKENS on tokens that R43 allows: the table, TREE emptied, and no fault. -/
theorem ftFromTokensBody_eq {s : State} (hwf : ∀ t ∈ s.tokbuf, t.wf = true) (hlen : s.tokbuf.length ≤ 2 ^ 60) :
    ∃ l, IsTableOf s.tokbuf l ∧ ftFromTokensBody s = .ok () (setTable l s) := by
  obtain ⟨u, hu, hcounts⟩ := CountsOf.nil.tallyTokens_ok hwf (s := { s with ft := [] }) List.not_mem_nil
    (by rwa [List.length_nil, Nat.zero_add])
  have hsame : SameButTable { s with ft := [] } u := by
    have := tallyTokens_same s.tokbuf { s with ft := [] }
    rwa [hu] at this
  refine ⟨_, hcounts.isTableOf, ?_⟩
  rw [ftFromTokensBody, hu, Res.bind_ok]
  exact congrArg (Res.ok ()) (hsame.setTable_eq _)

/-! ## The statements about the frequency table -/

/-- Settles O32: the four ends of a tally; the entry tallied is the symbol's first. -/
theorem ftTallyCountsSymbol : Obligations.FtTallyCountsSymbol := by
  refine ⟨decodeCommand_eq_ok_iff_encodeCommand.mpr rfl, fun s v hready =>
    ⟨exec_ftTally_badArg hready, fun harg hv => ⟨fun f hf hmax => ?_, fun f hf hmax => ?_, fun hnew hfull => ?_,
      fun hnew hroom => ?_⟩⟩⟩
  · rw [exec_ftTally hready harg hv, tally_of_max hf hmax, harg]
    rfl
  · obtain ⟨pre, post, hft, hpre⟩ := exists_first_of_ftFreq hf
    exact ⟨pre, post, hft, hpre, exec_ftTally_of_tally hready harg hv hpre (tally_of_known hft hpre hmax)⟩
  · rw [exec_ftTally hready harg hv, tally_of_full hnew hfull]
    rfl
  · obtain ⟨pre, post, hft, hinsert, hpre, hpost⟩ := exists_insert_place_of_new hnew
    refine ⟨pre, post, hft, hpre, hpost, fun hasc => ascending_insert (hft ▸ hasc) hpre hpost, ?_⟩
    exact exec_ftTally_of_tally hready harg hv (ne_of_toNat_lt hpre) (hinsert ▸ tally_of_new hnew hroom)

/-- Settles O33: the tallies of legal tokens cannot fault, and they leave the counts in ascending order. -/
theorem ftFromTokensCountsLengths : Obligations.FtFromTokensCountsLengths := by
  refine ⟨decodeCommand_eq_ok_iff_encodeCommand.mpr rfl, fun s hready hwf hlen => ?_⟩
  obtain ⟨l, hl, hbody⟩ := ftFromTokensBody_eq hwf hlen
  refine ⟨l, hl, ?_⟩
  have hexec : exec .ftFromTokens s = finish ((ftFromTokensBody s).bind fun _ s =>
    .ok (.one (BitVec.ofNat 64 s.ft.length)) s) := runCommand_of_ready hready _
  rw [hexec, hbody]
  rfl

/-- Settles O34: FT is read as TOKBUF is. -/
theorem ftReadReturnsEntry : Obligations.FtReadReturnsEntry := by
  refine ⟨decodeCommand_eq_ok_iff_encodeCommand.mpr rfl, fun s hready => ⟨fun e he => ?_, fun hlen =>
    runCommand_argIndexed_of_le (l := State.ft) hready hlen _⟩⟩
  rw [BitVec.ofNat_toNat]
  exact runCommand_argIndexed_of_some (l := State.ft) hready he _

end Sys2Proof.Machine
end

section
/-! The tree builder (R260–R262, R266): ExtractMin's order, the merge loop as R260's relation, and what every merge
keeps. -/

namespace Sys2Proof.Machine

/-! ## The order of extraction (R260) -/

theorem QItem.less_iff {a b : QItem} :
    a.Less b ↔ a.w.toNat < b.w.toNat ∨ (a.w.toNat = b.w.toNat ∧ a.seq < b.seq) := by
  rw [BitVec.toNat_inj]

theorem QItem.Less.trans {a b c : QItem} (hab : a.Less b) (hbc : b.Less c) : a.Less c := by
  rw [QItem.less_iff] at *
  omega

theorem QItem.Less.le {a b : QItem} (h : a.Less b) : a.w.toNat ≤ b.w.toNat := by
  rw [QItem.less_iff] at h
  omega

theorem QItem.before_iff {a b : QItem} : a.before b = true ↔ a.Less b := by
  simp [QItem.before]

/-- Two elements with different sequence numbers are never equal in the order. -/
theorem QItem.less_of_not_before {a b : QItem} (hseq : a.seq ≠ b.seq) (h : ¬ a.before b = true) : b.Less a := by
  rw [QItem.before_iff] at h
  rw [QItem.less_iff] at *
  omega

/-- What ExtractMin takes is the element it starts from, or a lesser one. -/
theorem extractMin_eq_or_less {a : QItem} {q : List QItem}
    (hleast : ∀ x ∈ (extractMin a q).2, (extractMin a q).1.Less x) :
    (extractMin a q).1 = a ∨ (extractMin a q).1.Less a := by
  rcases List.mem_cons.mp ((extractMin_perm a q).mem_iff.mpr List.mem_cons_self) with h | h
  · exact .inl h.symm
  · exact .inr (hleast a h)

/-- ExtractMin takes the least element: each turn leaves behind the greater of the two it compares. -/
theorem extractMin_less {a : QItem} {q : List QItem} (hseq : ((a :: q).map QItem.seq).Nodup) :
    ∀ x ∈ (extractMin a q).2, (extractMin a q).1.Less x := by
  induction q generalizing a with
  | nil => exact nofun
  | cons b q ih =>
    have hswap : ((b :: a :: q).map QItem.seq).Nodup := ((List.Perm.swap b a q).map QItem.seq).nodup_iff.mp hseq
    -- The rest of the walk starts from the lesser of the two, so its result is below the greater one.
    have step : ∀ {lo hi : QItem}, lo.Less hi → ((lo :: q).map QItem.seq).Nodup →
        ∀ x ∈ hi :: (extractMin lo q).2, (extractMin lo q).1.Less x := by
      intro lo hi hlohi hlo x hx
      rcases List.mem_cons.mp hx with rfl | hx
      · rcases extractMin_eq_or_less (ih hlo) with h | h
        · rw [h]
          exact hlohi
        · exact h.trans hlohi
      · exact ih hlo x hx
    have hab : b.seq ≠ a.seq := by
      intro h
      simp [h] at hseq
    rw [extractMin]
    split_ifs with hbefore
    · exact step (QItem.before_iff.mp hbefore) (List.nodup_cons.mp hseq).2
    · exact step (QItem.less_of_not_before hab hbefore) (List.nodup_cons.mp hswap).2

/-- Settles O36: `extractMin_perm` and `extractMin_less`. -/
theorem extractMinTakesLeast : Obligations.ExtractMinTakesLeast :=
  fun a q hseq => ⟨extractMin_perm a q, extractMin_less hseq⟩

/-! ## The loop of R260 -/

/-- Where the elements stand in the queue does not matter. -/
theorem Greedy.of_perm {q q' : List QItem} {c : Nat} {t : Option Node} (h : Greedy q c t) (hq : q'.Perm q) :
    Greedy q' c t := by
  cases h with
  | root a =>
    rw [List.perm_singleton.mp hq]
    exact .root a c
  | overflow hperm ha hb hsum => exact .overflow (hq.trans hperm) ha hb hsum
  | merge hperm ha hb hsum hrest => exact .merge (hq.trans hperm) ha hb hsum hrest

/-- A queue that R260 can reach with `c` the next sequence number: no number is used twice. -/
def Numbered (q : List QItem) (c : Nat) : Prop := (q.map QItem.seq).Nodup ∧ ∀ x ∈ q, x.seq < c

theorem Numbered.of_perm {q q' : List QItem} {c : Nat} (h : Numbered q c) (hq : q'.Perm q) : Numbered q' c :=
  ⟨(hq.map QItem.seq).nodup_iff.mpr h.1, fun x hx => h.2 x (hq.mem_iff.mp hx)⟩

theorem Numbered.tail {a : QItem} {q : List QItem} {c : Nat} (h : Numbered (a :: q) c) : Numbered q c :=
  ⟨(List.nodup_cons.mp h.1).2, fun x hx => h.2 x (List.mem_cons_of_mem a hx)⟩

/-- The merged element takes the next sequence number. -/
theorem Numbered.cons_merged {q : List QItem} {c : Nat} (h : Numbered q c) (a b : QItem) :
    Numbered (mergeItems a b c :: q) (c + 1) := by
  refine ⟨List.nodup_cons.mpr ⟨fun hc => ?_, h.1⟩, fun x hx => ?_⟩
  · obtain ⟨x, hx, hseq⟩ := List.mem_map.mp hc
    exact (h.2 x hx).ne hseq
  · rcases List.mem_cons.mp hx with rfl | hx
    · exact Nat.lt_succ_self c
    · exact Nat.lt_succ_of_lt (h.2 x hx)

/-- The builder's loop is R260's loop. -/
theorem mergeLoop_greedy {k : Nat} {a : QItem} {q : List QItem} {c : Nat} (hk : q.length ≤ k)
    (hnum : Numbered (a :: q) c) : Greedy (a :: q) c (mergeLoop k a q c) := by
  induction k generalizing a q c with
  | zero =>
    obtain rfl := List.length_eq_zero_iff.mp (Nat.le_zero.mp hk)
    exact .root a c
  | succ k ih =>
    cases q with
    | nil => exact .root a c
    | cons b q =>
      have hperm := extractMin_perm a (b :: q)
      have hleast := extractMin_less hnum.1
      have hlen := extractMin_length a (b :: q)
      rw [mergeLoop]
      rcases hm : extractMin a (b :: q) with ⟨m, _ | ⟨x, r⟩⟩
      · simp [hm] at hlen
      · rw [hm] at hperm hleast hlen
        have hnumx : Numbered (x :: r) c := (hnum.of_perm hperm).tail
        have hpermx := extractMin_perm x r
        have hqueue : (a :: b :: q).Perm (m :: (extractMin x r).1 :: (extractMin x r).2) :=
          hperm.symm.trans (hpermx.symm.cons m)
        have hm' : ∀ z ∈ (extractMin x r).1 :: (extractMin x r).2, m.Less z :=
          fun z hz => hleast z (hpermx.mem_iff.mp hz)
        dsimp only
        split_ifs with hsum
        · exact .overflow hqueue hm' (extractMin_less hnumx.1) hsum
        · refine .merge hqueue hm' (extractMin_less hnumx.1) (Nat.lt_of_not_le hsum) ?_
          refine (ih ?_ ((hnumx.of_perm hpermx).tail.cons_merged m _)).of_perm (List.perm_append_singleton _ _)
          rw [extractMin_length]
          simp only [List.length_cons] at hk hlen
          omega

/-- What every merge keeps holds of the last element, whose node is the tree, or of the queue that overflows. -/
theorem Greedy.induct {P : List QItem → Prop} (hmerge : ∀ {q r : List QItem} {a b : QItem} (c : Nat),
      q.Perm (a :: b :: r) → (∀ x ∈ b :: r, a.Less x) → (∀ x ∈ r, b.Less x) →
      a.w.toNat + b.w.toNat < 2 ^ 64 → P q → P (r ++ [mergeItems a b c]))
    {q : List QItem} {c : Nat} {t : Option Node} (h : Greedy q c t) (hP : P q) :
    (∃ a, t = some a.node ∧ P [a]) ∨
      (t = none ∧ ∃ q' a b r, P q' ∧ q'.Perm (a :: b :: r) ∧ 2 ^ 64 ≤ a.w.toNat + b.w.toNat) := by
  induction h with
  | root a c => exact .inl ⟨a, rfl, hP⟩
  | overflow hperm _ _ hsum => exact .inr ⟨rfl, _, _, _, _, hP, hperm, hsum⟩
  | merge hperm ha hb hsum _ ih => exact ih (hmerge _ hperm ha hb hsum hP)

/-! ## The initial queue -/

theorem leafItems_eq_mapIdx (ft : List FtEntry) (i : Nat) :
    leafItems ft i = ft.mapIdx fun j e => ⟨.leaf e.sym, e.freq, i + j⟩ := by
  induction ft generalizing i with
  | nil => rfl
  | cons e es ih =>
    rw [leafItems, ih, List.mapIdx_cons]
    simp only [Nat.add_assoc, Nat.add_comm 1]
    rfl

theorem initialQueue_eq_leafItems (ft : List FtEntry) : initialQueue ft = leafItems ft 0 := by
  simp [initialQueue, leafItems_eq_mapIdx]

theorem leafItems_seq (ft : List FtEntry) (i : Nat) : (leafItems ft i).map QItem.seq = List.range' i ft.length := by
  induction ft generalizing i with
  | nil => rfl
  | cons e es ih => exact congrArg (i :: ·) (ih (i + 1))

theorem numbered_initialQueue (ft : List FtEntry) : Numbered (initialQueue ft) ft.length := by
  have hseq : (initialQueue ft).map QItem.seq = List.range' 0 ft.length := by
    rw [initialQueue_eq_leafItems, leafItems_seq]
  refine ⟨hseq ▸ List.nodup_range', fun x hx => ?_⟩
  have := List.mem_range'_1.mp (hseq ▸ List.mem_map_of_mem hx)
  omega

theorem leafItems_map {β : Type} (g : Node → Word → β) (ft : List FtEntry) (i : Nat) :
    ((leafItems ft i).map fun x => g x.node x.w) = ft.map fun e => g (.leaf e.sym) e.freq := by
  induction ft generalizing i with
  | nil => rfl
  | cons e es ih => exact congrArg (g (.leaf e.sym) e.freq :: ·) (ih (i + 1))

/-- The initial elements are the table's entries, each as a leaf with its frequency. -/
theorem initialQueue_map {β : Type} (g : Node → Word → β) (ft : List FtEntry) :
    ((initialQueue ft).map fun x => g x.node x.w) = ft.map fun e => g (.leaf e.sym) e.freq := by
  rw [initialQueue_eq_leafItems, leafItems_map]

theorem initialQueue_length (ft : List FtEntry) : (initialQueue ft).length = ft.length := List.length_mapIdx

theorem mem_initialQueue {ft : List FtEntry} {x : QItem} (hx : x ∈ initialQueue ft) :
    ∃ e ∈ ft, x.node = .leaf e.sym ∧ x.w = e.freq := by
  have hmem : (x.node, x.w) ∈ (initialQueue ft).map fun x => (x.node, x.w) := List.mem_map_of_mem hx
  rw [initialQueue_map Prod.mk] at hmem
  obtain ⟨e, he, heq⟩ := List.mem_map.mp hmem
  exact ⟨e, he, (congrArg Prod.fst heq).symm, (congrArg Prod.snd heq).symm⟩

/-- With two or more entries the builder runs R260's loop from the table's leaves. -/
theorem buildTree_greedy {ft : List FtEntry} (h : 2 ≤ ft.length) :
    Greedy (initialQueue ft) ft.length (buildTree ft) := by
  match ft, h with
  | e :: f :: es, _ =>
    have hnum := numbered_initialQueue (e :: f :: es)
    have hlen := initialQueue_length (e :: f :: es)
    rw [initialQueue_eq_leafItems] at hnum hlen ⊢
    exact mergeLoop_greedy (Nat.le_of_eq (Nat.succ.inj hlen)) hnum

/-! ## What the queue adds up to (R266) -/

/-- The queue carries the table's weight and symbols; a merged element's node bears its weight, and there is one
unless two elements are left to merge. -/
structure Accounts (ft : List FtEntry) (q : List QItem) : Prop where
  sum : (q.map fun x => x.w.toNat).sum = totalFreq ft
  leaves : (q.flatMap fun x => leafSyms x.node).Perm (ft.map FtEntry.sym)
  weights : ∀ x ∈ q, x.node.isInternal = true → rootWeight x.node = x.w.toNat
  merged : 2 ≤ q.length ∨ ∃ x ∈ q, x.node.isInternal = true

theorem accounts_initialQueue {ft : List FtEntry} (h : 2 ≤ ft.length) : Accounts ft (initialQueue ft) where
  sum := congrArg List.sum (initialQueue_map (fun _ w => w.toNat) ft)
  leaves := by
    rw [List.flatMap_def, initialQueue_map fun n _ => leafSyms n, ← List.flatMap_def, List.map_eq_flatMap]
    rfl
  weights x hx hint := by
    obtain ⟨e, -, hnode, -⟩ := mem_initialQueue hx
    rw [hnode] at hint
    cases hint
  merged := .inl (h.trans_eq (initialQueue_length ft).symm)

theorem mergeItems_weight {a b : QItem} (h : a.w.toNat + b.w.toNat < 2 ^ 64) (c : Nat) :
    (mergeItems a b c).w.toNat = a.w.toNat + b.w.toNat := by
  rw [mergeItems, BitVec.toNat_add, Nat.mod_eq_of_lt h]

/-- A merge moves two weights and two lists of leaves into one element. -/
theorem Accounts.merge {ft : List FtEntry} {q r : List QItem} {a b : QItem} (h : Accounts ft q) (c : Nat)
    (hperm : q.Perm (a :: b :: r)) (hsum : a.w.toNat + b.w.toNat < 2 ^ 64) :
    Accounts ft (r ++ [mergeItems a b c]) where
  sum := by
    rw [← h.sum, (hperm.map _).sum_eq, List.map_append, List.sum_append, List.map_singleton, List.sum_singleton,
      mergeItems_weight hsum, List.map_cons, List.map_cons, List.sum_cons, List.sum_cons]
    omega
  leaves := by
    refine List.Perm.trans ?_ ((hperm.flatMap_right _).symm.trans h.leaves)
    rw [List.flatMap_append, List.flatMap_singleton, List.flatMap_cons, List.flatMap_cons, ← List.append_assoc]
    exact List.perm_append_comm
  weights x hx hint := by
    rcases List.mem_append.mp hx with hx | hx
    · exact h.weights x (hperm.mem_iff.mpr (List.mem_cons_of_mem a (List.mem_cons_of_mem b hx))) hint
    · obtain rfl := List.mem_singleton.mp hx
      rfl
  merged := .inr ⟨mergeItems a b c, List.mem_append_right r (List.mem_singleton_self _), rfl⟩

/-- A built tree carries the table's weight and symbols; the builder fails only when the weight does not fit. -/
theorem buildTree_cases {ft : List FtEntry} (h : 2 ≤ ft.length) :
    (∃ t, buildTree ft = some t ∧ totalFreq ft < 2 ^ 64 ∧ t.isInternal = true ∧ rootWeight t = totalFreq ft ∧
      (leafSyms t).Perm (ft.map FtEntry.sym)) ∨
    (buildTree ft = none ∧ 2 ^ 64 ≤ totalFreq ft) := by
  rcases (buildTree_greedy h).induct (P := Accounts ft) (fun c hperm _ _ hsum hq => hq.merge c hperm hsum)
    (accounts_initialQueue h) with ⟨a, htree, hacc⟩ | ⟨htree, q, a, b, r, hacc, hperm, hover⟩
  · have hw : a.w.toNat = totalFreq ft := by rw [← hacc.sum, List.map_singleton, List.sum_singleton]
    have hint : a.node.isInternal = true := by simpa using hacc.merged
    have hleaves := hacc.leaves
    rw [List.flatMap_singleton] at hleaves
    exact .inl ⟨a.node, htree, hw ▸ a.w.isLt, hint,
      (hacc.weights a (List.mem_singleton_self a) hint).trans hw, hleaves⟩
  · have hsum := hacc.sum
    rw [(hperm.map _).sum_eq, List.map_cons, List.map_cons, List.sum_cons, List.sum_cons] at hsum
    exact .inr ⟨htree, by omega⟩

theorem leafCount_eq_length (t : Node) : leafCount t = (leafSyms t).length := by
  induction t with
  | leaf => rfl
  | guard => rfl
  | internal l r w ihl ihr => rw [leafCount, leafSyms, List.length_append, ihl, ihr]

/-! ## HT_BUILD (R261, R262) -/

section
variable {s : State}

theorem exec_htBuild_of_some (h : s.Ready) {t : Node} (ht : buildTree s.ft = some t) :
    exec .htBuild s = .next { s with
      tree := some t, res0 := BitVec.ofNat 64 (leafCount t), status := doneStatus s } := by
  have hexec : exec .htBuild s = finish ((htBuildBody s).bind fun t s =>
    .ok (.one (BitVec.ofNat 64 (leafCount t))) s) := runCommand_of_ready h _
  rw [hexec, htBuildBody, ht]
  rfl

theorem exec_htBuild_of_none (h : s.Ready) (ht : buildTree s.ft = none) :
    exec .htBuild s = .next (faulted 0x08 0xFFFFFFFFFFFFFFFF s) := by
  have hexec : exec .htBuild s = finish ((htBuildBody s).bind fun t s =>
    .ok (.one (BitVec.ofNat 64 (leafCount t))) s) := runCommand_of_ready h _
  rw [hexec, htBuildBody, ht]
  rfl

end

/-- A table of at most one entry builds a leaf beside the Guard (R262). -/
theorem buildTree_degenerate {ft : List FtEntry} (h : ft.length ≤ 1) :
    ∃ v f, buildTree ft = some (.internal (.leaf v) .guard f) :=
  match ft, h with
  | [], _ => ⟨_, _, rfl⟩
  | [_], _ => ⟨_, _, rfl⟩

/-- Settles O35: two or more entries go through `buildTree_greedy` and `buildTree_cases`, fewer are degenerate. -/
theorem htBuildSucceedsWhenWeightsFit : Obligations.HtBuildSucceedsWhenWeightsFit := by
  refine fun s hready => ⟨fun hfit => ?_, fun htwo hover => ?_⟩
  · rcases Nat.lt_or_ge s.ft.length 2 with hone | htwo
    · obtain ⟨v, f, htree⟩ := buildTree_degenerate (Nat.le_of_lt_succ hone)
      refine ⟨.internal (.leaf v) .guard f, ?_, rfl, fun htwo => absurd htwo (Nat.not_le.mpr hone)⟩
      rw [exec_htBuild_of_some hready htree, Nat.max_eq_left (Nat.le_of_lt_succ hone)]
      rfl
    · have hgreedy := buildTree_greedy htwo
      rcases buildTree_cases htwo with ⟨t, htree, -, hint, hweight, hleaves⟩ | ⟨-, hover⟩
      · refine ⟨t, ?_, hint, fun _ => ⟨htree ▸ hgreedy, hweight, hleaves⟩⟩
        rw [exec_htBuild_of_some hready htree, leafCount_eq_length, hleaves.length_eq, List.length_map,
          Nat.max_eq_right (by omega)]
      · omega
  · have hgreedy := buildTree_greedy htwo
    rcases buildTree_cases htwo with ⟨t, -, hlt, -⟩ | ⟨htree, -⟩
    · omega
    · exact ⟨htree ▸ hgreedy, exec_htBuild_of_none hready htree⟩

/-- Settles O37: the two degenerate tables; the Guard carries no symbol and ends the walk. -/
theorem degenerateTablesGetGuardTree : Obligations.DegenerateTablesGetGuardTree := by
  refine fun s hready => ⟨fun e hft => ⟨?_, fun v => ?_, fun rest => rfl⟩, fun hft => ?_⟩
  · exact exec_htBuild_of_some hready (by rw [hft]; rfl)
  · by_cases hv : v = e.sym
    · simp [codeOf, hv]
    · simp [codeOf, hv, Ne.symm hv]
  · exact exec_htBuild_of_some hready (by rw [hft]; rfl)

end Sys2Proof.Machine
end

section
/-! Huffman codes (R263, R266, R267): no code begins another one, the weights bound the length of a built tree's codes,
and HT_CODE (R264). -/

namespace Sys2Proof.Machine

/-! ## Codes as paths (R263, R266) -/

/-- A code under an Internal root is a branch bit and the code in that child. -/
theorem codeOf_internal {l r : Node} {w : Word} {v : Sym} {c : List Bool} (h : codeOf (.internal l r w) v = some c) :
    ∃ b c', c = b :: c' ∧ codeOf (bif b then r else l) v = some c' := by
  rw [codeOf] at h
  split at h
  next cl hl => exact ⟨false, cl, (Option.some.inj h).symm, hl⟩
  next =>
    obtain ⟨cr, hr, hc⟩ := Option.map_eq_some_iff.mp h
    exact ⟨true, cr, hc.symm, hr⟩

theorem codeOf_pos {t : Node} {v : Sym} {c : List Bool} (ht : t.isInternal = true) (h : codeOf t v = some c) :
    1 ≤ c.length := by
  cases t with
  | leaf => cases ht
  | guard => cases ht
  | internal l r w =>
    obtain ⟨b, c', rfl, -⟩ := codeOf_internal h
    exact Nat.succ_le_succ (Nat.zero_le _)

/-- Settles O38: walking along the longer code reaches the leaf of the shorter one first. -/
theorem codesArePrefixFree : Obligations.CodesArePrefixFree := by
  refine fun tree a b ca cb ha hb => ⟨fun ⟨rest, hrest⟩ => ?_, fun ht => codeOf_pos ht ha⟩
  have hwalk := walkWith_codeOf tree b hb []
  rw [← hrest, List.append_nil, walkWith_codeOf tree a ha rest] at hwalk
  exact WalkResult.symbol.inj (Prod.ext_iff.mp hwalk).1

/-! ## The height of a built tree (R267) -/

/-- The number of edges on the longest path from the root. -/
def height : Node → Nat
  | .leaf _ => 0
  | .guard => 0
  | .internal l r _ => max (height l) (height r) + 1

theorem codeOf_length_le_height {t : Node} {v : Sym} {c : List Bool} (h : codeOf t v = some c) :
    c.length ≤ height t := by
  induction t generalizing c with
  | leaf u =>
    rw [codeOf] at h
    split_ifs at h
    exact (congrArg List.length (Option.some.inj h)).ge
  | guard => cases h
  | internal l r w ihl ihr =>
    obtain ⟨b, c', rfl, hc⟩ := codeOf_internal h
    refine Nat.succ_le_succ ?_
    cases b with
    | false => exact (ihl hc).trans (Nat.le_max_left _ _)
    | true => exact (ihr hc).trans (Nat.le_max_right _ _)

/-- Weights grow with the height like the Fibonacci numbers: an element's own weight is at least the number for its
height, and every element's weight at least the one before it. -/
def FibHeavy (q : List QItem) : Prop :=
  ∀ x ∈ q, Nat.fib (height x.node + 1) ≤ x.w.toNat ∧ ∀ y ∈ q, Nat.fib (height x.node) ≤ y.w.toNat

theorem fibHeavy_initialQueue {ft : List FtEntry} (h : ∀ e ∈ ft, 1 ≤ e.freq.toNat) :
    FibHeavy (initialQueue ft) := by
  intro x hx
  obtain ⟨e, he, hnode, hw⟩ := mem_initialQueue hx
  rw [hnode, hw]
  exact ⟨h e he, fun _ _ => Nat.zero_le _⟩

/-- A merge keeps it, since the two children weigh no more than any other element. -/
theorem FibHeavy.merge {q r : List QItem} {a b : QItem} (h : FibHeavy q) (c : Nat) (hperm : q.Perm (a :: b :: r))
    (ha : ∀ x ∈ b :: r, a.Less x) (hb : ∀ x ∈ r, b.Less x) (hsum : a.w.toNat + b.w.toNat < 2 ^ 64) :
    FibHeavy (r ++ [mergeItems a b c]) := by
  have hmem : ∀ {x}, x ∈ a :: b :: r → x ∈ q := hperm.mem_iff.mpr
  have haq : a ∈ q := hmem List.mem_cons_self
  have hrq : ∀ {x}, x ∈ r → x ∈ q := fun hx => hmem (List.mem_cons_of_mem a (List.mem_cons_of_mem b hx))
  obtain ⟨haw, hafib⟩ := h a haq
  obtain ⟨hbw, hbfib⟩ := h b (hmem (List.mem_cons_of_mem a List.mem_cons_self))
  have hchildren : Nat.fib (max (height a.node) (height b.node)) ≤ a.w.toNat ∧
      Nat.fib (max (height a.node) (height b.node) + 1) ≤ b.w.toNat := by
    rcases max_choice (height a.node) (height b.node) with hmax | hmax <;> rw [hmax]
    · exact ⟨hafib a haq, haw.trans (ha b List.mem_cons_self).le⟩
    · exact ⟨hbfib a haq, hbw⟩
  have hw := mergeItems_weight hsum c
  intro x hx
  rcases List.mem_append.mp hx with hx | hx
  · obtain ⟨hxw, hxfib⟩ := h x (hrq hx)
    refine ⟨hxw, fun y hy => ?_⟩
    rcases List.mem_append.mp hy with hy | hy
    · exact hxfib y (hrq hy)
    · rw [List.mem_singleton.mp hy, hw]
      exact (hxfib a haq).trans (Nat.le_add_right _ _)
  · rw [List.mem_singleton.mp hx]
    refine ⟨?_, fun y hy => hchildren.2.trans ?_⟩
    · rw [hw]
      exact Nat.fib_add_two.trans_le (Nat.add_le_add hchildren.1 hchildren.2)
    · rcases List.mem_append.mp hy with hy | hy
      · exact (hb y hy).le
      · rw [List.mem_singleton.mp hy, hw]
        exact Nat.le_add_left _ _

/-- The 94th Fibonacci number is above every weight. -/
theorem height_buildTree_le {ft : List FtEntry} {t : Node} (hfreq : ∀ e ∈ ft, 1 ≤ e.freq.toNat)
    (ht : buildTree ft = some t) : height t ≤ 92 := by
  rcases Nat.lt_or_ge ft.length 2 with hone | htwo
  · obtain ⟨v, f, hdeg⟩ := buildTree_degenerate (Nat.le_of_lt_succ hone)
    obtain rfl := Option.some.inj (ht.symm.trans hdeg)
    exact (by decide : 1 ≤ 92)
  · rcases (buildTree_greedy htwo).induct (P := FibHeavy) (fun c hperm ha hb hsum hq => hq.merge c hperm ha hb hsum)
      (fibHeavy_initialQueue hfreq) with ⟨a, htree, hheavy⟩ | ⟨htree, -⟩
    · obtain rfl := Option.some.inj (ht.symm.trans htree)
      obtain ⟨hfib, -⟩ := hheavy a (List.mem_singleton_self a)
      by_contra hhigh
      have hlow : Nat.fib 94 ≤ Nat.fib (height a.node + 1) := Nat.fib_mono (by omega)
      have hbig : 2 ^ 64 ≤ Nat.fib 94 := by norm_num
      exact absurd a.w.isLt (Nat.not_lt.mpr (hbig.trans (hlow.trans hfib)))
    · cases ht.symm.trans htree

/-- Settles O41: a code is no longer than the tree is high. -/
theorem codesStayBelowCodeMax : Obligations.CodesStayBelowCodeMax := by
  intro ft tree v c hfreq htree hcode
  have := (codeOf_length_le_height hcode).trans (height_buildTree_le hfreq htree)
  omega

/-! ## HT_CODE (R264) -/

theorem bitsValue_snoc (l : List Bool) (b : Bool) : bitsValue (l ++ [b]) = 2 * bitsValue l + b.toNat := by
  rw [bitsValue, List.foldl_append]
  rfl

theorem bitsOf_snoc (w v : Nat) (b : Bool) : bitsOf (w + 1) (2 * v + b.toNat) = bitsOf w v ++ [b] := by
  induction w with
  | zero => simp only [bitsOf, ← Nat.bit_val, Nat.testBit_bit_zero, List.nil_append]
  | succ w ih =>
    rw [bitsOf, ih, ← Nat.bit_val, Nat.testBit_bit_succ]
    rfl

/-- `bitsValue` is the number whose string of that length a bit list is (R8). -/
theorem bitsOf_bitsValue (l : List Bool) : bitsOf l.length (bitsValue l) = l := by
  induction l using List.reverseRecOn with
  | nil => rfl
  | append_singleton l b ih => rw [List.length_append, List.length_singleton, bitsValue_snoc, bitsOf_snoc, ih]

theorem bitsValue_lt (l : List Bool) : bitsValue l < 2 ^ l.length := by
  induction l using List.reverseRecOn with
  | nil => exact Nat.zero_lt_one
  | append_singleton l b ih =>
    have := b.toNat_lt
    rw [List.length_append, List.length_singleton, bitsValue_snoc]
    omega

section
variable {s : State}

theorem needTree_of_none (h : s.tree = none) : needTree s = .fault .noTree 0 s := by
  rw [needTree, h]

theorem needTree_of_some {tree : Node} (h : s.tree = some tree) : needTree s = .ok tree s := by
  rw [needTree, h]

variable {tree : Node} {v : Sym} {c : List Bool}

theorem needCode_of_none (h : codeOf tree v = none) (s : State) :
    needCode tree v s = .fault .noCode (v.setWidth 64) s := by
  rw [needCode, h]

theorem needCode_of_long (h : codeOf tree v = some c) (hlen : 128 < c.length) (s : State) :
    needCode tree v s = .fault .codeTooLong (v.setWidth 64) s := by
  rw [needCode, h]
  exact if_pos hlen

theorem needCode_of_le (h : codeOf tree v = some c) (hlen : c.length ≤ 128) (s : State) :
    needCode tree v s = .ok c s := by
  rw [needCode, h]
  exact if_neg (Nat.not_lt.mpr hlen)

/-- The body of HT_CODE after its checks of ARG0 and ARG1. -/
def htCodeLookup (v : Sym) (j : Nat) (s : State) : Res Results :=
  (needTree s).bind fun tree s => (needCode tree v s).bind fun c s =>
    .ok (Results.two (BitVec.ofNat 64 c.length) (BitVec.ofNat 64 (bitsValue c >>> (64 * j)))) s

/-- HT_CODE of a 16-bit symbol checks ARG1 next. -/
theorem exec_htCode (h : s.Ready) (harg : s.arg0 = v.setWidth 64) :
    exec .htCode s = finish ((argWordIndex s).bind (htCodeLookup v)) := by
  have hnat : s.arg0.toNat = v.toNat := by rw [harg, BitVec.toNat_setWidth_of_le (by decide)]
  have hdom : decide (s.arg0.toNat ≤ 65535) = true := decide_eq_true (by have := v.isLt; omega)
  have hsym : BitVec.ofNat 16 s.arg0.toNat = v := by rw [hnat, BitVec.ofNat_toNat, BitVec.setWidth_eq]
  have hexec := runCommand_arg0_of_ok h (ok := fun _ v => decide (v ≤ 65535)) hdom fun v s =>
    (argWordIndex s).bind (htCodeLookup (BitVec.ofNat 16 v))
  rw [hsym] at hexec
  exact hexec

theorem exec_htCode_badIndex (h : s.Ready) (harg : s.arg0 = v.setWidth 64) (hj : 1 < s.arg1.toNat) :
    exec .htCode s = .next (faulted 0x04 1 s) := by
  rw [exec_htCode h harg, argWordIndex, arg1Where, decide_eq_false (Nat.not_le.mpr hj)]
  rfl

theorem exec_htCode_of_le (h : s.Ready) (harg : s.arg0 = v.setWidth 64) (hj : s.arg1.toNat ≤ 1) :
    exec .htCode s = finish (htCodeLookup v s.arg1.toNat s) := by
  rw [exec_htCode h harg, argWordIndex, arg1Where, if_pos (decide_eq_true hj), Res.bind_ok]

end

/-- Settles O39: the five faults in order, and the code as the number `bitsValue` gives it. -/
theorem htCodeReturnsCode : Obligations.HtCodeReturnsCode := by
  refine ⟨decodeCommand_eq_ok_iff_encodeCommand.mpr rfl, fun s hready => ⟨fun hbad => ?_, fun v harg =>
    ⟨exec_htCode_badIndex hready harg, fun hj => ⟨fun ht => ?_, fun tree ht => ⟨fun hc => ?_, fun c hc =>
      ⟨fun hlen => ?_, fun hlen => ⟨bitsValue c, bitsValue_lt c, bitsOf_bitsValue c, ?_⟩⟩⟩⟩⟩⟩⟩
  · exact runCommand_arg0_of_not_ok hready (ok := fun _ v => decide (v ≤ 65535))
      (decide_eq_false (Nat.not_le.mpr hbad)) _
  · rw [exec_htCode_of_le hready harg hj, htCodeLookup, needTree_of_none ht]
    rfl
  all_goals rw [exec_htCode_of_le hready harg hj, htCodeLookup, needTree_of_some ht, Res.bind_ok]
  · rw [needCode_of_none hc, harg]
    rfl
  · rw [needCode_of_long hc hlen, harg]
    rfl
  · rw [needCode_of_le hc hlen, Res.bind_ok, Nat.shiftRight_eq_div_pow]
    rfl

end Sys2Proof.Machine
end

section
/-! The decoder tree walk (R265, R293): one bit of IN as the head of the stream's bit list, the walk over IN as the walk
over that list, and HD_WALK. -/

namespace Sys2Proof.Machine

/-! ## Bits of the stream -/

/-- The state after `n` bits of IN. -/
def State.advance (s : State) (n : Nat) : State := { s with brPos := s.brPos + BitVec.ofNat 64 n }

theorem State.advance_zero (s : State) : s.advance 0 = s := by
  rw [State.advance, BitVec.add_zero]

theorem State.advance_advance (s : State) (m n : Nat) : (s.advance m).advance n = s.advance (m + n) := by
  simp only [State.advance, BitVec.add_assoc, BitVec.ofNat_add]

theorem State.advance_brPos (s : State) (n : Nat) : (s.advance n).brPos = BitVec.ofNat 64 (s.brPos.toNat + n) := by
  rw [State.advance, BitVec.ofNat_add, BitVec.ofNat_toNat, BitVec.setWidth_eq]

theorem streamBits_length (s : State) : (streamBits s).length = 8 * s.inLen.toNat - s.brPos.toNat := by
  rw [streamBits, List.length_map, List.length_range]

/-- Consuming every bit left leads to the end of IN, or leaves BR_POS where it is past it. -/
theorem endPos_eq (s : State) : (s.advance (streamBits s).length).brPos = endPos s := by
  rw [State.advance_brPos, streamBits_length, endPos]
  split_ifs with h
  · rw [Nat.add_sub_cancel' h.le]
  · rw [Nat.sub_eq_zero_of_le (Nat.le_of_not_lt h), Nat.add_zero, BitVec.ofNat_toNat, BitVec.setWidth_eq]

theorem getBit_of_nil {s : State} (h : streamBits s = []) : getBit s = (none, setEos s) := by
  have hlen := streamBits_length s
  rw [h, List.length_nil] at hlen
  rcases getBit_cases s with ⟨-, hget⟩ | ⟨hlt, -⟩
  · exact hget
  · omega

/-- The bit at BR_POS is the head of the list, and the stream after it the tail. -/
theorem getBit_of_cons {s : State} (hs : ShortInput s) {b : Bool} {l : List Bool} (h : streamBits s = b :: l) :
    getBit s = (some b, s.advance 1) ∧ streamBits (s.advance 1) = l := by
  obtain ⟨hbit, hrest, -⟩ := getBit_alike _ s ⟨rfl, hs⟩
  rw [h] at hbit hrest
  rcases getBit_cases s with ⟨-, hget⟩ | ⟨-, hget⟩
  · rw [hget] at hbit
    cases hbit
  · rw [hget] at hbit hrest
    exact ⟨hget.trans (congrArg (·, s.advance 1) hbit.symm), hrest.symm⟩

/-! ## Walking down the tree -/

theorem walkWith_listBit_cons (l r : Node) (w : Word) (b : Bool) (bits : List Bool) :
    walkWith listBit (.internal l r w) (b :: bits) = walkWith listBit (bif b then r else l) bits := by
  cases b <;> rfl

section
variable {s : State} {l r : Node} {w : Word}

theorem walk_internal_of_nil (h : streamBits s = []) : walk (.internal l r w) s = (.endOfStream, setEos s) := by
  rw [walk, walkWith, getBit_of_nil h]

theorem walk_internal_of_cons (hs : ShortInput s) {b : Bool} {bits : List Bool} (h : streamBits s = b :: bits) :
    walk (.internal l r w) s = walk (bif b then r else l) (s.advance 1) := by
  rw [walk, walkWith, (getBit_of_cons hs h).1]
  cases b <;> rfl

end

/-- A walk that ends in the tree consumes the bits of its path, at least one from an Internal root. -/
theorem walk_of_node {tree : Node} {s : State} {e : WalkResult} {rest : List Bool} (hs : ShortInput s)
    (h : walkWith listBit tree (streamBits s) = (e, rest)) (he : e ≠ .endOfStream) :
    ∃ path, streamBits s = path ++ rest ∧ (tree.isInternal = true → path ≠ []) ∧
      walk tree s = (e, s.advance path.length) := by
  induction tree generalizing s with
  | leaf v =>
    obtain ⟨rfl, rfl⟩ := Prod.mk.inj h
    exact ⟨[], rfl, nofun, by rw [List.length_nil, State.advance_zero]; rfl⟩
  | guard =>
    obtain ⟨rfl, rfl⟩ := Prod.mk.inj h
    exact ⟨[], rfl, nofun, by rw [List.length_nil, State.advance_zero]; rfl⟩
  | internal l r w ihl ihr =>
    cases hbits : streamBits s with
    | nil =>
      rw [hbits] at h
      exact absurd (Prod.mk.inj h).1.symm he
    | cons b bits =>
      have hnext := (getBit_of_cons hs hbits).2
      rw [hbits, walkWith_listBit_cons, ← hnext] at h
      have ih : ∃ path, streamBits (s.advance 1) = path ++ rest ∧
          walk (bif b then r else l) (s.advance 1) = (e, (s.advance 1).advance path.length) := by
        cases b with
        | false => exact (ihl (s := s.advance 1) hs h).imp fun _ ⟨hpath, _, hwalk⟩ => ⟨hpath, hwalk⟩
        | true => exact (ihr (s := s.advance 1) hs h).imp fun _ ⟨hpath, _, hwalk⟩ => ⟨hpath, hwalk⟩
      obtain ⟨path, hpath, hwalk⟩ := ih
      refine ⟨b :: path, congrArg (b :: ·) (hnext.symm.trans hpath), nofun, ?_⟩
      rw [walk_internal_of_cons hs hbits, hwalk, State.advance_advance, Nat.add_comm, List.length_cons]

/-- A walk that meets the end of IN consumes every bit left and sets EOS. -/
theorem walk_of_end {tree : Node} {s : State} {rest : List Bool} (hs : ShortInput s)
    (h : walkWith listBit tree (streamBits s) = (.endOfStream, rest)) :
    walk tree s = (.endOfStream, setEos (s.advance (streamBits s).length)) := by
  induction tree generalizing s with
  | leaf v => cases h
  | guard => cases h
  | internal l r w ihl ihr =>
    cases hbits : streamBits s with
    | nil => rw [walk_internal_of_nil hbits, List.length_nil, State.advance_zero]
    | cons b bits =>
      have hnext := (getBit_of_cons hs hbits).2
      rw [hbits, walkWith_listBit_cons, ← hnext] at h
      have ih : walk (bif b then r else l) (s.advance 1) =
          (.endOfStream, setEos ((s.advance 1).advance (streamBits (s.advance 1)).length)) := by
        cases b with
        | false => exact ihl hs h
        | true => exact ihr hs h
      rw [walk_internal_of_cons hs hbits, ih, State.advance_advance, hnext, Nat.add_comm, List.length_cons]

/-- BR_POS after a walk in terms of the bits it left. -/
theorem advance_brPos_of_append {s : State} {path rest : List Bool} (h : streamBits s = path ++ rest)
    (hpath : path ≠ []) :
    (s.advance path.length).brPos = BitVec.ofNat 64 (8 * s.inLen.toNat - rest.length) := by
  have hlen := streamBits_length s
  have hpos := List.length_pos_iff.mpr hpath
  rw [h, List.length_append] at hlen
  rw [State.advance_brPos]
  congr 1
  omega

/-! ## HD_WALK (R265) -/

/-- How HD_WALK ends, by the end of its walk. -/
def hdWalkEnd : WalkResult → State → Res Results
  | .symbol v, s => .ok (Results.two (v.setWidth 64) 0) s
  | .endOfStream, s => .ok (Results.two 0 1) s
  | .guardReached, s => .fault .guardCode s.brPos s

section
variable {s : State} {tree : Node}

theorem exec_hdWalk_noTree (h : s.Ready) (ht : s.tree = none) : exec .hdWalk s = .next (faulted 0x09 0 s) := by
  refine (runCommand_of_ready h _).trans ?_
  rw [needTree_of_none ht]
  rfl

theorem exec_hdWalk (h : s.Ready) (ht : s.tree = some tree) :
    exec .hdWalk s = finish (hdWalkEnd (walk tree s).1 (walk tree s).2) := by
  refine (runCommand_of_ready h _).trans ?_
  rw [needTree_of_some ht, Res.bind_ok]
  rcases walk tree s with ⟨_ | _ | _, t⟩ <;> rfl

end

/-- Settles O40: the four ends of the walk; a symbol's code is a path to its leaf. -/
theorem hdWalkFollowsStream : Obligations.HdWalkFollowsStream := by
  refine ⟨decodeCommand_eq_ok_iff_encodeCommand.mpr rfl, fun s hready => ⟨exec_hdWalk_noTree hready,
    fun tree ht hint => ⟨fun v c rest hc hbits => ?_, fun v rest hwalk => ?_, fun rest hwalk => ?_,
      fun rest pos hwalk hpos => ?_⟩⟩⟩
  all_goals rw [exec_hdWalk hready ht]
  · obtain ⟨path, hpath, -, hw⟩ := walk_of_node (e := .symbol v) (rest := rest) hready.short
      (hbits ▸ walkWith_codeOf tree v hc rest) nofun
    rw [hw, List.append_cancel_right (hbits.symm.trans hpath)]
    rfl
  · obtain ⟨path, hpath, hne, hw⟩ := walk_of_node hready.short hwalk nofun
    rw [hw, ← advance_brPos_of_append hpath (hne hint)]
    rfl
  · rw [walk_of_end hready.short hwalk, ← endPos_eq]
    rfl
  · obtain ⟨path, hpath, hne, hw⟩ := walk_of_node hready.short hwalk nofun
    rw [hw, hpos, ← advance_brPos_of_append hpath (hne hint)]
    rfl

end Sys2Proof.Machine
end

section
/-! What a run of writes leaves in OUT and RING (R86), byte by byte: each byte at its index of OUT, the last 32768 of
them each in its slot of RING, and every other slot as it was. -/

namespace Sys2Proof.Machine

theorem Sparse.get?_setAll_inside {α : Type} (vs : List α) (m : Sparse α) (a : Nat) {i : Nat} (hi : i < vs.length) :
    Sparse.get? (Sparse.setAll m a vs) (a + i) = vs[i]? := by
  induction vs generalizing m a i with
  | nil => exact absurd hi (Nat.not_lt_zero i)
  | cons v vs ih =>
    cases i with
    | zero => exact (Sparse.get?_setAll_outside vs _ (.inl (Nat.lt_succ_self a))).trans (Sparse.get?_set_same m a v)
    | succ i =>
      rw [List.getElem?_cons_succ, ← ih (Sparse.set m a v) (a + 1) (Nat.lt_of_succ_lt_succ hi), Nat.add_right_comm]
      rfl

theorem ringSetAll_snoc (vs : List Byte) (v : Byte) (r : Memory) (a : Nat) :
    ringSetAll r a (vs ++ [v]) = Sparse.set (ringSetAll r a vs) ((a + vs.length) % Config.ringSize) v :=
  ringSetAll_append vs [v] r a

/-- The last `Config.ringSize` bytes of a run have slots of their own. -/
theorem get?_ringSetAll_inside (vs : List Byte) (r : Memory) (a : Nat) {i : Nat} (hi : i < vs.length)
    (hwin : vs.length ≤ i + Config.ringSize) :
    Sparse.get? (ringSetAll r a vs) ((a + i) % Config.ringSize) = vs[i]? := by
  induction vs using List.reverseRecOn with
  | nil => exact absurd hi (Nat.not_lt_zero i)
  | append_singleton vs v ih =>
    rw [List.length_append, List.length_singleton] at hi hwin
    rw [ringSetAll_snoc]
    rcases Nat.lt_succ_iff_lt_or_eq.mp hi with hlt | rfl
    · have hslot : (a + i) % Config.ringSize ≠ (a + vs.length) % Config.ringSize := by
        simp only [Config.ringSize] at hwin ⊢
        omega
      rw [Sparse.get?_set_other _ _ hslot, ih hlt (by omega), List.getElem?_append_left hlt]
    · rw [Sparse.get?_set_same, List.getElem?_concat_length]

/-- A slot that no index of the run has is left as it was. -/
theorem get?_ringSetAll_outside (vs : List Byte) (r : Memory) (a : Nat) {k : Nat}
    (h : ∀ i < vs.length, (a + i) % Config.ringSize ≠ k) : Sparse.get? (ringSetAll r a vs) k = Sparse.get? r k := by
  induction vs using List.reverseRecOn with
  | nil => rfl
  | append_singleton vs v ih =>
    rw [List.length_append, List.length_singleton] at h
    rw [ringSetAll_snoc, Sparse.get?_set_other _ _ (h _ (Nat.lt_succ_self _)).symm,
      ih fun i hi => h i (Nat.lt_succ_of_lt hi)]

section
variable {start : Nat} {s t : State} {bs : List Byte}

theorem Wrote.get?_outMem (h : Wrote start s bs t) {i : Nat} (hi : i < bs.length) :
    Sparse.get? t.outMem (start + i) = bs[i]? := by
  rw [h.out, Sparse.get?_setAll_inside bs s.outMem start hi]

theorem Wrote.outByte_eq (h : Wrote start s bs t) {i : Nat} (hi : i < bs.length) :
    outByte t (start + i) = bs[i] := by
  rw [outByte, h.get?_outMem hi, List.getElem?_eq_getElem hi, Option.getD_some]

/-- OUT holds the bytes written, in order. -/
theorem Wrote.outBytes_eq (h : Wrote start s bs t) : outBytes t start bs.length = bs := by
  refine List.ext_getElem (by rw [outBytes, List.length_map, List.length_range]) fun i _ hi => ?_
  simp only [outBytes, List.getElem_map, List.getElem_range]
  exact h.outByte_eq hi

theorem Wrote.ringFollows (h : Wrote start s bs t) : RingFollows s t start := by
  have hlen := h.outLen
  refine ⟨fun i hstart hi hwin => ?_, fun k hk => ?_⟩
  · obtain ⟨j, rfl⟩ := Nat.exists_eq_add_of_le hstart
    have hj : j < bs.length := by omega
    rw [h.outByte_eq hj, h.ring, get?_ringSetAll_inside bs s.ring start hj (by omega), List.getElem?_eq_getElem hj]
  · rw [h.ring]
    exact get?_ringSetAll_outside bs s.ring start fun i hi => hk (start + i) (Nat.le_add_right start i) (by omega)

end

end Sys2Proof.Machine
end

section
/-! The bit packer (R291, R292, R295): the bytes a run of PutBit writes and the bits it leaves pending hold the bits that
were pending and the bits put; BW_PUTBITS and BW_FLUSH. -/

namespace Sys2Proof.Machine

/-! ## Bits of bytes -/

/-- The bits of a byte list, each byte's bit 7 first (R83). -/
def bytesBits (bs : List Byte) : List Bool := bs.flatMap fun b => bitsOf 8 b.toNat

theorem bytesBits_append (bs cs : List Byte) : bytesBits (bs ++ cs) = bytesBits bs ++ bytesBits cs :=
  List.flatMap_append

theorem bytesBits_singleton (b : Byte) : bytesBits [b] = bitsOf 8 b.toNat := List.append_nil _

theorem bytesBits_length (bs : List Byte) : (bytesBits bs).length = 8 * bs.length := by
  induction bs with
  | nil => rfl
  | cons b bs ih =>
    change (bitsOf 8 b.toNat ++ bytesBits bs).length = _
    rw [List.length_append, bitsOf_length, ih, List.length_cons]
    omega

/-- Zeros below a number are zeros after its bit string. -/
theorem bitsOf_mul_two_pow (w k v : Nat) : bitsOf (w + k) (v * 2 ^ k) = bitsOf w v ++ List.replicate k false := by
  induction k with
  | zero => simp
  | succ k ih =>
    rw [List.replicate_succ', ← List.append_assoc, ← ih, ← bitsOf_snoc]
    congr 1
    rw [Bool.toNat_false, Nat.pow_succ]
    ring

/-- The low `w` bits decide a `w`-bit string. -/
theorem bitsOf_congr {w u v : Nat} (h : ∀ j < w, u.testBit j = v.testBit j) : bitsOf w u = bitsOf w v := by
  induction w with
  | zero => rfl
  | succ w ih =>
    rw [bitsOf, bitsOf, h w (Nat.lt_succ_self w), ih fun j hj => h j (Nat.lt_succ_of_lt hj)]

theorem bitsOf_mod_two_pow (w v : Nat) : bitsOf w (v % 2 ^ w) = bitsOf w v :=
  bitsOf_congr fun j hj => by rw [Nat.testBit_mod_two_pow, decide_eq_true hj, Bool.true_and]

theorem pendingBits_length (s : State) : (pendingBits s).length = s.bwCnt.toNat := bitsOf_length _ _

theorem pendingBits_of_empty {s : State} (h : s.bwCnt = 0) : pendingBits s = [] := by
  rw [pendingBits, h]
  rfl

/-- BW_ACC shifted left by one with the new bit below, as a number (R291). -/
theorem pushBit_toNat {acc : Byte} (h : acc.toNat < 2 ^ 7) (b : Bool) :
    ((acc <<< 1) ||| (BitVec.ofBool b).setWidth 8).toNat = 2 * acc.toNat + b.toNat := by
  have hb : ((BitVec.ofBool b).setWidth 8).toNat = b.toNat := by cases b <;> rfl
  rw [BitVec.toNat_or, BitVec.toNat_shiftLeft, hb, Nat.shiftLeft_eq, Nat.mod_eq_of_lt (by omega), ← Nat.shiftLeft_eq,
    ← Nat.shiftLeft_add_eq_or_of_lt (by simpa using b.toNat_lt), Nat.shiftLeft_eq]
  omega

/-! ## What the packer leaves behind -/

/-- `t` is `s` after the packer took the bits `l`: of the bits pending in `s` and then `l`, it wrote the full bytes `bs`
at OUT_LEN and keeps the rest pending. -/
structure Packs (s : State) (l : List Bool) (bs : List Byte) (t : State) : Prop where
  same : SameButOutput s t
  wrote : Wrote s.outLen.toNat s bs t
  packer : t.PackerOk
  content : bytesBits bs ++ pendingBits t = pendingBits s ++ l

section
variable {s t u : State} {l m : List Bool} {bs cs : List Byte}

theorem Packs.nil (h : s.PackerOk) : Packs s [] [] s := ⟨rfl, .nothing rfl, h, (List.append_nil _).symm⟩

theorem Packs.trans (h : Packs s l bs t) (h' : Packs t m cs u) : Packs s (l ++ m) (bs ++ cs) u where
  same := h.same.trans h'.same
  wrote := h.wrote.trans h'.wrote
  packer := h'.packer
  content := by
    rw [bytesBits_append, List.append_assoc, h'.content, ← List.append_assoc, h.content, List.append_assoc]

/-- No bit is lost. -/
theorem Packs.count (h : Packs s l bs t) : 8 * bs.length + t.bwCnt.toNat = s.bwCnt.toNat + l.length := by
  have hlen := congrArg List.length h.content
  rwa [List.length_append, List.length_append, bytesBits_length, pendingBits_length, pendingBits_length] at hlen

theorem Packs.writtenBits_eq (h : Packs s l bs t) : writtenBits t s.outLen.toNat = pendingBits s ++ l := by
  rw [writtenBits, h.wrote.outLen, Nat.add_sub_cancel_left, h.wrote.outBytes_eq]
  exact h.content

theorem Packs.outLen_toNat (h : Packs s l bs t) :
    t.outLen.toNat = s.outLen.toNat + (s.bwCnt.toNat + l.length) / 8 := by
  have hcount := h.count
  have hcnt := t.bwCnt.isLt
  rw [h.wrote.outLen]
  omega

theorem Packs.bwCnt_toNat (h : Packs s l bs t) : t.bwCnt.toNat = (s.bwCnt.toNat + l.length) % 8 := by
  have hcount := h.count
  have hcnt := t.bwCnt.isLt
  omega

theorem Packs.appended (h : Packs s l bs t) : Appended s t l := by
  have hlen : t.outLen = s.outLen + BitVec.ofNat 64 ((s.bwCnt.toNat + l.length) / 8) := by
    have hlt := t.outLen.isLt
    have hnat := h.outLen_toNat
    refine BitVec.eq_of_toNat_eq ?_
    rw [BitVec.toNat_add, BitVec.toNat_ofNat, Nat.add_mod_mod, ← hnat, Nat.mod_eq_of_lt hlt]
  have hcnt : t.bwCnt = BitVec.ofNat 3 ((s.bwCnt.toNat + l.length) % 8) := by
    rw [← h.bwCnt_toNat, BitVec.ofNat_toNat, BitVec.setWidth_eq]
  refine ⟨?_, h.packer, h.writtenBits_eq, h.wrote.ringFollows, fun a ha => h.wrote.out_outside ha⟩
  rw [← hlen, ← hcnt]
  exact h.same

/-! ## PutBit (R291) -/

/-- A full byte goes out, and the packer starts afresh. -/
theorem packs_appendByte (hroom : s.outLen.toNat < s.outCap.toNat) {v : Byte}
    (hv : bitsOf 8 v.toNat = pendingBits s ++ l) :
    Packs s l [v] { appendByte v s with bwAcc := 0, bwCnt := 0 } where
  same := rfl
  wrote :=
    have hlen := appendByte_outLen_toNat (v := v) hroom
    ⟨rfl, hlen, fun _ => hlen.trans_le hroom, rfl, rfl⟩
  packer := Nat.one_pos
  content := (List.append_nil _).trans ((bytesBits_singleton v).trans hv)

/-- What PutBit can do, with its bit accounted for: it takes the bit, or it meets the end of OUT with seven pending. -/
theorem putBit_packs (h : s.PackerOk) (b : Bool) :
    (∃ t bs, putBit b s = .ok () t ∧ Packs s [b] bs t) ∨
      (s.bwCnt.toNat = 7 ∧ s.outCap.toNat ≤ s.outLen.toNat ∧ putBit b s = .fault .outOverflow s.outLen s) := by
  have hacc : s.bwAcc.toNat < 2 ^ 7 := lt_of_lt_of_le h (Nat.pow_le_pow_right two_pos (by have := s.bwCnt.isLt; omega))
  rcases putBit_cases b s with ⟨hcnt, heq⟩ | ⟨hcnt, hroom, heq⟩ | hfull
  · have hsucc : (s.bwCnt + 1).toNat = s.bwCnt.toNat + 1 := by bv_omega
    refine .inl ⟨_, [], heq, rfl, .nothing rfl, pushBit_lt h hcnt b, ?_⟩
    change bitsOf (s.bwCnt + 1).toNat _ = _
    rw [hsucc, pushBit_toNat hacc, bitsOf_snoc]
    rfl
  · refine .inl ⟨_, _, heq, packs_appendByte hroom ?_⟩
    rw [pushBit_toNat hacc, bitsOf_snoc, pendingBits, hcnt]
  · exact .inr hfull

/-- Room for a list of bits is room for its first bit and then for the others. -/
theorem Packs.roomFor {k : Nat} (h : Packs s l bs t) (hroom : s.RoomFor (l.length + k)) : t.RoomFor k := by
  have hlen := h.outLen_toNat
  have hcnt := h.bwCnt_toNat
  have hcap := h.same.outCap
  simp only [State.RoomFor, hcap]
  rcases hroom with hpend | hroom <;> omega

/-! ## Runs of PutBit -/

theorem putBitList_append (l m : List Bool) (s : State) :
    putBitList (l ++ m) s = (putBitList l s).bind fun _ t => putBitList m t := by
  induction l generalizing s with
  | nil => rfl
  | cons b l ih => simp only [List.cons_append, putBitList, Res.bind_assoc, ih]

/-- A run of PutBit that ends has taken its bits. -/
theorem putBitList_packs (h : s.PackerOk) (hput : putBitList l s = .ok () t) : ∃ bs, Packs s l bs t := by
  induction l generalizing s with
  | nil =>
    obtain rfl : s = t := (Res.ok.inj hput).2
    exact ⟨[], .nil h⟩
  | cons b l ih =>
    rw [putBitList, Res.bind_eq_ok] at hput
    obtain ⟨_, u, hbit, hrest⟩ := hput
    rcases putBit_packs h b with ⟨u', bs, hok, hpacks⟩ | ⟨-, -, hfault⟩
    · obtain rfl : u' = u := (Res.ok.inj (hok.symm.trans hbit)).2
      obtain ⟨cs, hpacks'⟩ := ih hpacks.packer hrest
      exact ⟨bs ++ cs, hpacks.trans hpacks'⟩
    · cases hfault.symm.trans hbit

/-- With room for its bits a run of PutBit ends. -/
theorem putBitList_of_roomFor (h : s.PackerOk) (hroom : s.RoomFor l.length) :
    ∃ t bs, putBitList l s = .ok () t ∧ Packs s l bs t := by
  induction l generalizing s with
  | nil => exact ⟨s, [], rfl, .nil h⟩
  | cons b l ih =>
    rcases putBit_packs h b with ⟨u, bs, hok, hpacks⟩ | ⟨hcnt, hfull, -⟩
    · obtain ⟨t, cs, hrest, hpacks'⟩ := ih hpacks.packer
        (hpacks.roomFor (by rwa [List.length_singleton, Nat.add_comm]))
      refine ⟨t, bs ++ cs, ?_, hpacks.trans hpacks'⟩
      rw [putBitList, hok, Res.bind_ok, hrest]
    · simp only [State.RoomFor, List.length_cons] at hroom
      omega

/-- Without room it takes the bits up to the last one of the byte that does not fit, and faults there. -/
theorem putBitList_of_not_roomFor (h : s.PackerOk) (hroom : ¬ s.RoomFor l.length) :
    ∃ t, Overflowed s t l ∧ putBitList l s = .fault .outOverflow t.outLen t := by
  have hpend : s.bwCnt.toNat ≤ 8 * (s.outCap.toNat - s.outLen.toNat) + 7 := by
    have := s.bwCnt.isLt
    omega
  obtain ⟨k, hk⟩ := Nat.exists_eq_add_of_le hpend
  have hkl : k < l.length := by
    simp only [State.RoomFor] at hroom
    omega
  have hlen : (l.take k).length = k := List.length_take_of_le hkl.le
  obtain ⟨t, bs, hput, hpacks⟩ : ∃ t bs, putBitList (l.take k) s = .ok () t ∧ Packs s (l.take k) bs t := by
    refine putBitList_of_roomFor h ?_
    simp only [State.RoomFor, hlen]
    omega
  have hcnt := hpacks.bwCnt_toNat
  have hout := hpacks.outLen_toNat
  have hcap : t.outCap.toNat = s.outCap.toNat := congrArg BitVec.toNat hpacks.same.outCap
  rw [hlen, ← hk, Nat.mul_add_mod] at hcnt
  rw [hlen, ← hk] at hout
  have hbit : putBit l[k] t = .fault .outOverflow t.outLen t := by
    rcases putBit_cases l[k] t with ⟨hlt, -⟩ | ⟨-, hlt, -⟩ | ⟨-, -, hfault⟩
    · omega
    · omega
    · exact hfault
  refine ⟨t, ⟨k, hkl, hpacks.appended, BitVec.eq_of_toNat_eq hcnt, by omega⟩, ?_⟩
  rw [← List.take_append_drop k l, putBitList_append, hput, Res.bind_ok, List.drop_eq_getElem_cons hkl, putBitList, hbit,
    Res.bind_fault]

/-! ## Flush (R295) -/

/-- The pending bits moved to the top of the byte, as a number. -/
theorem padByte_toNat (h : s.PackerOk) :
    (s.bwAcc <<< (8 - s.bwCnt.toNat)).toNat = s.bwAcc.toNat * 2 ^ (8 - s.bwCnt.toNat) := by
  have hcnt := s.bwCnt.isLt
  have hlt : s.bwAcc.toNat * 2 ^ (8 - s.bwCnt.toNat) < 2 ^ s.bwCnt.toNat * 2 ^ (8 - s.bwCnt.toNat) :=
    Nat.mul_lt_mul_of_pos_right h (Nat.two_pow_pos _)
  rw [← Nat.pow_add, Nat.add_sub_cancel' (by omega)] at hlt
  rw [BitVec.toNat_shiftLeft, Nat.shiftLeft_eq, Nat.mod_eq_of_lt hlt]

theorem bwCnt_toNat_ne_zero (h : s.bwCnt ≠ 0) : s.bwCnt.toNat ≠ 0 := fun h0 => h (BitVec.eq_of_toNat_eq h0)

theorem flush_of_empty (h : s.bwCnt = 0) : flush s = .ok 0 s := if_pos (congrArg BitVec.toNat h)

theorem flush_of_pending (h : s.bwCnt ≠ 0) (hroom : s.outLen.toNat < s.outCap.toNat) :
    flush s = .ok (8 - s.bwCnt.toNat)
      { appendByte (s.bwAcc <<< (8 - s.bwCnt.toNat)) s with bwAcc := 0, bwCnt := 0 } := by
  rw [flush, if_neg (bwCnt_toNat_ne_zero h), outWrite, if_neg (Nat.not_le.mpr hroom), Res.bind_ok]

theorem flush_of_full (h : s.bwCnt ≠ 0) (hfull : s.outCap.toNat ≤ s.outLen.toNat) :
    flush s = .fault .outOverflow s.outLen s := by
  rw [flush, if_neg (bwCnt_toNat_ne_zero h), outWrite, if_pos hfull, Res.bind_fault]

/-- A Flush that ends has put its pad zeros, at most seven, and leaves nothing pending. -/
theorem flush_packs {pad : Nat} (h : s.PackerOk) (hflush : flush s = .ok pad t) :
    ∃ bs, Packs s (List.replicate pad false) bs t ∧ t.bwCnt = 0 ∧ pad ≤ 7 := by
  by_cases hcnt : s.bwCnt = 0
  · obtain ⟨rfl, rfl⟩ := Res.ok.inj ((flush_of_empty hcnt).symm.trans hflush)
    exact ⟨[], .nil h, hcnt, Nat.zero_le 7⟩
  · rcases Nat.lt_or_ge s.outLen.toNat s.outCap.toNat with hroom | hfull
    · obtain ⟨rfl, rfl⟩ := Res.ok.inj ((flush_of_pending hcnt hroom).symm.trans hflush)
      have hpos := bwCnt_toNat_ne_zero hcnt
      have hlt := s.bwCnt.isLt
      refine ⟨_, packs_appendByte hroom ?_, rfl, by omega⟩
      rw [padByte_toNat h, pendingBits, ← bitsOf_mul_two_pow, Nat.add_sub_cancel' (by omega)]
    · cases (flush_of_full hcnt hfull).symm.trans hflush

/-! ## The commands (R296, R297) -/

theorem exec_bwPutbits (h : s.Ready) (hw : s.arg0.toNat ≤ 64) :
    exec .bwPutbits s =
      finish ((putBitList (bitsOf s.arg0.toNat s.arg1.toNat) s).bind fun _ s => .ok Results.none s) := by
  refine (runCommand_arg0_of_ok h (ok := fun _ w => decide (w ≤ 64)) (decide_eq_true hw) _).trans ?_
  rw [putBits, bitsOf_mod_two_pow]

theorem exec_bwFlush (h : s.Ready) :
    exec .bwFlush s = finish ((flush s).bind fun pad s => .ok (Results.one (BitVec.ofNat 64 pad)) s) :=
  runCommand_of_ready h _

end

/-- Settles O42: the run of PutBit with and without room for its bits. -/
theorem bwPutbitsAppendsField : Obligations.BwPutbitsAppendsField := by
  refine ⟨decodeCommand_eq_ok_iff_encodeCommand.mpr rfl, fun s hready => ⟨fun hw => ?_, fun hw hok bits hbits =>
    ⟨fun hroom => ?_, fun hroom => ?_⟩⟩⟩
  · exact runCommand_arg0_of_not_ok hready (ok := fun _ w => decide (w ≤ 64)) (decide_eq_false (Nat.not_le.mpr hw)) _
  all_goals rw [exec_bwPutbits hready hw, ← hbits]
  · obtain ⟨t, bs, hput, hpacks⟩ := putBitList_of_roomFor hok hroom
    refine ⟨t, hpacks.appended, ?_⟩
    rw [hput, hpacks.same]
    rfl
  · obtain ⟨t, hover, hput⟩ := putBitList_of_not_roomFor hok hroom
    refine ⟨t, hover, ?_⟩
    rw [hput]
    rfl

/-- Settles O43: the three ways of Flush, the pad byte by its number. -/
theorem bwFlushPadsLastByte : Obligations.BwFlushPadsLastByte := by
  refine ⟨decodeCommand_eq_ok_iff_encodeCommand.mpr rfl, fun s hready hok => ⟨fun hcnt => ?_, fun hcnt hroom =>
    ⟨_, padByte_toNat hok, ?_⟩, fun hcnt hfull => ?_⟩⟩
  all_goals rw [exec_bwFlush hready]
  · rw [flush_of_empty hcnt]
    rfl
  · rw [flush_of_pending hcnt hroom]
    rfl
  · rw [flush_of_full hcnt hfull]
    rfl

end Sys2Proof.Machine
end

section
/-! The bit unpacker (R293, R294) over the list of its stream bits, BR_GETBITS, and the round trip: fields put, flushed
and copied to IN are the fields read back (R299). -/

namespace Sys2Proof.Machine

/-! ## Fields of the stream (R294) -/

section
variable {s : State} {l rest : List Bool}

/-- A field that the stream holds whole is read as the number of its bits, first bit most significant. -/
theorem readBitsWith_getBit_of_append (hs : ShortInput s) (h : streamBits s = l ++ rest) (v : Nat) :
    readBitsWith getBit l.length v s = (some (l.foldl (fun v b => 2 * v + b.toNat) v), s.advance l.length) ∧
      streamBits (s.advance l.length) = rest := by
  induction l generalizing s v with
  | nil =>
    rw [List.length_nil, State.advance_zero]
    exact ⟨rfl, h⟩
  | cons b l ih =>
    obtain ⟨hbit, hnext⟩ := getBit_of_cons hs h
    obtain ⟨hread, hrest⟩ := ih (s := s.advance 1) hs hnext (2 * v + b.toNat)
    rw [State.advance_advance, Nat.add_comm 1] at hread hrest
    rw [List.length_cons, readBitsWith, hbit]
    exact ⟨hread, hrest⟩

theorem getBits_of_append (hs : ShortInput s) (h : streamBits s = l ++ rest) :
    getBits l.length s = (some (bitsValue l), s.advance l.length) ∧ streamBits (s.advance l.length) = rest :=
  readBitsWith_getBit_of_append hs h 0

/-- A field cut short consumes every bit left and sets EOS. -/
theorem readBitsWith_getBit_of_short (hs : ShortInput s) {w : Nat} (h : (streamBits s).length < w) (v : Nat) :
    readBitsWith getBit w v s = (none, setEos (s.advance (streamBits s).length)) := by
  induction w generalizing s v with
  | zero => exact absurd h (Nat.not_lt_zero _)
  | succ w ih =>
    cases hbits : streamBits s with
    | nil => rw [readBitsWith, getBit_of_nil hbits, List.length_nil, State.advance_zero]
    | cons b l =>
      obtain ⟨hbit, hnext⟩ := getBit_of_cons hs hbits
      rw [hbits, List.length_cons, ← hnext] at h
      rw [readBitsWith, hbit, List.length_cons, ← hnext, Nat.add_comm, ← State.advance_advance]
      exact ih (s := s.advance 1) hs (Nat.lt_of_succ_lt_succ h) _

theorem exec_brGetbits (h : s.Ready) (hw : s.arg0.toNat ≤ 64) :
    exec .brGetbits s = .next (complete (fieldResults (getBits s.arg0.toNat s).1) (getBits s.arg0.toNat s).2) :=
  runCommand_arg0_of_ok h (ok := fun _ w => decide (w ≤ 64)) (decide_eq_true hw) _

end

/-- Settles O44: a field the stream holds whole, and one cut short. -/
theorem brGetbitsReadsField : Obligations.BrGetbitsReadsField := by
  refine ⟨decodeCommand_eq_ok_iff_encodeCommand.mpr rfl, fun s hready => ⟨fun hw => ?_, fun hw => ⟨fun hfits => ?_,
    fun hshort => ?_⟩⟩⟩
  · exact runCommand_arg0_of_not_ok hready (ok := fun _ w => decide (w ≤ 64)) (decide_eq_false (Nat.not_le.mpr hw)) _
  · have hlen : ((streamBits s).take s.arg0.toNat).length = s.arg0.toNat := List.length_take_of_le hfits
    have hread := (getBits_of_append hready.short (List.take_append_drop s.arg0.toNat (streamBits s)).symm).1
    have hlt := bitsValue_lt ((streamBits s).take s.arg0.toNat)
    have hbits := bitsOf_bitsValue ((streamBits s).take s.arg0.toNat)
    rw [hlen] at hread hlt hbits
    refine ⟨_, hlt, hbits, ?_⟩
    rw [exec_brGetbits hready hw, hread, State.advance, BitVec.ofNat_toNat, BitVec.setWidth_eq]
    rfl
  · rw [exec_brGetbits hready hw, getBits, readBitsWith_getBit_of_short hready.short hshort, ← endPos_eq]
    rfl

/-! ## The stream by bytes (R83) -/

theorem inBytes_eq_map (s : State) (a k : Nat) : inBytes s a k = (List.range k).map fun i => inByte s (a + i) := by
  induction k with
  | zero => rfl
  | succ k ih => rw [inBytes_succ, ih, List.range_succ, List.map_append, List.map_singleton]

/-- Bytes of OUT copied to the same indexes of IN. -/
theorem inBytes_eq_outBytes {s t : State} {a n : Nat} (h : ∀ i < n, inByte s (a + i) = outByte t (a + i)) :
    inBytes s a n = outBytes t a n := by
  rw [inBytes_eq_map, outBytes]
  exact List.map_congr_left fun i hi => h i (List.mem_range.mp hi)

/-- The eight stream bits of one byte. -/
theorem streamBit_of_byte (s : State) (a : Nat) :
    ((List.range 8).map fun i => streamBit s (8 * a + i)) = bitsOf 8 (inByte s a).toNat := by
  have hbit : ∀ i < 8, streamBit s (8 * a + i) = (inByte s a).toNat.testBit (7 - i) := fun i hi => by
    rw [streamBit, Nat.mul_add_div (by decide), Nat.div_eq_of_lt hi, Nat.add_zero, Nat.mul_add_mod, Nat.mod_eq_of_lt hi]
    rfl
  exact List.map_congr_left fun i hi => hbit i (List.mem_range.mp hi)

/-- From a byte boundary on, the stream is the bits of the bytes. -/
theorem streamBits_of_byte_boundary {s : State} {a : Nat} (h : s.brPos.toNat = 8 * a) :
    streamBits s = bytesBits (inBytes s a (s.inLen.toNat - a)) := by
  rw [streamBits, h, ← Nat.mul_sub]
  induction s.inLen.toNat - a with
  | zero => rfl
  | succ n ih =>
    rw [Nat.mul_succ, List.range_add, List.map_append, ih, inBytes_succ, bytesBits_append, bytesBits_singleton,
      ← streamBit_of_byte, List.map_map]
    simp only [Function.comp_def, Nat.mul_add, Nat.add_assoc]

/-! ## Lists of fields (R299) -/

/-- The bits of a list of (width, value) fields. -/
def fieldsBits (fields : List (Nat × Nat)) : List Bool := fields.flatMap fun f => bitsOf f.1 f.2

/-- Putting fields in order is putting their bits in order. -/
theorem putFields_eq (fields : List (Nat × Nat)) (s : State) : putFields fields s = putBitList (fieldsBits fields) s := by
  induction fields generalizing s with
  | nil => rfl
  | cons f fields ih =>
    rw [putFields, putBits, fieldsBits, List.flatMap_cons, putBitList_append]
    exact congrArg _ (funext fun _ => funext ih)

theorem bitsValue_bitsOf {w v : Nat} (h : v < 2 ^ w) : bitsValue (bitsOf w v) = v := by
  induction w generalizing v with
  | zero => exact (Nat.lt_one_iff.mp h).symm
  | succ w ih =>
    have hv : 2 * (v / 2) + (v.testBit 0).toNat = v := by
      rw [← Nat.bit_val, ← Nat.shiftRight_one, Nat.bit_testBit_zero_shiftRight_one]
    conv_lhs => rw [← hv, bitsOf_snoc, bitsValue_snoc, ih (by omega)]
    exact hv

/-- A stream that begins with the bits of a list of fields gives their values and goes on after them. -/
theorem getFields_of_append {fields : List (Nat × Nat)} (hfields : ∀ f ∈ fields, f.2 < 2 ^ f.1) {s : State}
    (hs : ShortInput s) {rest : List Bool} (h : streamBits s = fieldsBits fields ++ rest) :
    ∃ t, getFields (fields.map Prod.fst) s = (some (fields.map Prod.snd), t) ∧ streamBits t = rest := by
  induction fields generalizing s with
  | nil => exact ⟨s, rfl, h⟩
  | cons f fields ih =>
    rw [fieldsBits, List.flatMap_cons, List.append_assoc] at h
    obtain ⟨hread, hnext⟩ := getBits_of_append hs h
    rw [bitsOf_length] at hread hnext
    rw [bitsValue_bitsOf (hfields f List.mem_cons_self)] at hread
    obtain ⟨t, hrest, ht⟩ := ih (fun g hg => hfields g (List.mem_cons_of_mem f hg)) (s := s.advance f.1) hs hnext
    refine ⟨t, ?_, ht⟩
    rw [List.map_cons, getFields, hread]
    dsimp only
    rw [hrest]
    rfl

/-- `u` with the bytes that OUT lists copied to the same indexes of IN, IN_LEN at OUT_LEN, and the reader at byte `o`. -/
def State.outAsIn (u : State) (o : Nat) : State :=
  { u with inMem := u.outMem, inLen := u.outLen, brPos := BitVec.ofNat 64 (8 * o) }

/-- The bytes written from a byte boundary, copied to IN, are read there as they were written. -/
theorem Wrote.streamBits_outAsIn {start : Nat} {s u : State} {bs : List Byte} (h : Wrote start s bs u)
    (hshort : u.outLen.toNat ≤ 2 ^ 60) : streamBits (u.outAsIn start) = bytesBits bs := by
  have hlen := h.outLen
  have hpos : (u.outAsIn start).brPos.toNat = 8 * start := Nat.mod_eq_of_lt (by omega)
  have hcount : (u.outAsIn start).inLen.toNat - start = bs.length := by
    change u.outLen.toNat - start = bs.length
    omega
  have hcopy : ∀ i < bs.length, inByte (u.outAsIn start) (start + i) = outByte u (start + i) := fun i hi => by
    have hget : Sparse.get? (u.outAsIn start).inMem (start + i) = bs[i]? := h.get?_outMem hi
    rw [h.outByte_eq hi, inByte, hget, List.getElem?_eq_getElem hi, Option.getD_some]
  rw [streamBits_of_byte_boundary hpos, hcount, inBytes_eq_outBytes hcopy, h.outBytes_eq]

/-- Settles O45: the bytes written hold the bits of the fields and then the pad zeros, and reading takes the fields off
that list. -/
theorem packedFieldsReadBack : Obligations.PackedFieldsReadBack := by
  intro fields s t u pad hfields hcnt hacc hput hflush hlen
  have hok : s.PackerOk := by simp [State.PackerOk, hcnt, hacc]
  obtain ⟨bs, hpacks⟩ := putBitList_packs hok ((putFields_eq fields s).symm.trans hput)
  obtain ⟨cs, hpad, hempty, hpad7⟩ := flush_packs hpacks.packer hflush
  have hall := hpacks.trans hpad
  have hbits : streamBits (u.outAsIn s.outLen.toNat) = fieldsBits fields ++ List.replicate pad false := by
    have hcontent := hall.content
    rw [pendingBits_of_empty hempty, pendingBits_of_empty hcnt, List.append_nil, List.nil_append] at hcontent
    rw [hall.wrote.streamBits_outAsIn hlen, hcontent]
  obtain ⟨v, hread, hrest⟩ :=
    getFields_of_append (fun f hf => (hfields f hf).2) (show ShortInput (u.outAsIn s.outLen.toNat) from hlen) hbits
  refine ⟨v, hread, ?_, fun b hb => ?_⟩
  · rw [hrest, List.length_replicate]
    exact hpad7
  · rw [hrest] at hb
    exact List.eq_of_mem_replicate hb

end Sys2Proof.Machine
end

section
/-! The container header (R130, R320–R328): a run of OutWrite with and without room, little-endian numbers, HDR_WRITE,
HDR_READ, and the header written and read back. -/

namespace Sys2Proof.Machine

/-! ## Runs of OutWrite (R86) -/

/-- The effect of OutWrite of each byte in order, when all of them fit. -/
def appendBytes (vs : List Byte) (s : State) : State :=
  { s with outMem := Sparse.setAll s.outMem s.outLen.toNat vs,
           ring := ringSetAll s.ring s.outLen.toNat vs,
           outLen := s.outLen + BitVec.ofNat 64 vs.length }

section
variable {s : State} {vs : List Byte}

theorem appendBytes_nil (s : State) : appendBytes [] s = s := by
  rw [appendBytes, List.length_nil, BitVec.add_zero]
  rfl

theorem appendBytes_cons {v : Byte} (h : s.outLen.toNat < s.outCap.toNat) :
    appendBytes (v :: vs) s = appendBytes vs (appendByte v s) := by
  have hlen : s.outLen + BitVec.ofNat 64 (v :: vs).length = (s.outLen + 1) + BitVec.ofNat 64 vs.length := by
    rw [List.length_cons, Nat.add_comm, BitVec.ofNat_add, BitVec.add_assoc]
    rfl
  rw [appendBytes, appendBytes, appendByte_outLen_toNat h, hlen]
  rfl

theorem appendBytes_wrote (h : vs.length ≤ s.outCap.toNat - s.outLen.toNat) :
    Wrote s.outLen.toNat s vs (appendBytes vs s) := by
  have hlen : (appendBytes vs s).outLen.toNat = s.outLen.toNat + vs.length := by
    have := s.outLen.isLt
    have := s.outCap.isLt
    change (s.outLen + BitVec.ofNat 64 vs.length).toNat = _
    rw [BitVec.toNat_add, BitVec.toNat_ofNat]
    omega
  refine ⟨rfl, hlen, fun hne => ?_, rfl, rfl⟩
  have := List.length_pos_iff.mpr hne
  omega

/-- With room for its bytes the run ends. -/
theorem outWriteAll_of_fits (h : vs.length ≤ s.outCap.toNat - s.outLen.toNat) :
    outWriteAll vs s = .ok () (appendBytes vs s) := by
  induction vs generalizing s with
  | nil => rw [appendBytes_nil]; rfl
  | cons v vs ih =>
    rw [List.length_cons] at h
    have hroom : s.outLen.toNat < s.outCap.toNat := by omega
    rw [outWriteAll, outWrite, if_neg (Nat.not_le.mpr hroom), Res.bind_ok, appendBytes_cons hroom]
    refine ih ?_
    rw [appendByte_outCap, appendByte_outLen_toNat hroom]
    omega

/-- Without room it writes the bytes that fit and faults at the index after them. -/
theorem outWriteAll_of_short {n : Nat} (hn : n = s.outCap.toNat - s.outLen.toNat) (h : n < vs.length) :
    outWriteAll vs s =
      .fault .outOverflow (appendBytes (vs.take n) s).outLen (appendBytes (vs.take n) s) := by
  induction vs generalizing s n with
  | nil => exact absurd h (Nat.not_lt_zero n)
  | cons v vs ih =>
    cases n with
    | zero =>
      rw [outWriteAll, outWrite, if_pos (Nat.sub_eq_zero_iff_le.mp hn.symm), Res.bind_fault, List.take_zero,
        appendBytes_nil]
    | succ n =>
      have hroom : s.outLen.toNat < s.outCap.toNat := by omega
      rw [outWriteAll, outWrite, if_neg (Nat.not_le.mpr hroom), Res.bind_ok, List.take_succ_cons,
        appendBytes_cons hroom]
      refine ih ?_ (Nat.lt_of_succ_lt_succ h)
      rw [appendByte_outCap, appendByte_outLen_toNat hroom]
      omega

end

/-! ## Little-endian numbers (R84) -/

theorem leBytes_length (k v : Nat) : (leBytes k v).length = k := by
  induction k generalizing v with
  | zero => rfl
  | succ k ih => exact congrArg Nat.succ (ih (v / 256))

theorem leValue_leBytes {k v : Nat} (h : v < 256 ^ k) : leValue (leBytes k v) = v := by
  induction k generalizing v with
  | zero => exact (Nat.lt_one_iff.mp h).symm
  | succ k ih =>
    rw [leBytes, leValue, ih (Nat.div_lt_of_lt_mul (by rwa [Nat.pow_succ'] at h)), BitVec.toNat_ofNat]
    exact Nat.mod_add_div v 256

theorem leValue_lt (bs : List Byte) : leValue bs < 256 ^ bs.length := by
  induction bs with
  | nil => exact Nat.one_pos
  | cons b bs ih =>
    have := b.isLt
    rw [leValue, List.length_cons, Nat.pow_succ']
    omega

theorem inNumber_lt (s : State) (a k : Nat) : inNumber s a k < 256 ^ k :=
  (leValue_lt (inBytes s a k)).trans_eq (congrArg (256 ^ ·) (inBytes_length s a k))

theorem inNumber_eq_sum (s : State) (a k : Nat) :
    inNumber s a k = ∑ i ∈ Finset.range k, (inByte s (a + i)).toNat * 256 ^ i := by
  induction k generalizing a with
  | zero => rfl
  | succ k ih =>
    change (inByte s a).toNat + 256 * inNumber s (a + 1) k = _
    rw [ih, Finset.sum_range_succ', Finset.mul_sum, Nat.add_comm]
    congr 1
    · refine Finset.sum_congr rfl fun i _ => ?_
      rw [Nat.add_right_comm, Nat.add_assoc, Nat.pow_succ]
      ring
    · simp

theorem inNumber_two (s : State) (a : Nat) :
    inNumber s a 2 = (inByte s a).toNat + 256 * (inByte s (a + 1)).toNat := rfl

/-! ## HDR_WRITE (R320) -/

/-- The ten header bytes of one entry (R130). -/
def entryBytes (e : FtEntry) : List Byte := leBytes 2 e.sym.toNat ++ leBytes 8 e.freq.toNat

theorem entryBytes_length (e : FtEntry) : (entryBytes e).length = 10 := by
  rw [entryBytes, List.length_append, leBytes_length, leBytes_length]

theorem headerBytes_eq (n : Nat) (ft : List FtEntry) :
    headerBytes n ft = leBytes 8 n ++ (leBytes 2 ft.length ++ ft.flatMap entryBytes) := List.append_assoc _ _ _

theorem headerBytes_length (n : Nat) (ft : List FtEntry) : (headerBytes n ft).length = 10 + 10 * ft.length := by
  have hentries : (ft.flatMap entryBytes).length = 10 * ft.length := by
    simp [List.length_flatMap, entryBytes_length, Nat.mul_comm]
  rw [headerBytes_eq, List.length_append, List.length_append, leBytes_length, leBytes_length, hentries]
  omega

section
variable {s : State}

theorem exec_hdrWrite (h : s.Ready) : exec .hdrWrite s =
    finish ((hdrWriteBody s).bind fun _ s => .ok (Results.one (BitVec.ofNat 64 (headerSize s.ft.length))) s) :=
  runCommand_of_ready h _

theorem hdrWriteBody_of_pending (h : s.bwCnt ≠ 0) :
    hdrWriteBody s = .fault .badState (s.bwCnt.setWidth 64) s := if_neg (bwCnt_toNat_ne_zero h)

theorem hdrWriteBody_of_empty (h : s.bwCnt = 0) :
    hdrWriteBody s = outWriteAll (headerBytes s.inLen.toNat s.ft) s := if_pos (congrArg BitVec.toNat h)

/-- HDR_WRITE with room for the header. -/
theorem exec_hdrWrite_of_fits (h : s.Ready) (hcnt : s.bwCnt = 0)
    (hroom : s.outLen.toNat + (10 + 10 * s.ft.length) ≤ s.outCap.toNat) :
    exec .hdrWrite s = .next (complete (Results.one (BitVec.ofNat 64 (10 + 10 * s.ft.length)))
      (appendBytes (headerBytes s.inLen.toNat s.ft) s)) := by
  rw [exec_hdrWrite h, hdrWriteBody_of_empty hcnt, outWriteAll_of_fits (by rw [headerBytes_length]; omega)]
  rfl

theorem headerBytes_wrote (hroom : s.outLen.toNat + (10 + 10 * s.ft.length) ≤ s.outCap.toNat) :
    Wrote s.outLen.toNat s (headerBytes s.inLen.toNat s.ft) (appendBytes (headerBytes s.inLen.toNat s.ft) s) :=
  appendBytes_wrote (by rw [headerBytes_length]; omega)

end

/-- Settles O46: the run of OutWrite over the header bytes with and without room for them. -/
theorem hdrWriteWritesHeader : Obligations.HdrWriteWritesHeader := by
  refine ⟨decodeCommand_eq_ok_iff_encodeCommand.mpr rfl, fun s hready _ => ⟨fun hcnt => ?_, fun hcnt hroom => ?_,
    fun hcnt hshort => ?_⟩⟩
  · rw [exec_hdrWrite hready, hdrWriteBody_of_pending hcnt]
    rfl
  · have hwrote := headerBytes_wrote hroom
    have hbytes := hwrote.outBytes_eq
    rw [headerBytes_length] at hbytes
    refine ⟨_, exec_hdrWrite_of_fits hready hcnt hroom, ?_, hbytes, hwrote.ringFollows, fun a => hwrote.out_outside⟩
    simp only [appendBytes, headerBytes_length]
    rfl
  · have hlen := headerBytes_length s.inLen.toNat s.ft
    obtain ⟨n, hn⟩ : ∃ n, n = s.outCap.toNat - s.outLen.toNat := ⟨_, rfl⟩
    have htake : ((headerBytes s.inLen.toNat s.ft).take n).length = n := List.length_take_of_le (by omega)
    have hwrote : Wrote s.outLen.toNat s _ (appendBytes ((headerBytes s.inLen.toNat s.ft).take n) s) :=
      appendBytes_wrote (by omega)
    have hbytes := hwrote.outBytes_eq
    rw [htake] at hbytes
    refine ⟨_, n, hn, ?_, ?_, hbytes, hwrote.ringFollows, fun a ha => ?_⟩
    · rw [exec_hdrWrite hready, hdrWriteBody_of_empty hcnt, outWriteAll_of_short hn (by omega)]
      rfl
    · rw [appendBytes, htake]
    · exact hwrote.out_outside (by rwa [hwrote.outLen, htake])

/-! ## HDR_READ (R325, R327) -/

/-- Entry `i` stands ten bytes after the one before it (R130). -/
theorem headerEntries_getElem? (s : State) (a : Nat) {m i : Nat} (h : i < m) :
    (headerEntries s a m)[i]? =
      some ⟨BitVec.ofNat 16 (inNumber s (a + 10 * i) 2), BitVec.ofNat 64 (inNumber s (a + 10 * i + 2) 8)⟩ := by
  induction m generalizing a i with
  | zero => exact absurd h (Nat.not_lt_zero i)
  | succ m ih =>
    cases i with
    | zero => rfl
    | succ i =>
      rw [headerEntries, List.getElem?_cons_succ, ih (a + 10) (Nat.lt_of_succ_lt_succ h), Nat.mul_succ,
        Nat.add_comm (10 * i), Nat.add_assoc]

section
variable {s : State}

theorem parseHeader_of_short (h : s.inLen.toNat < 10 ∨ s.inLen.toNat < 10 + 10 * headerCount s) :
    parseHeader s = .fault .headerShort s.inLen s := by
  rw [parseHeader]
  split_ifs with hten hall
  · rfl
  · rfl
  · exact absurd h (not_or.mpr ⟨hten, hall⟩)

theorem parseHeader_of_fits (h : 10 + 10 * headerCount s ≤ s.inLen.toNat) :
    parseHeader s = .ok (inNumber s 0 8, headerCount s, headerEntries s 10 (headerCount s)) s :=
  (if_neg (by omega)).trans (if_neg (Nat.not_lt.mpr h))

theorem exec_hdrRead_of_short (h : s.Ready)
    (hshort : s.inLen.toNat < 10 ∨ s.inLen.toNat < 10 + 10 * headerCount s) :
    exec .hdrRead s = .next (faulted 0x07 s.inLen s) := by
  refine (runCommand_of_ready h _).trans ?_
  rw [hdrReadBody, parseHeader_of_short hshort]
  rfl

theorem exec_hdrRead_of_fits (h : s.Ready) (hfits : 10 + 10 * headerCount s ≤ s.inLen.toNat) :
    exec .hdrRead s = .next { s with
      ft := headerEntries s 10 (headerCount s), tree := none, origLen := BitVec.ofNat 64 (inNumber s 0 8),
      brPos := BitVec.ofNat 64 (8 * (10 + 10 * headerCount s)),
      res0 := BitVec.ofNat 64 (inNumber s 0 8), res1 := BitVec.ofNat 64 (headerCount s),
      status := doneStatus s } := by
  refine (runCommand_of_ready h _).trans ?_
  rw [hdrReadBody, parseHeader_of_fits hfits]
  rfl

end

/-- Settles O47: the two ends of HDR_READ, its numbers as sums of bytes. -/
theorem hdrReadLoadsHeader : Obligations.HdrReadLoadsHeader := by
  refine ⟨decodeCommand_eq_ok_iff_encodeCommand.mpr rfl, fun s m hready hm => ?_⟩
  obtain rfl : headerCount s = m := hm.symm
  refine ⟨exec_hdrRead_of_short hready, fun hfits => ⟨_, _, headerEntries_length s 10 _, ?_, fun i hi =>
    ⟨_, headerEntries_getElem? s 10 hi, ?_, ?_⟩, exec_hdrRead_of_fits hready hfits⟩⟩
  · simpa only [Nat.zero_add] using inNumber_eq_sum s 0 8
  · refine (Nat.mod_eq_of_lt (inNumber_lt s (10 + 10 * i) 2)).trans ?_
    rw [inNumber_two, Nat.add_right_comm]
  · refine (Nat.mod_eq_of_lt (inNumber_lt s (10 + 10 * i + 2) 8)).trans ?_
    rw [inNumber_eq_sum, Nat.add_right_comm]

/-! ## A header read back (R328) -/

section
variable {s : State} {a k m : Nat}

/-- Bytes of IN that are two lists in a row are each list at its place. -/
theorem inBytes_eq_append {l₁ l₂ : List Byte} (h : inBytes s a (k + m) = l₁ ++ l₂) (hlen : l₁.length = k) :
    inBytes s a k = l₁ ∧ inBytes s (a + k) m = l₂ := by
  have hsplit : inBytes s a (k + m) = inBytes s a k ++ inBytes s (a + k) m := by
    simp only [inBytes_eq_map, List.range_add, List.map_append, List.map_map, Function.comp_def, Nat.add_assoc]
  exact List.append_inj (hsplit.symm.trans h) ((inBytes_length s a k).trans hlen.symm)

theorem inNumber_of_leBytes {v : Nat} (h : inBytes s a k = leBytes k v) (hv : v < 256 ^ k) : inNumber s a k = v := by
  rw [inNumber, h, leValue_leBytes hv]

/-- The header bytes of a table, read as entries, are the table. -/
theorem headerEntries_of_entryBytes {ft : List FtEntry} (h : inBytes s a (10 * ft.length) = ft.flatMap entryBytes) :
    headerEntries s a ft.length = ft := by
  induction ft generalizing a with
  | nil => rfl
  | cons e ft ih =>
    rw [List.length_cons, Nat.mul_succ, Nat.add_comm, List.flatMap_cons] at h
    obtain ⟨hentry, hrest⟩ := inBytes_eq_append h (entryBytes_length e)
    obtain ⟨hsym, hfreq⟩ := inBytes_eq_append (k := 2) (m := 8) hentry (leBytes_length 2 _)
    rw [List.length_cons, headerEntries, ih hrest, inNumber_of_leBytes hsym e.sym.isLt,
      inNumber_of_leBytes hfreq e.freq.isLt, BitVec.ofNat_toNat, BitVec.ofNat_toNat, BitVec.setWidth_eq,
      BitVec.setWidth_eq]

/-- A header at the start of IN gives back the length and the table it was made of. -/
theorem header_of_headerBytes {n : Nat} {ft : List FtEntry}
    (h : inBytes s 0 (10 + 10 * ft.length) = headerBytes n ft) (hn : n < 2 ^ 64) (hft : ft.length ≤ 65535) :
    inNumber s 0 8 = n ∧ headerCount s = ft.length ∧ headerEntries s 10 ft.length = ft := by
  have hsize : 10 + 10 * ft.length = 8 + (2 + 10 * ft.length) := by omega
  rw [hsize, headerBytes_eq] at h
  obtain ⟨hlen, hrest⟩ := inBytes_eq_append h (leBytes_length 8 n)
  obtain ⟨hcount, hentries⟩ := inBytes_eq_append hrest (leBytes_length 2 _)
  exact ⟨inNumber_of_leBytes hlen hn, inNumber_of_leBytes hcount (Nat.lt_succ_of_le hft),
    headerEntries_of_entryBytes hentries⟩

end

/-- Settles O48: the bytes HDR_WRITE wrote at 0 are the header bytes, and those read back as what they were made of. -/
theorem headerRoundTrips : Obligations.HeaderRoundTrips := by
  intro s u hs hu hft hcnt hout hroom hlen
  have hroom' : s.outLen.toNat + (10 + 10 * s.ft.length) ≤ s.outCap.toNat := by
    rw [hout]
    exact (Nat.zero_add _).trans_le hroom
  refine ⟨_, exec_hdrWrite_of_fits hs hcnt hroom', fun hcopy => ?_⟩
  have hbytes : inBytes u 0 (10 + 10 * s.ft.length) = headerBytes s.inLen.toNat s.ft := by
    have hwritten := (headerBytes_wrote hroom').outBytes_eq
    rw [headerBytes_length, hout] at hwritten
    refine (inBytes_eq_outBytes fun i hi => ?_).trans hwritten
    rw [Nat.zero_add]
    exact hcopy i hi
  obtain ⟨horig, hcount, hentries⟩ := header_of_headerBytes hbytes s.inLen.isLt hft
  refine ⟨_, exec_hdrRead_of_fits hu (by rwa [hcount]), ?_, ?_, rfl, ?_, rfl⟩
  · rw [horig, BitVec.ofNat_toNat, BitVec.setWidth_eq]
  · rw [hcount, hentries]
  · rw [hcount]

end Sys2Proof.Machine
end

section
/-! Token emission (R125, R321–R323): each ENC command, its checks passed, is a run of PutBit over the strings of its
tokens. -/

namespace Sys2Proof.Machine

/-! ## Commands that put bits -/

section
variable {s t : State} {l : List Bool}

theorem SameButOutput.tree (h : SameButOutput s t) : t.tree = s.tree := by
  rw [SameButOutput] at h
  rw [h]

theorem tree_of_putBitList (h : putBitList l s = .ok () t) : t.tree = s.tree := by
  have hsame : (putBitList l s).Keeps (SameButOutput s) := putBitList_same l s
  rw [h] at hsame
  exact SameButOutput.tree hsame

theorem Packs.doneStatus_eq {bs : List Byte} (h : Packs s l bs t) : doneStatus t = doneStatus s := by
  rw [h.same]

/-- With room for its bits a run of PutBit hands on to what follows it. -/
theorem putBitList_bind_of_roomFor {α : Type} (h : s.PackerOk) (hroom : s.RoomFor l.length)
    (f : Unit → State → Res α) :
    ∃ t, Appended s t l ∧ doneStatus t = doneStatus s ∧ t.tree = s.tree ∧ (putBitList l s).bind f = f () t := by
  obtain ⟨t, bs, hput, hpacks⟩ := putBitList_of_roomFor h hroom
  exact ⟨t, hpacks.appended, hpacks.doneStatus_eq, hpacks.same.tree, by rw [hput, Res.bind_ok]⟩

/-- Without room for its bits it ends the command in OUT_OVERFLOW, whatever would follow. -/
theorem finish_putBitList_of_not_roomFor (h : s.PackerOk) (hroom : ¬ s.RoomFor l.length)
    (f : Unit → State → Res Results) :
    ∃ t, Overflowed s t l ∧ finish ((putBitList l s).bind f) = .next (faulted 0x06 t.outLen t) := by
  obtain ⟨t, hover, hput⟩ := putBitList_of_not_roomFor h hroom
  exact ⟨t, hover, by rw [hput]; rfl⟩

/-- A command that puts bits and then ends with results, with and without room for the bits. -/
theorem finish_putBitList (h : s.PackerOk) (r : Results) :
    (s.RoomFor l.length → ∃ t, Appended s t l ∧ finish ((putBitList l s).bind fun _ s => .ok r s) =
      .next { t with res0 := r.r0.getD t.res0, res1 := r.r1.getD t.res1, status := doneStatus s }) ∧
    (¬ s.RoomFor l.length → ∃ t, Overflowed s t l ∧
      finish ((putBitList l s).bind fun _ s => .ok r s) = .next (faulted 0x06 t.outLen t)) := by
  refine ⟨fun hroom => ?_, fun hroom => finish_putBitList_of_not_roomFor h hroom _⟩
  obtain ⟨t, happ, hstatus, -, hput⟩ := putBitList_bind_of_roomFor h hroom fun _ s => .ok r s
  refine ⟨t, happ, ?_⟩
  rw [hput, ← hstatus]
  rfl

end

/-! ## Token strings -/

theorem tokenBits_cons {tree : Node} {x : Token} {ts : List Token} {bits : List Bool}
    (h : tokenBits tree (x :: ts) = some bits) :
    ∃ b bs, encodeToken tree x = some b ∧ tokenBits tree ts = some bs ∧ bits = b ++ bs := by
  rw [tokenBits] at h
  split at h
  case h_1 b bs hb hbs => exact ⟨b, bs, hb, hbs, (Option.some.inj h).symm⟩
  case h_2 => cases h

theorem codesFit_cons {tree : Node} {x : Token} {ts : List Token} :
    CodesFit tree (x :: ts) ↔ CodesFit tree [x] ∧ CodesFit tree ts := by
  have happend : matchLengths (x :: ts) = matchLengths [x] ++ matchLengths ts := by cases x <;> rfl
  rw [CodesFit, happend, List.forall_mem_append]

/-! ## Emission as a run of PutBit -/

theorem Res.bind_congr {α β : Type} {r : Res α} {f g : α → State → Res β}
    (h : ∀ a t, r = .ok a t → f a t = g a t) : r.bind f = r.bind g := by
  cases r with
  | ok a t => exact h a t rfl
  | fault c i t => rfl

section
variable {s : State} {tree : Node}

theorem encLitBody_eq (b : Nat) (s : State) : encLitBody b s = putBitList (false :: bitsOf 8 b) s := rfl

/-- The checks of a match come first, and its flag, distance and code are one run of PutBit after them (R322). -/
theorem encMatchBody_eq (htree : s.tree = some tree) (d : Nat) (len : Sym) : encMatchBody d len s =
    (needCode tree len s).bind fun c s =>
      (putBitList (true :: (bitsOf 15 (d - 1) ++ c)) s).bind fun _ s => .ok c.length s := by
  rw [encMatchBody, needTree_of_some htree, Res.bind_ok]
  simp only [putBitList, putBits, putBitList_append, Res.bind_assoc]

/-- Emitting a token is putting the bits of its string (R321, R322). -/
theorem encTokenList_cons {x : Token} {l : List Bool} (htree : s.tree = some tree) (hx : encodeToken tree x = some l)
    (hfit : CodesFit tree [x]) (ts : List Token) (n : Nat) :
    encTokenList (x :: ts) n s = (putBitList l s).bind fun _ s => encTokenList ts (n + l.length) s := by
  cases x with
  | lit b =>
    obtain rfl := Option.some.inj hx
    rw [encTokenList, encLitBody_eq, List.length_cons, bitsOf_length]
  | pair x len =>
    obtain ⟨c, hc, rfl⟩ := Option.map_eq_some_iff.mp hx
    have hlen : (true :: (bitsOf 15 x.toNat ++ c)).length = 16 + c.length := by
      rw [List.length_cons, List.length_append, bitsOf_length]
      omega
    rw [encTokenList, encMatchBody_eq htree, needCode_of_le hc (hfit len List.mem_cons_self c hc), Res.bind_ok,
      Res.bind_assoc, distOf, Nat.add_sub_cancel, hlen]
    rfl

/-- Emitting a list of tokens is putting the bits of their strings, and then going on with the tokens after them. -/
theorem encTokenList_append {pre : List Token} {bits : List Bool} (htree : s.tree = some tree)
    (hbits : tokenBits tree pre = some bits) (hfit : CodesFit tree pre) (post : List Token) (n : Nat) :
    encTokenList (pre ++ post) n s =
      (putBitList bits s).bind fun _ s => encTokenList post (n + bits.length) s := by
  induction pre generalizing s n bits with
  | nil =>
    obtain rfl := Option.some.inj hbits
    rfl
  | cons x pre ih =>
    obtain ⟨b, bs, hb, hbs, rfl⟩ := tokenBits_cons hbits
    obtain ⟨hx, hpre⟩ := codesFit_cons.mp hfit
    rw [List.cons_append, encTokenList_cons htree hb hx, putBitList_append, Res.bind_assoc, List.length_append,
      ← Nat.add_assoc]
    exact Res.bind_congr fun _ t ht => ih ((tree_of_putBitList ht).trans htree) hbs hpre _

/-- A list of tokens all of which have a code that fits. -/
theorem encTokenList_eq {ts : List Token} {bits : List Bool} (htree : s.tree = some tree)
    (hbits : tokenBits tree ts = some bits) (hfit : CodesFit tree ts) (n : Nat) :
    encTokenList ts n s = (putBitList bits s).bind fun _ s => .ok (n + bits.length) s :=
  (congrArg (encTokenList · n s) (List.append_nil ts).symm).trans (encTokenList_append htree hbits hfit [] n)

end

/-! ## ENC_LIT (R321) -/

/-- Settles O49: the run of PutBit over the string of the literal. -/
theorem encLitAppendsToken : Obligations.EncLitAppendsToken := by
  refine ⟨decodeCommand_eq_ok_iff_encodeCommand.mpr rfl, fun s hready =>
    ⟨fun hbad => ?_, fun harg hok bits hbits => ?_⟩⟩
  · exact runCommand_arg0_of_not_ok hready (ok := fun _ b => decide (b ≤ 255))
      (decide_eq_false (Nat.not_le.mpr hbad)) _
  · have hexec : exec .encLit s = finish ((putBitList bits s).bind fun _ s => .ok Results.none s) := by
      rw [hbits, ← encLitBody_eq]
      exact runCommand_arg0_of_ok hready (ok := fun _ b => decide (b ≤ 255)) (decide_eq_true harg) _
    rw [hexec]
    exact finish_putBitList hok _

/-! ## ENC_MATCH (R322) -/

section
variable {s : State} {len : Sym} {tree : Node}

/-- ENC_MATCH with a distance of its domain checks ARG1 next. -/
theorem exec_encMatch (h : s.Ready) (hd : 1 ≤ s.arg0.toNat ∧ s.arg0.toNat ≤ 32768) :
    exec .encMatch s = finish ((argLength s).bind fun l t =>
      (encMatchBody s.arg0.toNat (BitVec.ofNat 16 l) t).bind fun _ s => .ok Results.none s) :=
  runCommand_arg0_of_ok h (ok := fun _ d => decide (1 ≤ d ∧ d ≤ Config.window)) (decide_eq_true hd) _

theorem exec_encMatch_of_sym (h : s.Ready) (hd : 1 ≤ s.arg0.toNat ∧ s.arg0.toNat ≤ 32768)
    (harg : s.arg1 = len.setWidth 64) :
    exec .encMatch s = finish ((encMatchBody s.arg0.toNat len s).bind fun _ s => .ok Results.none s) := by
  have hnat : s.arg1.toNat = len.toNat := by rw [harg, BitVec.toNat_setWidth_of_le (by decide)]
  have hdom : decide (s.arg1.toNat ≤ 65535) = true := decide_eq_true (by have := len.isLt; omega)
  rw [exec_encMatch h hd, argLength, arg1Where, if_pos hdom, Res.bind_ok, hnat, BitVec.ofNat_toNat, BitVec.setWidth_eq]

end

/-- Settles O50: the checks in order, and the run of PutBit over the string of the match. -/
theorem encMatchAppendsToken : Obligations.EncMatchAppendsToken := by
  refine ⟨decodeCommand_eq_ok_iff_encodeCommand.mpr rfl, fun s hready => ⟨fun hbad => ?_, fun hmin hmax =>
    ⟨fun hbad => ?_, fun len harg => ⟨fun htree => ?_, fun tree htree => ⟨fun hc => ?_, fun c hc =>
      ⟨fun hlong => ?_, fun hfit hok bits hbits => ?_⟩⟩⟩⟩⟩⟩
  · refine runCommand_arg0_of_not_ok hready (ok := fun _ d => decide (1 ≤ d ∧ d ≤ Config.window))
      (decide_eq_false fun ⟨hmin, hmax⟩ => ?_) _
    exact hbad.elim (Nat.ne_of_gt hmin) (Nat.not_lt.mpr hmax)
  · rw [exec_encMatch hready ⟨hmin, hmax⟩, argLength, arg1Where, decide_eq_false (Nat.not_le.mpr hbad)]
    rfl
  all_goals rw [exec_encMatch_of_sym hready ⟨hmin, hmax⟩ harg]
  · rw [encMatchBody, needTree_of_none htree]
    rfl
  all_goals rw [encMatchBody_eq htree]
  · rw [needCode_of_none hc, harg]
    rfl
  · rw [needCode_of_long hc hlong, harg]
    rfl
  · simp only [needCode_of_le hc hfit, Res.bind_assoc, Res.bind_ok, ← hbits]
    exact finish_putBitList hok _

/-! ## ENC_TOKENS (R323) -/

section
variable {s : State} {tree : Node}

theorem exec_encTokens_of_none (h : s.Ready) (htree : s.tree = none) :
    exec .encTokens s = .next (faulted 0x09 0 s) := by
  refine (runCommand_of_ready h _).trans ?_
  rw [encTokensBody, needTree_of_none htree]
  rfl

theorem exec_encTokens_of_some (h : s.Ready) (htree : s.tree = some tree) : exec .encTokens s =
    finish ((encTokenList s.tokbuf 0 s).bind fun n s => .ok (Results.one (BitVec.ofNat 64 n)) s) := by
  refine (runCommand_of_ready h _).trans ?_
  rw [encTokensBody, needTree_of_some htree, Res.bind_ok]

/-- A match without a code ends the list before any bit of its own. -/
theorem encTokenList_of_noCode {len : Sym} (htree : s.tree = some tree) (hc : codeOf tree len = none)
    (x : BitVec 15) (post : List Token) (n : Nat) :
    encTokenList (.pair x len :: post) n s = .fault .noCode (len.setWidth 64) s := by
  rw [encTokenList, encMatchBody_eq htree, needCode_of_none hc, Res.bind_fault, Res.bind_fault]

/-- So does one whose code is too long. -/
theorem encTokenList_of_codeTooLong {len : Sym} {c : List Bool} (htree : s.tree = some tree)
    (hc : codeOf tree len = some c) (hlong : 128 < c.length) (x : BitVec 15) (post : List Token) (n : Nat) :
    encTokenList (.pair x len :: post) n s = .fault .codeTooLong (len.setWidth 64) s := by
  rw [encTokenList, encMatchBody_eq htree, needCode_of_long hc hlong, Res.bind_fault, Res.bind_fault]

end

/-- Settles O51: the run of PutBit over the strings of the tokens, or of those before the match that cannot be coded. -/
theorem encTokensAppendsTokens : Obligations.EncTokensAppendsTokens := by
  refine fun s hready => ⟨exec_encTokens_of_none hready, fun tree htree hok =>
    ⟨fun bits hbits hfit => ?_, fun pre x len post bits hpre hbits hfit => ?_⟩⟩
  all_goals rw [exec_encTokens_of_some hready htree]
  · rw [encTokenList_eq htree hbits hfit, Res.bind_assoc, Nat.zero_add]
    exact finish_putBitList hok _
  · rw [hpre, encTokenList_append htree hbits hfit, Res.bind_assoc]
    refine ⟨fun hroom => finish_putBitList_of_not_roomFor hok hroom _, fun hroom => ?_⟩
    obtain ⟨t, happ, -, htree', hput⟩ := putBitList_bind_of_roomFor hok hroom fun _ s =>
      (encTokenList (.pair x len :: post) (0 + bits.length) s).bind fun n s =>
        .ok (Results.one (BitVec.ofNat 64 n)) s
    rw [hput]
    refine ⟨fun hc => ⟨t, happ, ?_⟩, fun c hc hlong => ⟨t, happ, ?_⟩⟩
    · rw [encTokenList_of_noCode (htree'.trans htree) hc]
      rfl
    · rw [encTokenList_of_codeTooLong (htree'.trans htree) hc hlong]
      rfl

end Sys2Proof.Machine
end

section
/-! A token at BR_POS (R126, R352, R353): reading it from IN is decoding the stream's bit list, BR_POS moved past the bits
taken; a stream that ends inside it is consumed whole. -/

namespace Sys2Proof.Machine

/-! ## Taking bits of the stream -/

/-- A read that takes the bits `l` of IN leads from `s` to `u`. -/
def State.Takes (s : State) (l : List Bool) (u : State) : Prop :=
  streamBits s = l ++ streamBits u ∧ u = s.advance l.length

/-- A read that meets the end of IN leads from `s` to `u`: every bit left is consumed (R293, R294). -/
def State.TakesAll (s u : State) : Prop := u = setEos (s.advance (streamBits s).length)

section
variable {s t u : State} {l m rest : List Bool}

theorem State.Takes.of_append (hs : ShortInput s) (h : streamBits s = l ++ rest) : s.Takes l (s.advance l.length) :=
  ⟨by rw [(getBits_of_append hs h).2, h], rfl⟩

theorem State.Takes.short (h : s.Takes l u) (hs : ShortInput s) : ShortInput u := h.2 ▸ hs

theorem State.Takes.trans (h : s.Takes l t) (h' : t.Takes m u) : s.Takes (l ++ m) u := by
  obtain ⟨hbits, rfl⟩ := h
  obtain ⟨hbits', rfl⟩ := h'
  rw [State.Takes, State.advance_advance, List.length_append] at *
  exact ⟨by rw [hbits, hbits', List.append_assoc], rfl⟩

theorem State.Takes.takesAll (h : s.Takes l t) (h' : t.TakesAll u) : s.TakesAll u := by
  obtain ⟨hbits, rfl⟩ := h
  rw [State.TakesAll, State.advance_advance, ← List.length_append, ← hbits] at h'
  exact h'

/-- The state after bits taken, in terms of the bits left. -/
theorem State.Takes.eq_brPos (h : s.Takes l u) (hl : l ≠ []) :
    u = { s with brPos := BitVec.ofNat 64 (8 * s.inLen.toNat - (streamBits u).length) } := by
  rw [← advance_brPos_of_append h.1 hl]
  exact h.2

/-! ## Reading a token -/

theorem getBit_takes (hs : ShortInput s) :
    (∃ b u, getBit s = (some b, u) ∧ s.Takes [b] u) ∨ ∃ u, getBit s = (none, u) ∧ s.TakesAll u := by
  cases hbits : streamBits s with
  | nil => exact .inr ⟨_, getBit_of_nil hbits, by rw [State.TakesAll, hbits, List.length_nil, State.advance_zero]⟩
  | cons b bits => exact .inl ⟨b, _, (getBit_of_cons hs hbits).1, .of_append hs hbits⟩

/-- A field is read whole, or every bit left is consumed (R294). -/
theorem readBitsWith_getBit_takes (hs : ShortInput s) (w : Nat) :
    (∃ v l u, readBitsWith getBit w 0 s = (some v, u) ∧ s.Takes l u) ∨
      ∃ u, readBitsWith getBit w 0 s = (none, u) ∧ s.TakesAll u := by
  rcases Nat.lt_or_ge (streamBits s).length w with hshort | hfits
  · exact .inr ⟨_, readBitsWith_getBit_of_short hs hshort 0, rfl⟩
  · have hsplit := (List.take_append_drop w (streamBits s)).symm
    have hread := (readBitsWith_getBit_of_append hs hsplit 0).1
    rw [List.length_take_of_le hfits] at hread
    exact .inl ⟨_, _, _, hread, by rw [← List.length_take_of_le hfits]; exact .of_append hs hsplit⟩

/-- A walk ends in the tree, or every bit left is consumed (R265). -/
theorem walkWith_getBit_takes (hs : ShortInput s) (tree : Node) :
    (∃ e l u, e ≠ .endOfStream ∧ walkWith getBit tree s = (e, u) ∧ s.Takes l u) ∨
      ∃ u, walkWith getBit tree s = (.endOfStream, u) ∧ s.TakesAll u := by
  rcases hlist : walkWith listBit tree (streamBits s) with ⟨e, rest⟩
  by_cases he : e = .endOfStream
  · exact .inr ⟨_, walk_of_end hs (he ▸ hlist), rfl⟩
  · obtain ⟨path, hpath, -, hwalk⟩ := walk_of_node hs hlist he
    exact .inl ⟨e, path, _, he, hwalk, .of_append hs hpath⟩

/-- A token, or a code that reaches the Guard, takes its flag bit at least; else every bit left is consumed (R352). -/
theorem fetchToken_takes (hs : ShortInput s) (tree : Node) :
    (∃ e l u, e ≠ .endOfStream ∧ l ≠ [] ∧ fetchToken tree s = (e, u) ∧ s.Takes l u) ∨
      ∃ u, fetchToken tree s = (.endOfStream, u) ∧ s.TakesAll u := by
  rcases getBit_takes hs with ⟨flag, s₁, hflag, h₁⟩ | ⟨s₁, hflag, h₁⟩
  case inr => exact .inr ⟨s₁, by simp only [fetchToken, readTokenWith, hflag], h₁⟩
  cases flag with
  | false =>
    rcases readBitsWith_getBit_takes (h₁.short hs) Config.litBits with ⟨v, l, s₂, hlit, h₂⟩ | ⟨s₂, hlit, h₂⟩
    · exact .inl ⟨.token (.lit (BitVec.ofNat 8 v)), [false] ++ l, s₂, nofun, nofun,
        by simp only [fetchToken, readTokenWith, hflag, hlit], h₁.trans h₂⟩
    · exact .inr ⟨s₂, by simp only [fetchToken, readTokenWith, hflag, hlit], h₁.takesAll h₂⟩
  | true =>
    rcases readBitsWith_getBit_takes (h₁.short hs) Config.distBits with ⟨x, l, s₂, hdist, h₂⟩ | ⟨s₂, hdist, h₂⟩
    case inr => exact .inr ⟨s₂, by simp only [fetchToken, readTokenWith, hflag, hdist], h₁.takesAll h₂⟩
    have h₁₂ := h₁.trans h₂
    rcases walkWith_getBit_takes (h₁₂.short hs) tree with ⟨e, path, s₃, he, hwalk, h₃⟩ | ⟨s₃, hwalk, h₃⟩
    · cases e with
      | endOfStream => exact absurd rfl he
      | symbol len =>
        exact .inl ⟨.token (.pair (BitVec.ofNat 15 x) len), [true] ++ l ++ path, s₃, nofun, nofun,
          by simp only [fetchToken, readTokenWith, hflag, hdist, hwalk], h₁₂.trans h₃⟩
      | guardReached =>
        exact .inl ⟨.guardReached, [true] ++ l ++ path, s₃, nofun, nofun,
          by simp only [fetchToken, readTokenWith, hflag, hdist, hwalk], h₁₂.trans h₃⟩
    · exact .inr ⟨s₃, by simp only [fetchToken, readTokenWith, hflag, hdist, hwalk], h₁₂.takesAll h₃⟩

variable {tree : Node} {e : TokenRead}

/-- What the bit list decodes to is what the machine reads, and the bits between are taken (R126). -/
theorem fetchToken_of_read (hs : ShortInput s) (h : readTokenWith listBit tree (streamBits s) = (e, rest))
    (he : e ≠ .endOfStream) :
    ∃ l u, l ≠ [] ∧ fetchToken tree s = (e, u) ∧ s.Takes l u ∧ streamBits u = rest := by
  obtain ⟨hread, hrest, -⟩ := fetchToken_streamBits tree hs
  rcases fetchToken_takes hs tree with ⟨e', l, u, -, hl, hfetch, htakes⟩ | ⟨u, hfetch, -⟩ <;>
    rw [h, hfetch] at hread hrest
  · exact ⟨l, u, hl, (show e = e' from hread) ▸ hfetch, htakes, hrest.symm⟩
  · exact absurd hread he

/-- In terms of the bits left, as R352 counts them. -/
theorem fetchToken_of_read_brPos (hs : ShortInput s) (h : readTokenWith listBit tree (streamBits s) = (e, rest))
    (he : e ≠ .endOfStream) :
    fetchToken tree s = (e, { s with brPos := BitVec.ofNat 64 (8 * s.inLen.toNat - rest.length) }) := by
  obtain ⟨l, u, hl, hfetch, htakes, rfl⟩ := fetchToken_of_read hs h he
  rw [hfetch, ← htakes.eq_brPos hl]

theorem fetchToken_of_end (hs : ShortInput s)
    (h : readTokenWith listBit tree (streamBits s) = (.endOfStream, rest)) :
    fetchToken tree s = (.endOfStream, setEos { s with brPos := endPos s }) := by
  obtain ⟨hread, -⟩ := fetchToken_streamBits tree hs
  rcases fetchToken_takes hs tree with ⟨e, l, u, he, -, hfetch, -⟩ | ⟨u, hfetch, rfl⟩ <;> rw [h, hfetch] at hread
  · exact absurd hread.symm he
  · rw [hfetch, ← endPos_eq]
    rfl

/-- A stream that begins with the string of a token (R125). -/
theorem fetchToken_of_encodeToken (hs : ShortInput s) {x : Token} (hx : encodeToken tree x = some l)
    (h : streamBits s = l ++ rest) : fetchToken tree s = (.token x, s.advance l.length) := by
  obtain ⟨l', u, -, hfetch, ⟨hbits, rfl⟩, hrest⟩ := fetchToken_of_read (e := .token x) hs
    (h ▸ readTokenWith_encodeToken hx rest) nofun
  rw [hfetch, List.append_cancel_right (h.symm.trans (hrest ▸ hbits))]

/-! ## StepToken (R352) -/

theorem readTokenWith_of_decodeToken {bits : List Bool} {x : Token} (h : decodeToken tree bits = .ok (x, rest)) :
    readTokenWith listBit tree bits = (.token x, rest) := by
  unfold decodeToken at h
  split at h <;> cases h
  assumption

theorem readTokenWith_of_streamEnds {bits : List Bool} (h : decodeToken tree bits = .error .streamEnds) :
    ∃ rest, readTokenWith listBit tree bits = (.endOfStream, rest) := by
  unfold decodeToken at h
  split at h <;> cases h
  exact ⟨_, ‹_›⟩

/-- A token read is replayed, with its kind before the number of bytes. -/
theorem stepToken_of_token {x : Token} (h : fetchToken tree s = (.token x, u)) :
    stepToken tree s = (replayToken x u).bind fun k v => .ok (some (tokenKind x, k)) v := by
  rw [stepToken, h]

theorem stepToken_of_end (hs : ShortInput s) (h : decodeToken tree (streamBits s) = .error .streamEnds) :
    stepToken tree s = .ok none (setEos { s with brPos := endPos s }) := by
  obtain ⟨_, hread⟩ := readTokenWith_of_streamEnds h
  rw [stepToken, fetchToken_of_end hs hread]

theorem stepToken_of_guard (hs : ShortInput s)
    (h : readTokenWith listBit tree (streamBits s) = (.guardReached, rest)) {pos : Word}
    (hpos : pos = BitVec.ofNat 64 (8 * s.inLen.toNat - rest.length)) :
    stepToken tree s = .fault .guardCode pos { s with brPos := pos } := by
  rw [stepToken, fetchToken_of_read_brPos hs h nofun, hpos]

section
variable {x : Token} (hs : ShortInput s) (h : decodeToken tree (streamBits s) = .ok (x, rest))
  (hu : u = { s with brPos := BitVec.ofNat 64 (8 * s.inLen.toNat - rest.length) })
include hs h hu

theorem stepToken_of_decodeToken_ok {k : Word} {v : State} (hreplay : replayToken x u = .ok k v) :
    stepToken tree s = .ok (some (tokenKind x, k)) v := by
  rw [stepToken_of_token (fetchToken_of_read_brPos hs (readTokenWith_of_decodeToken h) nofun), ← hu, hreplay,
    Res.bind_ok]

theorem stepToken_of_decodeToken_fault {c : FaultCode} {i : Word} {v : State}
    (hreplay : replayToken x u = .fault c i v) : stepToken tree s = .fault c i v := by
  rw [stepToken_of_token (fetchToken_of_read_brPos hs (readTokenWith_of_decodeToken h) nofun), ← hu, hreplay,
    Res.bind_fault]

end

end

end Sys2Proof.Machine
end

section
/-! The ring copy (R351) as a run of OutWrite over the history repeated with period `d`, and what writes a byte or a copy:
the tokens LIT and MATCH (R350, R353), TRE_LIT (R354) and TRE_COPY (R356). -/

namespace Sys2Proof.Machine

/-! ## Reading the history (R87) -/

section
variable {s : State} {v : Byte} {d k : Nat}

theorem ringRead_appendByte_same (v : Byte) (s : State) : ringRead (appendByte v s) s.outLen.toNat = v := by
  rw [ringRead, appendByte_ring, Sparse.get?_set_same, Option.getD_some]

theorem ringRead_appendByte_other {a : Nat} (h : a % Config.ringSize ≠ s.outLen.toNat % Config.ringSize) :
    ringRead (appendByte v s) a = ringRead s a := by
  rw [ringRead, appendByte_ring, Sparse.get?_set_other _ _ h]
  rfl

/-- The last `d` bytes of the history, repeated to `k` bytes. -/
def repeatedHistory (d k : Nat) (s : State) : List Byte :=
  (List.range k).map fun i => ringRead s (s.outLen.toNat - d + i % d)

theorem repeatedHistory_length (d k : Nat) (s : State) : (repeatedHistory d k s).length = k := by
  rw [repeatedHistory, List.length_map, List.length_range]

theorem repeatedHistory_getElem? {i : Nat} (hi : i < k) :
    (repeatedHistory d k s)[i]? = some (ringRead s (s.outLen.toNat - d + i % d)) := by
  rw [repeatedHistory, List.getElem?_map, List.getElem?_range hi, Option.map_some]

theorem repeatedHistory_take {n : Nat} (h : n ≤ k) : (repeatedHistory d k s).take n = repeatedHistory d n s := by
  rw [repeatedHistory, ← List.map_take, List.take_range, Nat.min_eq_left h, repeatedHistory]

/-- Once the first byte of the history's period is appended, the period starts at the next one. -/
theorem repeatedHistory_succ (hd : 1 ≤ d) (hwin : d ≤ 32768) (hback : d ≤ s.outLen.toNat)
    (hroom : s.outLen.toNat < s.outCap.toNat) (k : Nat) :
    repeatedHistory d (k + 1) s = ringRead s (s.outLen.toNat - d) ::
      repeatedHistory d k (appendByte (ringRead s (s.outLen.toNat - d)) s) := by
  have hnext : ∀ i, ringRead s (s.outLen.toNat - d + (i + 1) % d) =
      ringRead (appendByte (ringRead s (s.outLen.toNat - d)) s) (s.outLen.toNat + 1 - d + i % d) := fun i => by
    have hlt := Nat.mod_lt i hd
    by_cases hwrap : i % d + 1 = d
    · have hmod : (i + 1) % d = 0 := by rw [← Nat.mod_add_mod, hwrap, Nat.mod_self]
      rw [hmod, Nat.add_zero, show s.outLen.toNat + 1 - d + i % d = s.outLen.toNat by omega, ringRead_appendByte_same]
    · have hmod : (i + 1) % d = i % d + 1 := by rw [← Nat.mod_add_mod, Nat.mod_eq_of_lt (by omega)]
      rw [hmod, show s.outLen.toNat + 1 - d + i % d = s.outLen.toNat - d + (i % d + 1) by omega,
        ringRead_appendByte_other]
      simp only [Config.ringSize]
      omega
  rw [repeatedHistory, List.range_succ_eq_map, List.map_cons, List.map_map, Nat.zero_mod, Nat.add_zero,
    repeatedHistory, appendByte_outLen_toNat hroom]
  exact congrArg _ (List.map_congr_left fun i _ => hnext i)

/-! ## The copy (R351) -/

/-- Each byte is read from the ring before it is written, so a copy longer than its distance repeats the bytes it has
written. -/
theorem copyBytes_eq_outWriteAll (hd : 1 ≤ d) (hwin : d ≤ 32768) (hback : d ≤ s.outLen.toNat) (k : Nat) :
    copyBytes d k s = outWriteAll (repeatedHistory d k s) s := by
  induction k generalizing s with
  | zero => rfl
  | succ k ih =>
    rcases outWrite_cases (ringRead s (s.outLen.toNat - d)) s with ⟨hfull, hwrite⟩ | ⟨hroom, hwrite⟩
    · rw [copyBytes, hwrite, repeatedHistory, List.range_succ_eq_map, List.map_cons, outWriteAll, Nat.zero_mod,
        Nat.add_zero, hwrite]
      rfl
    · rw [copyBytes, hwrite, Res.bind_ok, repeatedHistory_succ hd hwin hback hroom, outWriteAll, hwrite, Res.bind_ok]
      refine ih ?_
      rw [appendByte_outLen_toNat hroom]
      omega

/-- The state after `n` bytes of a copy at distance `d`. -/
def copied (d n : Nat) (s : State) : State := appendBytes (repeatedHistory d n s) s

/-- A copy ends, or faults at OUT_CAP with the bytes that fitted kept (R86, R405). -/
theorem copyBytes_eq (hd : 1 ≤ d) (hwin : d ≤ 32768) (hback : d ≤ s.outLen.toNat) {n : Nat}
    (hn : n = min k (s.outCap.toNat - s.outLen.toNat)) :
    copyBytes d k s =
      if n = k then .ok () (copied d n s) else .fault .outOverflow (copied d n s).outLen (copied d n s) := by
  have hlen := repeatedHistory_length d k s
  rw [copyBytes_eq_outWriteAll hd hwin hback, copied]
  split_ifs with hall
  · rw [outWriteAll_of_fits (by omega), hall]
  · have hshort : n = s.outCap.toNat - s.outLen.toNat := by omega
    rw [outWriteAll_of_short hshort (by omega), repeatedHistory_take (by omega)]

theorem copied_wrote {n : Nat} (h : n ≤ s.outCap.toNat - s.outLen.toNat) (d : Nat) :
    Wrote s.outLen.toNat s (repeatedHistory d n s) (copied d n s) :=
  appendBytes_wrote (by rwa [repeatedHistory_length])

/-- What a copy changes. -/
theorem copied_frame (d n : Nat) (s : State) : copied d n s =
    { s with outMem := (copied d n s).outMem, ring := (copied d n s).ring,
             outLen := s.outLen + BitVec.ofNat 64 n } := by
  rw [copied, appendBytes, repeatedHistory_length]

/-- What it leaves in OUT and RING. -/
theorem copied_contents {n : Nat} (h : n ≤ s.outCap.toNat - s.outLen.toNat) (d : Nat) :
    (∀ i < n, Sparse.get? (copied d n s).outMem (s.outLen.toNat + i) =
      some (ringRead s (s.outLen.toNat - d + i % d))) ∧
    RingFollows s (copied d n s) s.outLen.toNat ∧
    ∀ a, a < s.outLen.toNat ∨ s.outLen.toNat + n ≤ a →
      Sparse.get? (copied d n s).outMem a = Sparse.get? s.outMem a := by
  have hwrote := copied_wrote h d
  have hlen := repeatedHistory_length d n s
  refine ⟨fun i hi => ?_, hwrote.ringFollows, fun a ha => hwrote.out_outside (by rwa [hwrote.outLen, hlen])⟩
  rw [hwrote.get?_outMem (hlen.symm ▸ hi), repeatedHistory_getElem? hi]

end

/-! ## The tokens (R350, R353) -/

section
variable {s : State} {b : Byte}

theorem exec_toInstr (x : Token) (s : State) : exec x.toInstr s = finishToken (replayToken x s) := by
  cases x <;> rfl

theorem exec_toInstr_of_ok {x : Token} {k : Word} {t : State} (h : replayToken x s = .ok k t) :
    exec x.toInstr s = .next t := by
  rw [exec_toInstr, h, finishToken]

theorem exec_toInstr_of_fault {x : Token} {c : FaultCode} {i : Word} {t : State}
    (h : replayToken x s = .fault c i t) : exec x.toInstr s = .next (faulted c.code i t) := by
  rw [exec_toInstr, h]
  rfl

theorem replayLit_of_fits (horig : s.outLen.toNat < s.origLen.toNat) (hroom : s.outLen.toNat < s.outCap.toNat) :
    replayLit b s = .ok 1 (appendByte b s) := by
  rw [replayLit, if_neg (Nat.not_lt.mpr horig), outWrite, if_neg (Nat.not_le.mpr hroom), Res.bind_ok]

theorem replayLit_of_full (horig : s.outLen.toNat < s.origLen.toNat) (hfull : s.outCap.toNat ≤ s.outLen.toNat) :
    replayLit b s = .fault .outOverflow s.outLen s := by
  rw [replayLit, if_neg (Nat.not_lt.mpr horig), outWrite, if_pos hfull, Res.bind_fault]

theorem replayLit_of_overrun (h : s.origLen.toNat ≤ s.outLen.toNat) :
    replayLit b s = .fault .lengthOverrun 1 s := by
  rw [replayLit, if_pos (Nat.lt_succ_of_le h)]

variable {x : BitVec 15} {len : Sym}

theorem distOf_pos (x : BitVec 15) : 1 ≤ distOf x := Nat.succ_pos _

theorem distOf_le (x : BitVec 15) : distOf x ≤ 32768 := x.isLt

theorem replayMatch_of_oob (h : s.outLen.toNat < distOf x) :
    replayMatch x len s = .fault .distOob (BitVec.ofNat 64 (distOf x)) s := by
  rw [replayMatch, if_pos h]

theorem replayMatch_of_overrun (hback : distOf x ≤ s.outLen.toNat)
    (h : s.origLen.toNat < s.outLen.toNat + len.toNat) :
    replayMatch x len s = .fault .lengthOverrun (len.setWidth 64) s := by
  rw [replayMatch, if_neg (Nat.not_lt.mpr hback), if_pos h]

/-- Past its checks a match is a copy. -/
theorem replayMatch_of_fits (hback : distOf x ≤ s.outLen.toNat)
    (horig : s.outLen.toNat + len.toNat ≤ s.origLen.toNat) :
    replayMatch x len s = (copyBytes (distOf x) len.toNat s).bind fun _ s => .ok (len.setWidth 64) s := by
  rw [replayMatch, if_neg (Nat.not_lt.mpr hback), if_neg (Nat.not_lt.mpr horig)]

end

/-- Settles O54: LENGTH_OVERRUN, then the check of OutWrite, then the byte. -/
theorem litTokenAppendsByte : Obligations.LitTokenAppendsByte := by
  refine fun s b => ⟨fun hover => ?_, fun horig hfull => ?_, fun horig hroom => ?_⟩ <;> rw [exec, execLitTok]
  · rw [replayLit_of_overrun hover]
    rfl
  · rw [replayLit_of_full horig hfull]
    rfl
  · rw [replayLit_of_fits horig hroom]
    rfl

/-- Settles O55: DIST_OOB, then LENGTH_OVERRUN, then the copy. -/
theorem matchTokenCopiesBytes : Obligations.MatchTokenCopiesBytes := by
  refine fun s x len => ⟨fun hback => ?_, fun hback => ⟨fun horig => ?_, fun horig => ?_⟩⟩
  · rw [exec, execMatchTok, replayMatch_of_oob hback]
    rfl
  · rw [exec, execMatchTok, replayMatch_of_overrun hback horig]
    rfl
  · obtain ⟨n, hn⟩ : ∃ n, n = min len.toNat (s.outCap.toNat - s.outLen.toNat) := ⟨_, rfl⟩
    obtain ⟨hbytes, hring, hout⟩ := copied_contents (s := s) (n := n) (by omega) (distOf x)
    refine ⟨copied (distOf x) n s, n, hn, copied_frame _ n s, hbytes, hring, hout, ?_⟩
    rw [exec, execMatchTok, replayMatch_of_fits hback horig, copyBytes_eq (distOf_pos x) (distOf_le x) hback hn]
    split_ifs <;> rfl

/-! ## TRE_LIT (R354) -/

/-- TRE_LIT with a byte in ARG0 is an OutWrite. -/
theorem exec_treLit {s : State} (h : s.Ready) (harg : s.arg0.toNat ≤ 255) : exec .treLit s =
    finish ((outWrite (BitVec.ofNat 8 s.arg0.toNat) s).bind fun _ s => .ok Results.none s) :=
  runCommand_arg0_of_ok h (ok := fun _ b => decide (b ≤ 255)) (decide_eq_true harg) _

/-- Settles O52: the domain of ARG0, then OutWrite. -/
theorem treLitAppendsByte : Obligations.TreLitAppendsByte := by
  refine ⟨decodeCommand_eq_ok_iff_encodeCommand.mpr rfl, fun s hready =>
    ⟨fun hbad => ?_, fun harg hfull => ?_, fun b harg hroom => ?_⟩⟩
  · exact runCommand_arg0_of_not_ok hready (ok := fun _ b => decide (b ≤ 255))
      (decide_eq_false (Nat.not_le.mpr hbad)) _
  · rw [exec_treLit hready harg, outWrite, if_pos hfull]
    rfl
  · have hb : s.arg0.toNat = b.toNat := by rw [harg, BitVec.toNat_setWidth_of_le (by decide)]
    have hdom : s.arg0.toNat ≤ 255 := hb ▸ Nat.le_of_lt_succ b.isLt
    rw [exec_treLit hready hdom, hb, BitVec.ofNat_toNat, BitVec.setWidth_eq, outWrite, if_neg (Nat.not_le.mpr hroom)]
    rfl

/-! ## TRE_COPY (R356) -/

/-- How TRE_COPY goes on once its operands are known. -/
def treCopyTail (d l : Nat) (s : State) : Res Results :=
  (require (decide (d ≤ s.outLen.toNat)) .distOob (BitVec.ofNat 64 d) s).bind fun _ s =>
    (copyBytes d l s).bind fun _ s => .ok Results.none s

section
variable {s : State}

theorem exec_treCopy (h : s.Ready) (hd : 1 ≤ s.arg0.toNat ∧ s.arg0.toNat ≤ 32768) :
    exec .treCopy s = finish ((argLength s).bind fun l t => treCopyTail s.arg0.toNat l t) :=
  runCommand_arg0_of_ok h (ok := fun _ d => decide (1 ≤ d ∧ d ≤ Config.window)) (decide_eq_true hd) _

theorem exec_treCopy_of_args (h : s.Ready) (hd : 1 ≤ s.arg0.toNat ∧ s.arg0.toNat ≤ 32768)
    (hl : s.arg1.toNat ≤ 65535) : exec .treCopy s = finish (treCopyTail s.arg0.toNat s.arg1.toNat s) := by
  rw [exec_treCopy h hd, argLength, arg1Where, if_pos (decide_eq_true hl), Res.bind_ok]

end

/-- Settles O53: the domains of ARG0 and ARG1, then DIST_OOB, then the copy. -/
theorem treCopyRepeatsHistory : Obligations.TreCopyRepeatsHistory := by
  refine ⟨decodeCommand_eq_ok_iff_encodeCommand.mpr rfl, fun s hready => ⟨fun hbad => ?_, fun hmin hmax =>
    ⟨fun hbad => ?_, fun hl => ⟨fun hback => ?_, fun hback => ?_⟩⟩⟩⟩
  · refine runCommand_arg0_of_not_ok hready (ok := fun _ d => decide (1 ≤ d ∧ d ≤ Config.window))
      (decide_eq_false fun ⟨hmin, hmax⟩ => ?_) _
    exact hbad.elim (Nat.ne_of_gt hmin) (Nat.not_lt.mpr hmax)
  · rw [exec_treCopy hready ⟨hmin, hmax⟩, argLength, arg1Where, decide_eq_false (Nat.not_le.mpr hbad)]
    rfl
  · rw [exec_treCopy_of_args hready ⟨hmin, hmax⟩ hl, treCopyTail, require, decide_eq_false (Nat.not_le.mpr hback),
      BitVec.ofNat_toNat, BitVec.setWidth_eq]
    rfl
  · obtain ⟨n, hn⟩ : ∃ n, n = min s.arg1.toNat (s.outCap.toNat - s.outLen.toNat) := ⟨_, rfl⟩
    obtain ⟨hbytes, hring, hout⟩ := copied_contents (s := s) (n := n) (by omega) s.arg0.toNat
    refine ⟨copied s.arg0.toNat n s, n, hn, copied_frame _ n s, hbytes, hring, hout, ?_⟩
    rw [exec_treCopy_of_args hready ⟨hmin, hmax⟩ hl, treCopyTail, require, if_pos (decide_eq_true hback), Res.bind_ok,
      copyBytes_eq hmin hmax hback hn]
    split_ifs <;> rfl

end Sys2Proof.Machine
end

section
/-! TRE_STEP (R352) and TRE_RUN (R355): a command replays what StepToken reads, TRE_RUN one turn of its loop after the
other, and a stream of token strings is replayed to the bytes that the tokens denote (R357). -/

namespace Sys2Proof.Machine

/-! ## TRE_STEP (R352) -/

section
variable {s u v : State} {tree : Node}

theorem exec_treStep_noTree (h : s.Ready) (ht : s.tree = none) : exec .treStep s = .next (faulted 0x09 0 s) := by
  refine (runCommand_of_ready h _).trans ?_
  rw [needTree_of_none ht]
  rfl

theorem exec_treStep (h : s.Ready) (ht : s.tree = some tree) : exec .treStep s = finish (treStepBody tree s) := by
  refine (runCommand_of_ready h _).trans ?_
  rw [needTree_of_some ht, Res.bind_ok]

theorem exec_treStep_of_token (h : s.Ready) (ht : s.tree = some tree) {kind k : Word}
    (hstep : stepToken tree s = .ok (some (kind, k)) v) :
    exec .treStep s = .next (complete (Results.two kind k) v) := by
  rw [exec_treStep h ht, treStepBody, hstep]
  rfl

theorem exec_treStep_of_stop (h : s.Ready) (ht : s.tree = some tree) (hstep : stepToken tree s = .ok none u) :
    exec .treStep s = .next (complete (Results.two 2 0)
      (if u.outLen.toNat < u.origLen.toNat then setTrunc u else u)) := by
  rw [exec_treStep h ht, treStepBody, hstep]
  rfl

theorem exec_treStep_of_fault (h : s.Ready) (ht : s.tree = some tree) {c : FaultCode} {i : Word}
    (hstep : stepToken tree s = .fault c i u) : exec .treStep s = .next (takeFault c i u) := by
  rw [exec_treStep h ht, treStepBody, hstep]
  rfl

/-- RES1 of TRE_STEP for a token (R352): a LIT appends one byte, a MATCH its length. -/
def tokenLength : Token → Word
  | .lit _ => 1
  | .pair _ len => len.setWidth 64

theorem replayToken_count {x : Token} {k : Word} (h : replayToken x u = .ok k v) : k = tokenLength x := by
  cases x with
  | lit b =>
    rw [replayToken, replayLit] at h
    split_ifs at h
    obtain ⟨_, _, -, h⟩ := Res.bind_eq_ok.mp h
    cases h
    rfl
  | pair x len =>
    rw [replayToken, replayMatch] at h
    split_ifs at h
    obtain ⟨_, _, -, h⟩ := Res.bind_eq_ok.mp h
    cases h
    rfl

end

/-- Settles O5: the three ends of StepToken. -/
theorem treStepRunsDecodedToken : Obligations.TreStepRunsDecodedToken := by
  refine fun s tree hready htree => ⟨fun x rest hdec u hu =>
    ⟨fun k v hreplay => ⟨exec_toInstr_of_ok hreplay, ?_⟩, fun c i v hreplay => ⟨exec_toInstr_of_fault hreplay, ?_⟩⟩,
    fun hend => ?_, fun rest pos hguard hpos => ?_⟩
  · rw [exec_treStep_of_token hready htree (stepToken_of_decodeToken_ok hready.short hdec hu hreplay),
      replayToken_count hreplay]
    cases x <;> rfl
  · rw [exec_treStep_of_fault hready htree (stepToken_of_decodeToken_fault hready.short hdec hu hreplay)]
    rfl
  · rw [exec_treStep_of_stop hready htree (stepToken_of_end hready.short hend), setEos_outLen, setEos_origLen]
    by_cases hlt : s.outLen.toNat < s.origLen.toNat
    · rw [decide_eq_true hlt, Bool.or_true, if_pos hlt]
      rfl
    · rw [decide_eq_false hlt, Bool.or_false, if_neg hlt]
      rfl
  · rw [exec_treStep_of_fault hready htree (stepToken_of_guard hready.short hguard hpos)]
    rfl

/-- Settles O6: the string of a literal is read as that literal, and a literal that fits is appended. -/
theorem treStepAppendsLiteral : Obligations.TreStepAppendsLiteral := by
  refine fun s hready => ⟨exec_treStep_noTree hready, fun tree b rest htree hbits horig hroom => ?_⟩
  have hfetch : fetchToken tree s = (.token (.lit b), s.advance 9) :=
    fetchToken_of_encodeToken (x := .lit b) hready.short rfl hbits
  have hreplay : replayToken (.lit b) (s.advance 9) = .ok 1 (appendByte b (s.advance 9)) :=
    replayLit_of_fits (s := s.advance 9) horig hroom
  have hstep : stepToken tree s = .ok (some (0, 1)) (appendByte b (s.advance 9)) := by
    rw [stepToken_of_token hfetch, hreplay]
    rfl
  rw [exec_treStep_of_token hready htree hstep]
  rfl

/-! ## TRE_RUN (R355) -/

/-- TRE_RUN from the end of its loop on: RES0 = OUT_LEN and RES1 = the truncated flag. -/
def treRunEnd (r : Res Bool) : Host.Outcome State Fault Refusal :=
  finish (r.bind fun truncated s => .ok (Results.two s.outLen (if truncated then 1 else 0)) s)

section
variable {s u v : State} {tree : Node}

theorem exec_treRun_noTree (h : s.Ready) (ht : s.tree = none) : exec .treRun s = .next (faulted 0x09 0 s) := by
  refine (runCommand_of_ready h _).trans ?_
  rw [treRunBody, needTree_of_none ht]
  rfl

theorem exec_treRun (h : s.Ready) (ht : s.tree = some tree) :
    exec .treRun s = treRunEnd (treRunLoop tree (bitsLeft s + 2) s) := by
  refine (runCommand_of_ready h _).trans ?_
  rw [treRunBody, needTree_of_some ht, Res.bind_ok, treRunEnd]

/-! The ends of the loop, and one turn of it. -/

theorem treRunLoop_of_reached (hs : ShortInput s) (hreached : s.origLen.toNat ≤ s.outLen.toNat) :
    treRunLoop tree (bitsLeft s + 2) s = .ok false s := by
  rw [treRunLoop_turn tree hs, if_neg (Nat.not_lt.mpr hreached)]

section
variable (hs : ShortInput s) (hlt : s.outLen.toNat < s.origLen.toNat)
include hs hlt

theorem treRunLoop_of_token {r : Word × Word} (hstep : stepToken tree s = .ok (some r) v) :
    treRunLoop tree (bitsLeft s + 2) s = treRunLoop tree (bitsLeft v + 2) v := by
  rw [treRunLoop_turn tree hs, if_pos hlt, hstep, Res.bind_ok]

theorem treRunLoop_of_stop (hstep : stepToken tree s = .ok none u) :
    treRunLoop tree (bitsLeft s + 2) s = .ok true (setTrunc u) := by
  rw [treRunLoop_turn tree hs, if_pos hlt, hstep, Res.bind_ok]

theorem treRunLoop_of_fault {c : FaultCode} {i : Word} (hstep : stepToken tree s = .fault c i u) :
    treRunLoop tree (bitsLeft s + 2) s = .fault c i u := by
  rw [treRunLoop_turn tree hs, if_pos hlt, hstep, Res.bind_fault]

end

/-- A replayed token leaves TRE_RUN able to go on. -/
theorem ready_of_replayToken {x : Token} {k : Word} (h : replayToken x u = .ok k v) (hready : u.Ready) : v.Ready := by
  have hsame := replayToken_same x u
  rw [h] at hsame
  rw [show v = _ from hsame]
  exact hready

theorem tree_of_replayToken {x : Token} {k : Word} (h : replayToken x u = .ok k v) : v.tree = u.tree := by
  have hsame := replayToken_same x u
  rw [h] at hsame
  exact SameButOutput.tree hsame

theorem endPos_of_nil (h : 8 * s.inLen.toNat ≤ s.brPos.toNat) : endPos s = s.brPos := if_neg (Nat.not_lt.mpr h)

theorem decodeToken_streamBits_of_nil (h : 8 * s.inLen.toNat ≤ s.brPos.toNat) :
    decodeToken tree (streamBits s) = .error .streamEnds := by
  rw [List.eq_nil_of_length_eq_zero ((streamBits_length s).trans (Nat.sub_eq_zero_of_le h))]
  rfl

/-- A stream that ends stops TRE_RUN with TRUNC and EOS. -/
theorem exec_treRun_of_end (h : s.Ready) (ht : s.tree = some tree) (hlt : s.outLen.toNat < s.origLen.toNat)
    (hend : decodeToken tree (streamBits s) = .error .streamEnds) : exec .treRun s = .next { s with
      brPos := endPos s, res0 := s.outLen, res1 := 1,
      status := { doneStatus s with trunc := true, eos := true } } := by
  rw [exec_treRun h ht, treRunLoop_of_stop h.short hlt (stepToken_of_end h.short hend)]
  rfl

end

/-- Settles O56: the test of the loop, and the three ends of StepToken. -/
theorem treRunStopsAtTargetOrEnd : Obligations.TreRunStopsAtTargetOrEnd := by
  refine fun s hready => ⟨exec_treRun_noTree hready, fun tree htree => ⟨fun hreached => ?_, fun hlt hnil => ?_,
    fun hlt => ⟨fun x rest hdec u hu => ⟨fun k v hreplay => ⟨exec_toInstr_of_ok hreplay, ?_⟩,
        fun c i v hreplay => ⟨exec_toInstr_of_fault hreplay, ?_⟩⟩,
      exec_treRun_of_end hready htree hlt, fun rest pos hguard hpos => ?_⟩⟩⟩
  · rw [exec_treRun hready htree, treRunLoop_of_reached hready.short hreached]
    rfl
  · rw [exec_treRun_of_end hready htree hlt (decodeToken_streamBits_of_nil hnil), endPos_of_nil hnil]
  · have hready' : v.Ready := ready_of_replayToken hreplay (hu ▸ hready)
    have htree' : v.tree = some tree := (tree_of_replayToken hreplay).trans (hu ▸ htree)
    rw [exec_treRun hready htree, exec_treRun hready' htree',
      treRunLoop_of_token hready.short hlt (stepToken_of_decodeToken_ok hready.short hdec hu hreplay)]
  · rw [exec_treRun hready htree,
      treRunLoop_of_fault hready.short hlt (stepToken_of_decodeToken_fault hready.short hdec hu hreplay)]
    rfl
  · rw [exec_treRun hready htree, treRunLoop_of_fault hready.short hlt (stepToken_of_guard hready.short hguard hpos)]
    rfl

/-! ## What replay appends (R357) -/

/-- A copy onto a list adds as many bytes as it says. -/
theorem copyOnto_length (d n : Nat) (out : List Byte) : (copyOnto d n out).length = out.length + n := by
  induction n generalizing out with
  | zero => rfl
  | succ n ih =>
    rw [copyOnto, ih, List.length_append, List.length_singleton]
    omega

theorem expand_length_le {ts : List Token} {out bytes : List Byte} (h : expand ts out = some bytes) :
    out.length ≤ bytes.length := by
  induction ts generalizing out with
  | nil => exact (Option.some.inj h) ▸ Nat.le_refl _
  | cons x ts ih =>
    cases x with
    | lit b =>
      have hle := ih h
      rw [List.length_append] at hle
      exact (Nat.le_add_right _ _).trans hle
    | pair x len =>
      rw [expand] at h
      split_ifs at h
      have hle := ih h
      rw [copyOnto_length] at hle
      exact (Nat.le_add_right _ _).trans hle

@[simp] theorem appendBytes_outCap (out : List Byte) (s : State) : (appendBytes out s).outCap = s.outCap := rfl
@[simp] theorem appendBytes_origLen (out : List Byte) (s : State) : (appendBytes out s).origLen = s.origLen := rfl

section
variable {s : State} {out bytes : List Byte} (hzero : s.outLen = 0)
include hzero

/-- From OUT_LEN = 0 the bytes appended stand at the indexes from 0 on. -/
theorem appendBytes_wrote_zero (hcap : out.length ≤ s.outCap.toNat) : Wrote 0 s out (appendBytes out s) := by
  have hwrote : Wrote s.outLen.toNat s out (appendBytes out s) := appendBytes_wrote (by simpa [hzero] using hcap)
  rwa [hzero] at hwrote

theorem appendBytes_outLen_toNat (hcap : out.length ≤ s.outCap.toNat) :
    (appendBytes out s).outLen.toNat = out.length :=
  (appendBytes_wrote_zero hzero hcap).outLen.trans (Nat.zero_add _)

/-- The ring gives back the last 32768 of them. -/
theorem ringRead_appendBytes {i : Nat} (hi : i < out.length) (hwin : out.length ≤ i + 32768) :
    ringRead (appendBytes out s) i = out.getD i 0 := by
  have hslot := get?_ringSetAll_inside out s.ring 0 hi hwin
  rw [Nat.zero_add] at hslot
  have hring : (appendBytes out s).ring = ringSetAll s.ring 0 out := by rw [appendBytes, hzero]; rfl
  rw [ringRead, hring, hslot, List.getD_eq_getElem?_getD, List.getElem?_eq_getElem hi]
  rfl

/-- An OutWrite with room appends its byte to the list. -/
theorem outWrite_appendBytes (v : Byte) (hcap : out.length < s.outCap.toNat) :
    outWrite v (appendBytes out s) = .ok () (appendBytes (out ++ [v]) s) := by
  have hlen := appendBytes_outLen_toNat hzero hcap.le
  have hout : s.outLen.toNat = 0 := congrArg BitVec.toNat hzero
  rw [outWrite, appendBytes_outCap, hlen, if_neg (Nat.not_le.mpr hcap), appendByte, hlen]
  simp only [appendBytes, hout, Sparse.setAll_append, ringSetAll_append, List.length_append, BitVec.ofNat_add,
    BitVec.add_assoc, Nat.zero_add]
  rfl

/-- The copy of the machine is the copy onto the list of bytes (R351). -/
theorem copyBytes_appendBytes {d n : Nat} (hd : 1 ≤ d) (hwin : d ≤ 32768) (hback : d ≤ out.length)
    (hcap : out.length + n ≤ s.outCap.toNat) :
    copyBytes d n (appendBytes out s) = .ok () (appendBytes (copyOnto d n out) s) := by
  induction n generalizing out with
  | zero => rfl
  | succ n ih =>
    rw [copyBytes, appendBytes_outLen_toNat hzero (by omega), ringRead_appendBytes hzero (by omega) (by omega),
      outWrite_appendBytes hzero _ (by omega), Res.bind_ok, copyOnto]
    exact ih (by rw [List.length_append]; omega) (by rw [List.length_append, List.length_singleton]; omega)

/-- A legal token of a list appends the bytes it denotes, at least one of them. -/
theorem replayToken_appendBytes {x : Token} {ts : List Token} (h : expand (x :: ts) out = some bytes)
    (hwf : x.wf = true) (horig : bytes.length ≤ s.origLen.toNat) (hcap : bytes.length ≤ s.outCap.toNat) :
    ∃ k out', replayToken x (appendBytes out s) = .ok k (appendBytes out' s) ∧ expand ts out' = some bytes ∧
      out.length < out'.length := by
  have hlen := appendBytes_outLen_toNat hzero ((expand_length_le h).trans hcap)
  cases x with
  | lit b =>
    have hle := expand_length_le (ts := ts) h
    rw [List.length_append, List.length_singleton] at hle
    refine ⟨1, out ++ [b], ?_, h, by rw [List.length_append]; exact Nat.lt_succ_self _⟩
    rw [replayToken, replayLit, hlen, appendBytes_origLen, if_neg (Nat.not_lt.mpr (hle.trans horig)),
      outWrite_appendBytes hzero b (by omega), Res.bind_ok]
  | pair x len =>
    rw [expand] at h
    split_ifs at h with hback
    have hle := expand_length_le h
    rw [copyOnto_length] at hle
    have hmin : 3 ≤ len.toNat := of_decide_eq_true hwf
    refine ⟨len.setWidth 64, copyOnto (distOf x) len.toNat out, ?_, h, by rw [copyOnto_length]; omega⟩
    rw [replayToken, replayMatch_of_fits (hlen ▸ hback) (hlen ▸ hle.trans horig),
      copyBytes_appendBytes hzero (distOf_pos x) (distOf_le x) hback (hle.trans hcap), Res.bind_ok]

end

/-- The loop over the strings of legal tokens: it stands at the bytes replayed so far and the bits read so far, and ends
when the bytes are all there. -/
theorem treRunLoop_tokens {s : State} {tree : Node} {ts : List Token} {bits rest : List Bool} {out bytes : List Byte}
    (hs : ShortInput s) (hzero : s.outLen = 0) (hbits : tokenBits tree ts = some bits)
    (hwf : ∀ t ∈ ts, t.wf = true) (hstream : streamBits s = bits ++ rest) (hexpand : expand ts out = some bytes)
    (horig : s.origLen.toNat = bytes.length) (hcap : bytes.length ≤ s.outCap.toNat) :
    treRunLoop tree (bitsLeft (appendBytes out s) + 2) (appendBytes out s) =
      .ok false (appendBytes bytes (s.advance bits.length)) := by
  induction ts generalizing s out bits with
  | nil =>
    obtain rfl := Option.some.inj hexpand
    obtain rfl := Option.some.inj hbits
    have hreached : s.origLen.toNat ≤ (appendBytes out s).outLen.toNat :=
      horig.trans_le (appendBytes_outLen_toNat hzero hcap).ge
    rw [treRunLoop_of_reached (s := appendBytes out s) hs hreached, List.length_nil, State.advance_zero]
  | cons x ts ih =>
    obtain ⟨b, bs, hb, hbs, rfl⟩ := tokenBits_cons hbits
    rw [List.append_assoc] at hstream
    obtain ⟨k, out', hreplay, hnext, hgrow⟩ := replayToken_appendBytes (s := s.advance b.length) hzero hexpand
      (hwf x List.mem_cons_self) horig.ge hcap
    have hfetch : fetchToken tree (appendBytes out s) = (.token x, appendBytes out (s.advance b.length)) :=
      fetchToken_of_encodeToken (s := appendBytes out s) hs hb hstream
    have hstep : stepToken tree (appendBytes out s) =
        .ok (some (tokenKind x, k)) (appendBytes out' (s.advance b.length)) := by
      rw [stepToken_of_token hfetch, hreplay, Res.bind_ok]
    have hbelow : (appendBytes out s).outLen.toNat < s.origLen.toNat := by
      rw [appendBytes_outLen_toNat hzero ((expand_length_le hexpand).trans hcap), horig]
      exact hgrow.trans_le (expand_length_le hnext)
    have hrest : streamBits (s.advance b.length) = bs ++ rest := (getBits_of_append hs hstream).2
    rw [treRunLoop_of_token (s := appendBytes out s) hs hbelow hstep, List.length_append, ← State.advance_advance]
    exact ih (s := s.advance b.length) hs hzero hbs (fun t ht => hwf t (List.mem_cons_of_mem x ht)) hrest hnext horig
      hcap

/-- Settles O57: the loop over the whole list from no bytes, and what a run of writes leaves in OUT and RING. The state
is the stated one by definition, but for OUT_LEN, which is the number of bytes. -/
theorem treRunReplaysTokens : Obligations.TreRunReplaysTokens := by
  intro s tree ts bits rest bytes hready htree hbits hwf hstream hexpand hzero horig hcap
  have hloop := treRunLoop_tokens hready.short hzero hbits hwf hstream hexpand horig hcap
  have hwrote : Wrote 0 (s.advance bits.length) bytes (appendBytes bytes (s.advance bits.length)) :=
    appendBytes_wrote_zero (s := s.advance bits.length) hzero hcap
  have hlen : (appendBytes bytes (s.advance bits.length)).outLen = s.origLen :=
    BitVec.eq_of_toNat_eq (hwrote.outLen.trans ((Nat.zero_add _).trans horig.symm))
  rw [appendBytes_nil] at hloop
  refine ⟨complete (Results.two s.origLen 0) (appendBytes bytes (s.advance bits.length)), ?_,
    congrArg (fun n : Word => { complete (Results.two s.origLen 0) (appendBytes bytes (s.advance bits.length)) with
      outLen := n }) hlen,
    hwrote.outBytes_eq, hwrote.ringFollows, fun a ha => hwrote.out_outside (.inr ?_)⟩
  · rw [exec_treRun hready htree, hloop, treRunEnd, Res.bind_ok, hlen]
    rfl
  · rwa [hwrote.outLen, Nat.zero_add]

end Sys2Proof.Machine
end

section
/-! Packing (R83, R131): the bytes of a packed bit list hold its bits and then the zeros that fill the last byte, and
equal bits are equal bytes. -/

namespace Sys2Proof.Machine

theorem bytesBits_cons (b : Byte) (bs : List Byte) : bytesBits (b :: bs) = bitsOf 8 b.toNat ++ bytesBits bs := rfl

/-- A bit list that fills whole bytes is what those bytes hold. -/
theorem bytesBits_packBytes {k : Nat} {l : List Bool} (h : l.length = 8 * k) : bytesBits (packBytes l k) = l := by
  induction k generalizing l with
  | zero => exact (List.eq_nil_of_length_eq_zero h).symm
  | succ k ih =>
    have htake : (l.take 8).length = 8 := List.length_take_of_le (by omega)
    have hbyte : (BitVec.ofNat 8 (bitsValue (l.take 8))).toNat = bitsValue (l.take 8) :=
      Nat.mod_eq_of_lt ((bitsValue_lt _).trans_eq (congrArg (2 ^ ·) htake))
    have hbits := bitsOf_bitsValue (l.take 8)
    rw [htake] at hbits
    rw [packBytes, bytesBits_cons, hbyte, hbits, ih (by rw [List.length_drop]; omega), List.take_append_drop]

theorem packBytes_length (l : List Bool) (k : Nat) : (packBytes l k).length = k := by
  induction k generalizing l with
  | zero => rfl
  | succ k ih => exact congrArg Nat.succ (ih (l.drop 8))

theorem packed_length (l : List Bool) : (packed l).length = (l.length + 7) / 8 := packBytes_length _ _

/-- The zeros that fill the last byte (R131). -/
def padZeros (l : List Bool) : List Bool := List.replicate ((8 - l.length % 8) % 8) false

theorem bytesBits_packed (l : List Bool) : bytesBits (packed l) = l ++ padZeros l :=
  bytesBits_packBytes (by rw [List.length_append, List.length_replicate]; omega)

theorem container_length (n : Nat) (ft : List FtEntry) (bits : List Bool) :
    (container n ft bits).length = 10 + 10 * ft.length + (packed bits).length := by
  rw [container, List.length_append, headerBytes_length]

/-- Bytes whose bits begin the bits of others begin those bytes. -/
theorem isPrefix_of_bytesBits {bs cs : List Byte} (h : bytesBits bs <+: bytesBits cs) : bs <+: cs := by
  induction bs generalizing cs with
  | nil => exact List.nil_prefix
  | cons b bs ih =>
    cases cs with
    | nil =>
      have hle := h.length_le
      rw [bytesBits_length, bytesBits_length] at hle
      exact absurd hle (by rw [List.length_cons, List.length_nil]; omega)
    | cons c cs =>
      obtain ⟨rest, hrest⟩ := h
      rw [bytesBits_cons, bytesBits_cons, List.append_assoc] at hrest
      obtain ⟨hbits, hrest⟩ := List.append_inj hrest ((bitsOf_length _ _).trans (bitsOf_length _ _).symm)
      have hbyte : b.toNat = c.toNat := by
        rw [← bitsValue_bitsOf b.isLt, ← bitsValue_bitsOf c.isLt, hbits]
      exact List.cons_prefix_cons.mpr ⟨BitVec.eq_of_toNat_eq hbyte, ih ⟨rest, hrest⟩⟩

end Sys2Proof.Machine
end

section
/-! DECOMPRESS (R383): the header, the tree and then TRE_RUN, and the container of a token list expanded (R357). -/

namespace Sys2Proof.Machine

/-! ## The three parts of DECOMPRESS -/

/-- What DECOMPRESS has loaded when the token stream begins: the header at the start of IN, the tree of its table, and
an empty output. -/
def State.loaded (s : State) (tree : Node) : State :=
  { s with ft := headerEntries s 10 (headerCount s), tree := some tree, origLen := BitVec.ofNat 64 (inNumber s 0 8),
           brPos := BitVec.ofNat 64 (8 * (10 + 10 * headerCount s)), outLen := 0, bwAcc := 0, bwCnt := 0 }

section
variable {s : State}

theorem exec_decompress_of_short (h : s.Ready)
    (hshort : s.inLen.toNat < 10 ∨ s.inLen.toNat < 10 + 10 * headerCount s) :
    exec .decompress s = .next (faulted 0x07 s.inLen s) := by
  refine (runCommand_of_ready h _).trans ?_
  rw [decompressBody, hdrReadBody, parseHeader_of_short hshort]
  rfl

variable (h : s.Ready) (hfits : 10 + 10 * headerCount s ≤ s.inLen.toNat)
include h hfits

theorem exec_decompress_of_noTree (htree : buildTree (headerEntries s 10 (headerCount s)) = none) :
    exec .decompress s = .next (faulted 0x08 0xFFFFFFFFFFFFFFFF { s with
      ft := headerEntries s 10 (headerCount s), tree := none, origLen := BitVec.ofNat 64 (inNumber s 0 8),
      brPos := BitVec.ofNat 64 (8 * (10 + 10 * headerCount s)) }) := by
  refine (runCommand_of_ready h _).trans ?_
  rw [decompressBody, hdrReadBody, parseHeader_of_fits hfits]
  simp only [Res.bind_ok, htBuildBody, setTable_ft, htree]
  rfl

/-- With the header loaded and its tree built, DECOMPRESS is TRE_RUN. -/
theorem exec_decompress_of_tree {tree : Node} (htree : buildTree (headerEntries s 10 (headerCount s)) = some tree) :
    exec .decompress s = exec .treRun (s.loaded tree) := by
  have hready : (s.loaded tree).Ready := h
  refine (runCommand_of_ready h _).trans (Eq.trans ?_ (runCommand_of_ready hready _).symm)
  rw [decompressBody, hdrReadBody, parseHeader_of_fits hfits]
  simp only [Res.bind_ok, htBuildBody, setTable_ft, htree]
  rfl

end

/-! ## A container in IN -/

theorem inBytes_add (s : State) (a k m : Nat) : inBytes s a (k + m) = inBytes s a k ++ inBytes s (a + k) m := by
  simp only [inBytes_eq_map, List.range_add, List.map_append, List.map_map, Function.comp_def, Nat.add_assoc]

section
variable {s : State} {a : Nat} {bits : List Bool}

/-- A stream that begins at a byte boundary with packed bits begins with those bits. -/
theorem streamBits_of_packed (hpos : s.brPos.toNat = 8 * a) (h : inBytes s a (packed bits).length = packed bits)
    (hlen : a + (packed bits).length ≤ s.inLen.toNat) : ∃ rest, streamBits s = bits ++ rest := by
  obtain ⟨r, hr⟩ := Nat.exists_eq_add_of_le hlen
  have hspan : s.inLen.toNat - a = (packed bits).length + r := by omega
  rw [streamBits_of_byte_boundary hpos, hspan, inBytes_add, bytesBits_append, h, bytesBits_packed, List.append_assoc]
  exact ⟨_, rfl⟩

variable {n : Nat} {ft : List FtEntry} {tree : Node}

/-- A container at the start of IN is loaded as its length, its table and its token bits. -/
theorem loaded_of_container (h : inBytes s 0 (container n ft bits).length = container n ft bits) (hn : n < 2 ^ 64)
    (hft : ft.length ≤ 65535) (hlen : (container n ft bits).length ≤ s.inLen.toNat) :
    headerCount s = ft.length ∧ headerEntries s 10 ft.length = ft ∧
      s.loaded tree = { s with
        ft := ft, tree := some tree, origLen := BitVec.ofNat 64 n,
        brPos := BitVec.ofNat 64 (8 * (10 + 10 * ft.length)), outLen := 0, bwAcc := 0, bwCnt := 0 } ∧
      ∃ rest, streamBits (s.loaded tree) = bits ++ rest := by
  rw [container_length] at h hlen
  obtain ⟨hheader, hpacked⟩ := inBytes_eq_append h (headerBytes_length n ft)
  obtain ⟨horig, hcount, hentries⟩ := header_of_headerBytes hheader hn hft
  have hpos : (s.loaded tree).brPos.toNat = 8 * (10 + 10 * ft.length) := by
    rw [State.loaded, hcount]
    exact Nat.mod_eq_of_lt (by omega)
  refine ⟨hcount, hentries, ?_, streamBits_of_packed hpos ?_ hlen⟩
  · rw [State.loaded, horig, hcount, hentries]
  · rw [Nat.zero_add, inBytes_eq_map] at hpacked
    rw [inBytes_eq_map]
    exact hpacked

end

/-- Settles O59: a container is loaded as what it was made of and TRE_RUN replays its tokens; any other input goes
through the same three parts. -/
theorem decompressExpandsContainer : Obligations.DecompressExpandsContainer := by
  refine ⟨fun s ft tree ts bits bytes c hready hft htree hbits hwf hexpand hc hlen hin hcap => ?_,
    fun s m hready hm => ?_⟩
  · subst hc
    obtain ⟨hcount, hentries, hloaded, rest, hstream⟩ :=
      loaded_of_container (tree := tree) hin (hcap.trans_lt s.outCap.isLt) hft hlen
    have hfits : 10 + 10 * headerCount s ≤ s.inLen.toNat := by
      rw [container_length] at hlen
      omega
    rw [exec_decompress_of_tree hready hfits (by rwa [hcount, hentries])]
    have horig : (s.loaded tree).origLen.toNat = bytes.length := by
      rw [hloaded]
      exact Nat.mod_eq_of_lt (hcap.trans_lt s.outCap.isLt)
    obtain ⟨t, hrun, hframe, hbytes, hring, hout⟩ := treRunReplaysTokens (s.loaded tree) tree ts bits rest bytes hready
      rfl hbits hwf hstream hexpand rfl horig hcap
    refine ⟨t, hrun, ?_, hbytes, hring, hout⟩
    rw [hloaded] at hframe
    rw [BitVec.ofNat_add]
    exact hframe
  · obtain rfl : headerCount s = m := hm.symm
    refine ⟨exec_decompress_of_short hready, fun hfits => ?_⟩
    have hread := exec_hdrRead_of_fits hready hfits
    cases htree : buildTree (headerEntries s 10 (headerCount s)) with
    | none =>
      exact ⟨_, _, hread, exec_htBuild_of_none hready htree,
        fun _ => exec_decompress_of_noTree hready hfits htree, nofun⟩
    | some tree =>
      refine ⟨_, _, hread, exec_htBuild_of_some (by exact hready) htree, nofun, fun tree' htree' => ?_⟩
      obtain rfl : tree = tree' := Option.some.inj htree'
      exact exec_decompress_of_tree hready hfits htree

end Sys2Proof.Machine
end

section
/-! COMPRESS derives tokens from a state in which it has cleared registers that the match finder does not read: the
derivation (R230) depends on IN, HEAD, PREV and the hash only. -/

namespace Sys2Proof.Machine

/-- Two states agree on all that the match finder reads: IN, HEAD, PREV and the hash, unwritten cells included. -/
structure SameFinder (s t : State) : Prop where
  params : s.params = t.params
  resets : s.resets = t.resets
  inLen : s.inLen = t.inLen
  inMem : s.inMem = t.inMem
  head : s.head = t.head
  prev : s.prev = t.prev

section
variable {s t : State} (h : SameFinder s t)
include h

theorem SameFinder.inByte_eq (a : Nat) : inByte s a = inByte t a := by
  rw [inByte, inByte, h.inMem, h.resets]

theorem SameFinder.matchRun_eq (k q p : Nat) : matchRun s k q p = matchRun t k q p := by
  induction k generalizing q p with
  | zero => rfl
  | succ k ih => rw [matchRun, matchRun, h.inByte_eq, h.inByte_eq, ih]

theorem SameFinder.extend_eq (q p : Nat) : extend s q p = extend t q p := by
  rw [extend, extend, h.inLen, h.matchRun_eq]

theorem SameFinder.prevAt_eq (q : Nat) : prevAt s q = prevAt t q := by
  rw [prevAt, prevAt, h.prev, h.resets]

theorem SameFinder.searchLoop_eq (p k : Nat) (q : Option Word) (best : Nat × Nat) :
    searchLoop s p k q best = searchLoop t p k q best := by
  induction k generalizing q best with
  | zero => rfl
  | succ k ih =>
    cases q with
    | none => rfl
    | some q => simp only [searchLoop, ih, h.extend_eq, h.prevAt_eq]

theorem SameFinder.hashable_eq (p : Nat) : hashable s p = hashable t p := by
  rw [hashable, hashable, h.inLen]

/-- The bucket of a position and the HEAD entry there. -/
theorem SameFinder.bucket_eq (p : Nat) :
    hashAt s p = hashAt t p ∧ headAt s (hashAt s p) = headAt t (hashAt t p) := by
  have hhash : hashAt s p = hashAt t p := by simp only [hashAt, h.params, h.inByte_eq]
  exact ⟨hhash, by rw [headAt, headAt, h.head, hhash]⟩

theorem SameFinder.search_eq (p : Nat) : search s p = search t p := by
  rw [search, search, h.hashable_eq, (h.bucket_eq p).2, h.searchLoop_eq]

theorem SameFinder.insertPos (p : Nat) : SameFinder (insertPos s p) (insertPos t p) := by
  obtain ⟨hhash, hhead⟩ := h.bucket_eq p
  rw [Machine.insertPos, Machine.insertPos, h.hashable_eq, hhead, hhash]
  split_ifs
  · exact ⟨h.params, h.resets, h.inLen, h.inMem, by rw [h.head], by rw [h.prev]⟩
  · exact h

theorem SameFinder.insertAll (l : List Nat) :
    SameFinder (l.foldl Machine.insertPos s) (l.foldl Machine.insertPos t) := by
  induction l generalizing s t with
  | nil => exact h
  | cons p l ih => exact ih (h.insertPos p)

theorem SameFinder.bestMatches_eq (k p : Nat) : bestMatches k p s = bestMatches k p t := by
  induction k generalizing p s t with
  | zero => rfl
  | succ k ih => rw [bestMatches, bestMatches, h.search_eq, ih (h.insertPos p)]

end

theorem greedyScan_congr {s t : State} (h : ∀ a, inByte s a = inByte t a) (ms : List (Nat × Nat)) (p skip : Nat) :
    greedyScan s ms p skip = greedyScan t ms p skip := by
  induction ms generalizing p skip with
  | nil => rfl
  | cons m ms ih =>
    cases skip with
    | succ skip => exact ih _ _
    | zero => rw [greedyScan, greedyScan, tokenAt, tokenAt, h, ih]

/-! ## The scan of COMPRESS -/

theorem compressStart_sameFinder (s : State) : SameFinder (mfClearBody (compressStart s)) (mfClearBody s) :=
  ⟨rfl, rfl, rfl, rfl, rfl, rfl⟩

theorem derive_compressStart (s : State) : derive (compressStart s) = derive s := by
  rw [derive, derive, (compressStart_sameFinder s).bestMatches_eq]
  exact greedyScan_congr (s := compressStart s) (t := s) (fun _ => rfl) _ 0 0

/-- What COMPRESS has prepared when TOK_DERIVE's body is done, and the table and the tree that it makes then: HEAD, PREV
and TOKBUF of the derivation, and an empty output. -/
def State.prepared (s : State) (ft : List FtEntry) (tree : Option Node) : State :=
  { s with head := (insertAll s).head, prev := (insertAll s).prev, tokbuf := derive s, ft := ft, tree := tree,
           outLen := 0, bwAcc := 0, bwCnt := 0 }

theorem tokDeriveBody_compressStart (s : State) : tokDeriveBody (compressStart s) = s.prepared [] none := by
  have h : SameFinder (insertAll (compressStart s)) (insertAll s) := (compressStart_sameFinder s).insertAll _
  have hsame : SameButFinder (compressStart s) (insertAll (compressStart s)) :=
    inserted_same (compressStart s) s.inLen.toNat
  rw [tokDeriveBody_eq, derive_compressStart, State.prepared, ← h.head, ← h.prev]
  exact congrArg (State.withTokens · (derive s)) hsame

section
variable (s : State) (ft ft' : List FtEntry) (tree : Option Node)

@[simp] theorem prepared_tokbuf : (s.prepared ft tree).tokbuf = derive s := by simp only [State.prepared]

@[simp] theorem prepared_tree : (s.prepared ft tree).tree = tree := by simp only [State.prepared]

@[simp] theorem prepared_outCap : (s.prepared ft tree).outCap = s.outCap := by simp only [State.prepared]

theorem setTable_prepared : setTable ft' (s.prepared ft tree) = s.prepared ft' none := by
  simp only [setTable, State.prepared]

/-- The body of HT_BUILD on a table that builds. -/
theorem htBuildBody_prepared {t : Node} (ht : buildTree ft = some t) :
    htBuildBody (s.prepared ft none) = .ok t (s.prepared ft (some t)) := by
  simp only [htBuildBody, State.prepared, ht]

/-- The preparation writes neither OUT nor RING nor what the host sets. -/
theorem prepared_output : (s.prepared ft tree).hostSide = s.hostSide ∧ (s.prepared ft tree).outMem = s.outMem ∧
    (s.prepared ft tree).ring = s.ring := by
  simp only [State.prepared, State.hostSide, and_self]

end

end Sys2Proof.Machine
end

section
/-! The table that COMPRESS makes of its tokens (R234, R237) builds, and its tree has a code of legal length for every
match: the counts add up to no more than the tokens (R267). -/

namespace Sys2Proof.Machine

theorem Ascending.nodup_syms {ft : List FtEntry} (h : Ascending ft) : (ft.map FtEntry.sym).Nodup :=
  List.pairwise_map.mpr ((List.pairwise_map.mp h).imp fun hlt heq => hlt.ne (congrArg BitVec.toNat heq))

section
variable {ls : List Sym} {ft : List FtEntry} (h : CountsOf ls ft)
include h

/-- Each entry is a length of the list with its count. -/
theorem CountsOf.entry {e : FtEntry} (he : e ∈ ft) : e.sym ∈ ls ∧ e.freq = BitVec.ofNat 64 (ls.count e.sym) := by
  obtain ⟨pre, post, rfl⟩ := List.append_of_mem he
  have hpre : ∀ x ∈ pre, x.sym ≠ e.sym := fun x hx heq => by
    have hlt := (List.pairwise_append.mp (List.pairwise_map.mp h.1)).2.2 x hx e List.mem_cons_self
    exact hlt.ne (congrArg BitVec.toNat heq)
  have hfreq : ftFreq (pre ++ e :: post) e.sym = some e.freq := ftFreq_at_first hpre
  have hmem : e.sym ∈ ls := by
    by_contra hnot
    cases (h.freq_of_notMem hnot).symm.trans hfreq
  exact ⟨hmem, Option.some.inj (hfreq.symm.trans (h.freq_of_mem hmem))⟩

theorem CountsOf.freq_toNat (hlen : ls.length ≤ 2 ^ 60) {e : FtEntry} (he : e ∈ ft) :
    e.freq.toNat = ls.count e.sym := by
  have hcount := ls.count_le_length (a := e.sym)
  rw [(h.entry he).2]
  exact Nat.mod_eq_of_lt (by omega)

theorem CountsOf.one_le_freq (hlen : ls.length ≤ 2 ^ 60) {e : FtEntry} (he : e ∈ ft) : 1 ≤ e.freq.toNat := by
  rw [h.freq_toNat hlen he]
  exact List.count_pos_iff.mpr (h.entry he).1

/-- The counts of different lengths add up to no more than there are lengths. -/
theorem CountsOf.totalFreq_le (hlen : ls.length ≤ 2 ^ 60) : totalFreq ft ≤ ls.length := by
  have hfreqs : (ft.map fun e => e.freq.toNat) = (ft.map FtEntry.sym).map fun v => ls.count v := by
    rw [List.map_map]
    exact List.map_congr_left fun e he => h.freq_toNat hlen he
  have hsub : (ft.map FtEntry.sym).toFinset ⊆ ls.toFinset := fun v hv => by
    obtain ⟨e, he, rfl⟩ := List.mem_map.mp (List.mem_toFinset.mp hv)
    exact List.mem_toFinset.mpr (h.entry he).1
  calc totalFreq ft = ∑ v ∈ (ft.map FtEntry.sym).toFinset, ls.count v := by
        rw [totalFreq, hfreqs, List.sum_toFinset _ h.1.nodup_syms]
    _ ≤ ∑ v ∈ ls.toFinset, ls.count v := Finset.sum_le_sum_of_subset hsub
    _ = ls.length := List.sum_toFinset_count_eq_length ls

/-- Without the length 0 there are at most 65535 entries: there are 65536 symbols. -/
theorem CountsOf.length_le (hzero : 0 ∉ ls) : ft.length ≤ 65535 := by
  have hnodup : (0 :: ft.map FtEntry.sym).Nodup := by
    refine List.nodup_cons.mpr ⟨fun hmem => ?_, h.1.nodup_syms⟩
    obtain ⟨e, he, hsym⟩ := List.mem_map.mp hmem
    exact hzero (hsym ▸ (h.entry he).1)
  have hcard : Fintype.card Sym = 65536 := FinEnum.card_eq_fintypeCard.symm
  have hle := hnodup.length_le_card
  rw [hcard, List.length_cons, List.length_map] at hle
  exact Nat.le_of_succ_le_succ hle

end

/-! ## The table of legal tokens -/

theorem matchLengths_length_le (ts : List Token) : (matchLengths ts).length ≤ ts.length := List.length_filterMap_le _ _

theorem zero_notMem_matchLengths {ts : List Token} (hwf : ∀ t ∈ ts, t.wf = true) : 0 ∉ matchLengths ts := by
  intro hmem
  obtain ⟨t, ht, hlen⟩ := List.mem_filterMap.mp hmem
  cases t with
  | lit b => cases hlen
  | pair x len =>
    cases hlen
    cases hwf _ ht

section
variable {ts : List Token} {ft : List FtEntry} {tree : Node} (h : IsTableOf ts ft)
include h

theorem IsTableOf.length_le (hwf : ∀ t ∈ ts, t.wf = true) : ft.length ≤ 65535 := by
  rcases h with ⟨-, rfl⟩ | ⟨-, hcounts⟩
  · exact (by decide : 1 ≤ 65535)
  · exact CountsOf.length_le hcounts (zero_notMem_matchLengths hwf)

theorem IsTableOf.mem_syms {v : Sym} (hv : v ∈ matchLengths ts) : v ∈ ft.map FtEntry.sym := by
  rcases h with ⟨hnil, -⟩ | ⟨-, hcounts⟩
  · rw [hnil] at hv
    cases hv
  · by_contra hnot
    have hnone : ftFreq ft v = none :=
      ftFreq_eq_none_iff.mpr fun e he heq => hnot (heq ▸ List.mem_map_of_mem he)
    cases hnone.symm.trans (CountsOf.freq_of_mem hcounts hv)

variable (hlen : ts.length ≤ 2 ^ 60)
include hlen

theorem IsTableOf.one_le_freq : ∀ e ∈ ft, 1 ≤ e.freq.toNat := by
  rcases h with ⟨-, rfl⟩ | ⟨-, hcounts⟩
  · decide
  · exact fun e => CountsOf.one_le_freq hcounts ((matchLengths_length_le ts).trans hlen)

theorem IsTableOf.totalFreq_lt : totalFreq ft < 2 ^ 64 := by
  rcases h with ⟨-, rfl⟩ | ⟨-, hcounts⟩
  · decide
  · have hle := (matchLengths_length_le ts).trans hlen
    have := CountsOf.totalFreq_le hcounts hle
    omega

/-- Its weights fit, so it builds (R261). -/
theorem IsTableOf.exists_buildTree : ∃ tree, buildTree ft = some tree := by
  have hfit := h.totalFreq_lt hlen
  rcases Nat.lt_or_ge ft.length 2 with hone | htwo
  · obtain ⟨v, f, htree⟩ := buildTree_degenerate (Nat.le_of_lt_succ hone)
    exact ⟨_, htree⟩
  · rcases buildTree_cases htwo with ⟨tree, htree, -⟩ | ⟨-, hover⟩
    · exact ⟨tree, htree⟩
    · omega

/-- Its codes are short enough to emit (R267). -/
theorem IsTableOf.codesFit (htree : buildTree ft = some tree) : CodesFit tree ts := fun v _ c hc =>
  (codesStayBelowCodeMax ft tree v c (h.one_le_freq hlen) htree hc).le

end

/-! ## The codes of the match lengths -/

theorem hasSym_of_mem_leafSyms {tree : Node} {v : Sym} (h : v ∈ leafSyms tree) : tree.hasSym v = true := by
  induction tree with
  | leaf u =>
    rw [List.mem_singleton.mp h]
    exact beq_self_eq_true u
  | guard => cases h
  | internal l r w ihl ihr =>
    rw [Node.hasSym, Bool.or_eq_true]
    exact (List.mem_append.mp h).imp ihl ihr

/-- A built tree has a leaf for every symbol of its table. -/
theorem hasSym_of_buildTree {ft : List FtEntry} {tree : Node} {v : Sym} (htree : buildTree ft = some tree)
    (hv : v ∈ ft.map FtEntry.sym) : tree.hasSym v = true := by
  refine hasSym_of_mem_leafSyms ?_
  match ft, htree, hv with
  | [e], htree, hv =>
    obtain rfl := Option.some.inj htree
    exact hv
  | e :: f :: es, htree, hv =>
    rcases buildTree_cases (ft := e :: f :: es) (Nat.le_add_left 2 _) with ⟨t, ht, -, -, -, hleaves⟩ | ⟨hnone, -⟩
    · obtain rfl := Option.some.inj (htree.symm.trans ht)
      exact hleaves.mem_iff.mpr hv
    · cases htree.symm.trans hnone

/-- Tokens whose lengths all have a leaf have strings. -/
theorem exists_tokenBits {tree : Node} {ts : List Token} (h : ∀ v ∈ matchLengths ts, tree.hasSym v = true) :
    ∃ bits, tokenBits tree ts = some bits := by
  induction ts with
  | nil => exact ⟨[], rfl⟩
  | cons x ts ih =>
    have hx : x.toInstr.wf tree = true ∧ ∀ v ∈ matchLengths ts, tree.hasSym v = true := by
      cases x with
      | lit b => exact ⟨rfl, h⟩
      | pair x len => exact List.forall_mem_cons.mp h
    obtain ⟨b, hb⟩ := Option.isSome_iff_exists.mp ((encodeToken_isSome tree x).trans hx.1)
    obtain ⟨bs, hbs⟩ := ih hx.2
    exact ⟨b ++ bs, by rw [tokenBits, hb, hbs]⟩

end Sys2Proof.Machine
end

section
/-! Writing a container (R320, R323, R295): the header bytes, the token bits and Flush, with and without room in OUT. -/

namespace Sys2Proof.Machine

/-! ## A run of output with bits pending -/

/-- `t` is `s` after the bytes `bs` were written at OUT_LEN, with the bits `pend` pending. -/
structure Emitted (s : State) (bs : List Byte) (pend : List Bool) (t : State) : Prop where
  same : SameButOutput s t
  wrote : Wrote s.outLen.toNat s bs t
  packer : t.PackerOk
  pending : pendingBits t = pend

section
variable {s t u : State} {bs cs : List Byte} {pend pend' : List Bool}

theorem Emitted.trans (h : Emitted s bs pend t) (h' : Emitted t cs pend' u) : Emitted s (bs ++ cs) pend' u :=
  ⟨h.same.trans h'.same, h.wrote.trans h'.wrote, h'.packer, h'.pending⟩

/-- It stays below OUT_CAP when it starts there. -/
theorem Emitted.outLen_le (h : Emitted s bs pend t) (hcap : s.outLen.toNat ≤ s.outCap.toNat) :
    t.outLen.toNat ≤ s.outCap.toNat := by
  cases bs with
  | nil => exact h.wrote.outLen.trans_le hcap
  | cons b bs => exact h.wrote.belowCap nofun

theorem Emitted.appendBytes (hcnt : s.bwCnt = 0) (hok : s.PackerOk)
    (hroom : bs.length ≤ s.outCap.toNat - s.outLen.toNat) : Emitted s bs [] (appendBytes bs s) :=
  ⟨rfl, appendBytes_wrote hroom, hok, pendingBits_of_empty hcnt⟩

/-! ## PutBit and Flush -/

/-- How a run of PutBit ends: it takes all its bits, or those up to the one that would fill the byte at OUT_CAP. -/
theorem putBitList_cases (hok : s.PackerOk) (l : List Bool) :
    (∃ t bs, putBitList l s = .ok () t ∧ Packs s l bs t) ∨
      ∃ k t bs, k < l.length ∧ putBitList l s = .fault .outOverflow t.outLen t ∧ Packs s (l.take k) bs t ∧
        t.bwCnt.toNat = 7 ∧ s.outCap.toNat ≤ t.outLen.toNat := by
  induction l generalizing s with
  | nil => exact .inl ⟨s, [], rfl, .nil hok⟩
  | cons b l ih =>
    rcases putBit_packs hok b with ⟨u, bs, hbit, hpacks⟩ | ⟨hcnt, hfull, hbit⟩
    · rcases ih hpacks.packer with ⟨t, cs, hrest, hpacks'⟩ | ⟨k, t, cs, hk, hrest, hpacks', hcnt, hfull⟩
      · exact .inl ⟨t, bs ++ cs, by rw [putBitList, hbit, Res.bind_ok, hrest], hpacks.trans hpacks'⟩
      · exact .inr ⟨k + 1, t, bs ++ cs, Nat.succ_lt_succ hk, by rw [putBitList, hbit, Res.bind_ok, hrest],
          hpacks.trans hpacks', hcnt, hpacks.same.outCap ▸ hfull⟩
    · exact .inr ⟨0, s, [], Nat.succ_pos _, by rw [putBitList, hbit, Res.bind_fault], .nil hok, hcnt, hfull⟩

/-- The bits of a token stream and the Flush after them. -/
def putPacked (bits : List Bool) (s : State) : Res Unit :=
  (putBitList bits s).bind fun _ s => (flush s).bind fun _ s => .ok () s

variable {bits : List Bool} {k : Nat}

/-- With nothing pending at either end, the bits put and the pad zeros are the packed bytes (R131). -/
theorem Packs.emitted_packed {pad : Nat} (h : Packs s (bits ++ List.replicate pad false) bs t) (hcnt : s.bwCnt = 0)
    (hcnt' : t.bwCnt = 0) (hpad : pad ≤ 7) : Emitted s (packed bits) [] t := by
  have hzero : s.bwCnt.toNat = 0 := congrArg BitVec.toNat hcnt
  have hzero' : t.bwCnt.toNat = 0 := congrArg BitVec.toNat hcnt'
  have hcount := h.count
  rw [List.length_append, List.length_replicate] at hcount
  have hpadlen : pad = (8 - bits.length % 8) % 8 := by omega
  have hcontent := h.content
  rw [pendingBits_of_empty hcnt, pendingBits_of_empty hcnt', List.append_nil, List.nil_append, hpadlen] at hcontent
  have hbits : bytesBits bs = bytesBits (packed bits) := hcontent.trans (bytesBits_packed bits).symm
  have hbs : bs = packed bits := by
    refine (isPrefix_of_bytesBits (hbits ▸ List.prefix_rfl)).eq_of_length ?_
    have := congrArg List.length hbits
    rw [bytesBits_length, bytesBits_length] at this
    omega
  exact ⟨h.same, hbs ▸ h.wrote, h.packer, pendingBits_of_empty hcnt'⟩

/-- Of a run that stops at OUT_CAP, the full bytes are the first packed bytes, and the bits after them are pending:
seven, or all there are. -/
theorem Packs.emitted_take (h : Packs s (bits.take k) bs t) (hcnt : s.bwCnt = 0) (hk : k ≤ bits.length)
    (hpos : t.bwCnt.toNat ≠ 0) (hstop : t.bwCnt.toNat = 7 ∨ k = bits.length) :
    bs.length < (packed bits).length ∧
      Emitted s ((packed bits).take bs.length) ((bits.drop (8 * bs.length)).take 7) t := by
  have hzero : s.bwCnt.toNat = 0 := congrArg BitVec.toNat hcnt
  have hcount := h.count
  rw [List.length_take_of_le hk] at hcount
  have hcontent := h.content
  rw [pendingBits_of_empty hcnt, List.nil_append] at hcontent
  have hprefix : bytesBits bs <+: bytesBits (packed bits) := by
    rw [bytesBits_packed]
    exact ((List.prefix_append _ _).trans (hcontent ▸ List.take_prefix k bits)).trans (List.prefix_append _ _)
  have hbs := List.prefix_iff_eq_take.mp (isPrefix_of_bytesBits hprefix)
  have hpending : pendingBits t = (bits.drop (8 * bs.length)).take t.bwCnt.toNat := by
    have hdrop := congrArg (List.drop (8 * bs.length)) hcontent
    rw [← bytesBits_length, List.drop_left, List.drop_take, bytesBits_length] at hdrop
    rw [hdrop, show k - 8 * bs.length = t.bwCnt.toNat by omega]
  refine ⟨by rw [packed_length]; omega, h.same, hbs ▸ h.wrote, h.packer, hpending.trans ?_⟩
  rcases hstop with hseven | hall
  · rw [hseven]
  · have hlt := t.bwCnt.isLt
    have hlen : (bits.drop (8 * bs.length)).length = t.bwCnt.toNat := by
      rw [List.length_drop]
      omega
    rw [List.take_of_length_le hlen.le, List.take_of_length_le (by omega)]

/-- Such a run stops at OUT_CAP itself. -/
theorem Packs.emitted_stop (h : Packs s (bits.take k) bs t) (hcnt : s.bwCnt = 0) (hk : k ≤ bits.length)
    (hpos : t.bwCnt.toNat ≠ 0) (hstop : t.bwCnt.toNat = 7 ∨ k = bits.length)
    (hcap : s.outLen.toNat ≤ s.outCap.toNat) (hfull : s.outCap.toNat ≤ t.outLen.toNat) :
    t.outLen = s.outCap ∧ ∃ n < (packed bits).length, s.outLen.toNat + n = s.outCap.toNat ∧
      Emitted s ((packed bits).take n) ((bits.drop (8 * n)).take 7) t := by
  obtain ⟨hlt, hemitted⟩ := h.emitted_take hcnt hk hpos hstop
  have hlen : t.outLen = s.outCap := BitVec.eq_of_toNat_eq ((hemitted.outLen_le hcap).antisymm hfull)
  exact ⟨hlen, bs.length, hlt, by rw [← h.wrote.outLen, hlen], hemitted⟩

theorem flush_cases (s : State) : (∃ pad t, flush s = .ok pad t) ∨
    (s.bwCnt.toNat ≠ 0 ∧ s.outCap.toNat ≤ s.outLen.toNat ∧ flush s = .fault .outOverflow s.outLen s) := by
  by_cases hcnt : s.bwCnt = 0
  · exact .inl ⟨_, _, flush_of_empty hcnt⟩
  · rcases Nat.lt_or_ge s.outLen.toNat s.outCap.toNat with hroom | hfull
    · exact .inl ⟨_, _, flush_of_pending hcnt hroom⟩
    · exact .inr ⟨bwCnt_toNat_ne_zero hcnt, hfull, flush_of_full hcnt hfull⟩

/-- How it ends from an empty packer: all the packed bytes, or those below OUT_CAP. Either PutBit or Flush may meet
OUT_CAP. -/
theorem putPacked_cases (hcnt : s.bwCnt = 0) (hok : s.PackerOk) (hcap : s.outLen.toNat ≤ s.outCap.toNat)
    (bits : List Bool) :
    (∃ t, putPacked bits s = .ok () t ∧ Emitted s (packed bits) [] t) ∨
      ∃ t, putPacked bits s = .fault .outOverflow s.outCap t ∧ ∃ n < (packed bits).length,
        s.outLen.toNat + n = s.outCap.toNat ∧ Emitted s ((packed bits).take n) ((bits.drop (8 * n)).take 7) t := by
  rcases putBitList_cases hok bits with ⟨u, bs, hput, hpacks⟩ | ⟨k, t, bs, hk, hput, hpacks, hseven, hfull⟩
  · rcases flush_cases u with ⟨pad, t, hflush⟩ | ⟨hpos, hfull, hflush⟩
    · obtain ⟨cs, hzeros, hempty, hpad⟩ := flush_packs hpacks.packer hflush
      refine .inl ⟨t, ?_, (hpacks.trans hzeros).emitted_packed hcnt hempty hpad⟩
      rw [putPacked, hput, Res.bind_ok, hflush, Res.bind_ok]
    · have hall : Packs s (bits.take bits.length) bs u := List.take_length.symm ▸ hpacks
      obtain ⟨hlen, hstop⟩ := hall.emitted_stop hcnt le_rfl hpos (.inr rfl) hcap (hpacks.same.outCap ▸ hfull)
      exact .inr ⟨u, by rw [putPacked, hput, Res.bind_ok, hflush, Res.bind_fault, hlen], hstop⟩
  · obtain ⟨hlen, hstop⟩ := hpacks.emitted_stop hcnt hk.le (by omega) (.inl hseven) hcap hfull
    exact .inr ⟨t, by rw [putPacked, hput, Res.bind_fault, hlen], hstop⟩

/-! ## The container -/

/-- The header and the token bits of a container, written and flushed. -/
def writeContainer (n : Nat) (ft : List FtEntry) (bits : List Bool) (s : State) : Res Unit :=
  (outWriteAll (headerBytes n ft) s).bind fun _ s => putPacked bits s

/-- The token bits that stay pending when a container does not fit below OUT_CAP: none in the header, and after it those
of the byte that did not fit. -/
def strandedBits (cap m : Nat) (bits : List Bool) : List Bool :=
  if cap < 10 + 10 * m then [] else (bits.drop (8 * (cap - (10 + 10 * m)))).take 7

section
variable (hzero : s.outLen = 0) (hcnt : s.bwCnt = 0) (hok : s.PackerOk) (n : Nat) {ft : List FtEntry} (bits : List Bool)
include hzero hcnt hok

/-- OUT ends within the header: no token bit is put. -/
theorem writeContainer_of_headerShort (hshort : s.outCap.toNat < 10 + 10 * ft.length) :
    ∃ t, writeContainer n ft bits s = .fault .outOverflow s.outCap t ∧
      Emitted s ((container n ft bits).take s.outCap.toNat) [] t := by
  have hout : s.outLen.toNat = 0 := congrArg BitVec.toNat hzero
  have hheader := headerBytes_length n ft
  have htake : ((headerBytes n ft).take s.outCap.toNat).length = s.outCap.toNat := List.length_take_of_le (by omega)
  have hemitted := Emitted.appendBytes hcnt hok (bs := (headerBytes n ft).take s.outCap.toNat) (by omega)
  have hcap : (Machine.appendBytes ((headerBytes n ft).take s.outCap.toNat) s).outLen = s.outCap :=
    BitVec.eq_of_toNat_eq (hemitted.wrote.outLen.trans (by rw [hout, htake, Nat.zero_add]))
  refine ⟨Machine.appendBytes ((headerBytes n ft).take s.outCap.toNat) s, ?_, ?_⟩
  · rw [writeContainer, outWriteAll_of_short (n := s.outCap.toNat) (by omega) (by omega), Res.bind_fault, hcap]
  · rw [container, List.take_append_of_le_length (by omega)]
    exact hemitted

/-- The header fits: the token bits follow it. -/
theorem writeContainer_of_headerFits (hroom : 10 + 10 * ft.length ≤ s.outCap.toNat) :
    ∃ u, writeContainer n ft bits s = putPacked bits u ∧ Emitted s (headerBytes n ft) [] u ∧
      u.outLen.toNat = 10 + 10 * ft.length ∧ u.bwCnt = 0 := by
  have hout : s.outLen.toNat = 0 := congrArg BitVec.toNat hzero
  have hheader := headerBytes_length n ft
  have hemitted := Emitted.appendBytes hcnt hok (bs := headerBytes n ft) (by omega)
  refine ⟨Machine.appendBytes (headerBytes n ft) s, ?_, hemitted, ?_, hcnt⟩
  · rw [writeContainer, outWriteAll_of_fits (by omega), Res.bind_ok]
  · rw [hemitted.wrote.outLen, hout, hheader, Nat.zero_add]

/-- How it ends from an empty output: with the whole container, or with what fits below OUT_CAP. -/
theorem writeContainer_cases :
    (∃ t, writeContainer n ft bits s = .ok () t ∧ (container n ft bits).length ≤ s.outCap.toNat ∧
      Emitted s (container n ft bits) [] t) ∨
    ∃ t, writeContainer n ft bits s = .fault .outOverflow s.outCap t ∧
      s.outCap.toNat < (container n ft bits).length ∧
      Emitted s ((container n ft bits).take s.outCap.toNat) (strandedBits s.outCap.toNat ft.length bits) t := by
  have hout : s.outLen.toNat = 0 := congrArg BitVec.toNat hzero
  have hheader := headerBytes_length n ft
  have hlen := container_length n ft bits
  rcases Nat.lt_or_ge s.outCap.toNat (10 + 10 * ft.length) with hshort | hroom
  · obtain ⟨t, hwrite, hemitted⟩ := writeContainer_of_headerShort hzero hcnt hok n bits hshort
    refine .inr ⟨t, hwrite, by omega, ?_⟩
    rw [strandedBits, if_pos hshort]
    exact hemitted
  · obtain ⟨u, hwrite, hemitted, hstart, hcnt'⟩ := writeContainer_of_headerFits hzero hcnt hok n bits hroom
    have hcap : u.outCap = s.outCap := hemitted.same.outCap
    rw [hwrite, ← hcap]
    rcases putPacked_cases hcnt' hemitted.packer (hcap ▸ hstart ▸ hroom) bits with
      ⟨t, hput, hpacked⟩ | ⟨t, hput, m, hm, hfull, hpacked⟩
    · have hall : Emitted s (container n ft bits) [] t := hemitted.trans hpacked
      have hle := hall.outLen_le (hout.trans_le (Nat.zero_le _))
      rw [hall.wrote.outLen, hout, Nat.zero_add, ← hcap] at hle
      exact .inl ⟨t, hput, hle, hall⟩
    · rw [hstart] at hfull
      refine .inr ⟨t, hput, by omega, ?_⟩
      rw [strandedBits, if_neg (by omega), ← hfull, Nat.add_sub_cancel_left, container, ← hheader,
        List.take_length_add_append]
      exact hemitted.trans hpacked

end

end

end Sys2Proof.Machine
end

section
/-! COMPRESS (R382, R384): what it prepares and the container it then writes; and the round trip with DECOMPRESS
(R385). -/

namespace Sys2Proof.Machine

/-- How COMPRESS ends once the container is written. -/
def compressEnd (s : State) : Res Results := .ok (Results.two s.outLen (tokCount s)) { s with origLen := s.inLen }

/-- The state in which it then completes. -/
def State.compressed (s : State) : State := complete (Results.two s.outLen (tokCount s)) { s with origLen := s.inLen }

theorem finish_compressEnd (s : State) : finish (compressEnd s) = .next s.compressed := rfl

section
variable {s t : State} {ft : List FtEntry} {tree : Node} {bits : List Bool} {c : List Byte}

theorem Wrote.of_prepared (h : Wrote 0 (s.prepared ft (some tree)) c t) : Wrote 0 s c t := by
  obtain ⟨hhost, hout, hring⟩ := prepared_output s ft (some tree)
  exact ⟨h.hostSide.trans hhost, h.outLen, prepared_outCap s ft _ ▸ h.belowCap, hout ▸ h.out, hring ▸ h.ring⟩

theorem Wrote.compressed (h : Wrote 0 s c t) : Wrote 0 s c t.compressed :=
  ⟨h.hostSide, h.outLen, h.belowCap, h.out, h.ring⟩

theorem SameButOutput.tokbuf (h : SameButOutput s t) : t.tokbuf = s.tokbuf := by
  rw [SameButOutput] at h
  rw [h]

/-- The bodies of ENC_TOKENS and Flush put the packed token strings. -/
theorem encTokensBody_flush (htree : s.tree = some tree) (hbits : tokenBits tree s.tokbuf = some bits)
    (hfit : CodesFit tree s.tokbuf) (f : State → Res Results) :
    ((encTokensBody s).bind fun _ s => (flush s).bind fun _ s => f s) = (putPacked bits s).bind fun _ s => f s := by
  rw [encTokensBody, needTree_of_some htree, Res.bind_ok, encTokenList_eq htree hbits hfit, putPacked]
  simp only [Res.bind_assoc, Res.bind_ok]

/-- With a table that builds and strings for its tokens, COMPRESS prepares, writes the container, and ends. -/
theorem compressBody_eq (htable : ftFromTokensBody (s.prepared [] none) = .ok () (s.prepared ft none))
    (htree : buildTree ft = some tree) (hbits : tokenBits tree (derive s) = some bits)
    (hfit : CodesFit tree (derive s)) : compressBody s =
      (writeContainer s.inLen.toNat ft bits (s.prepared ft (some tree))).bind fun _ u => compressEnd u := by
  have hheader : hdrWriteBody (s.prepared ft (some tree)) =
      outWriteAll (headerBytes s.inLen.toNat ft) (s.prepared ft (some tree)) := hdrWriteBody_of_empty rfl
  rw [compressBody, tokDeriveBody_compressStart, htable, Res.bind_ok, htBuildBody_prepared s ft htree, Res.bind_ok,
    hheader, writeContainer, Res.bind_assoc]
  refine Res.bind_congr fun _ u hu => ?_
  have hsame : SameButOutput (s.prepared ft (some tree)) u := by
    have hkeeps := outWriteAll_same (headerBytes s.inLen.toNat ft) (s.prepared ft (some tree))
    rwa [hu] at hkeeps
  have htree' : u.tree = some tree := (SameButOutput.tree hsame).trans (prepared_tree s ft _)
  have htokens : u.tokbuf = derive s := hsame.tokbuf.trans (prepared_tokbuf s ft _)
  exact encTokensBody_flush htree' (htokens ▸ hbits) (htokens ▸ hfit) compressEnd

/-- Every input has such a table and such strings (R382). -/
theorem exists_compressBody_eq (h : s.Ready) : ∃ ft tree bits, IsTableOf (derive s) ft ∧ buildTree ft = some tree ∧
    tokenBits tree (derive s) = some bits ∧ compressBody s =
      (writeContainer s.inLen.toNat ft bits (s.prepared ft (some tree))).bind fun _ u => compressEnd u := by
  obtain ⟨-, hwf, hcount⟩ := derivedTokensDenoteInput s
  have hlen : (derive s).length ≤ 2 ^ 60 := hcount.trans h.short
  have htokens := prepared_tokbuf s [] none
  obtain ⟨ft, hft, htable⟩ := ftFromTokensBody_eq (htokens ▸ hwf) (htokens ▸ hlen)
  rw [htokens] at hft
  rw [setTable_prepared] at htable
  obtain ⟨tree, htree⟩ := hft.exists_buildTree hlen
  obtain ⟨bits, hbits⟩ := exists_tokenBits fun v hv => hasSym_of_buildTree htree (hft.mem_syms hv)
  exact ⟨ft, tree, bits, hft, htree, hbits, compressBody_eq htable htree hbits (hft.codesFit hlen htree)⟩

end

/-- A state that differs in the output fields only, by what stands in them. -/
theorem SameButOutput.eq_of_fields {s t : State} (h : SameButOutput s t) {n : Word} {acc : BitVec 8} {cnt : BitVec 3}
    (hlen : t.outLen = n) (hacc : t.bwAcc = acc) (hcnt : t.bwCnt = cnt) :
    t = { s with outMem := t.outMem, ring := t.ring, outLen := n, bwAcc := acc, bwCnt := cnt } := by
  rw [← hlen, ← hacc, ← hcnt]
  exact h

/-- Nothing pending leaves the packer empty (R47). -/
theorem packer_empty {t : State} (hok : t.PackerOk) (h : pendingBits t = []) : t.bwAcc = 0 ∧ t.bwCnt = 0 := by
  have hcnt : t.bwCnt.toNat = 0 := by
    have hlen := pendingBits_length t
    rw [h] at hlen
    exact hlen.symm
  rw [State.PackerOk, hcnt] at hok
  exact ⟨BitVec.eq_of_toNat_eq (Nat.lt_one_iff.mp hok), BitVec.eq_of_toNat_eq hcnt⟩

/-- Settles O58: COMPRESS is the writing of a container, which ends in one of two ways. -/
theorem compressWritesContainer : Obligations.CompressWritesContainer := by
  intro s hready
  obtain ⟨ft, tree, bits, hft, htree, hbits, hbody⟩ := exists_compressBody_eq hready
  have hexec : exec .compress s = finish (compressBody s) := runCommand_of_ready hready _
  rw [hbody] at hexec
  have hcases := writeContainer_cases (s := s.prepared ft tree) rfl rfl Nat.one_pos s.inLen.toNat (ft := ft) bits
  refine ⟨ft, tree, bits, container s.inLen.toNat ft bits, hft, htree, hbits, rfl, ?_⟩
  rw [prepared_outCap] at hcases
  generalize container s.inLen.toNat ft bits = c at hcases ⊢
  rcases hcases with ⟨t, hwrite, hfits, hemitted⟩ | ⟨t, hwrite, hover, hemitted⟩
  · refine ⟨fun _ => ?_, fun hover => absurd hfits (Nat.not_le.mpr hover)⟩
    obtain ⟨hacc, hcnt⟩ := packer_empty hemitted.packer hemitted.pending
    have hwrote : Wrote 0 s c t.compressed := (Wrote.of_prepared hemitted.wrote).compressed
    have hlen : t.outLen.toNat = c.length := hwrote.outLen.trans (Nat.zero_add _)
    have hlen64 : t.outLen = BitVec.ofNat 64 c.length := by rw [← hlen, BitVec.ofNat_toNat, BitVec.setWidth_eq]
    have hframe := hemitted.same.eq_of_fields hlen64 hacc hcnt
    dsimp only [State.prepared] at hframe
    rw [hwrite, Res.bind_ok, finish_compressEnd] at hexec
    exact ⟨t.compressed, hexec, congrArg State.compressed hframe,
      hwrote.outBytes_eq, hwrote.ringFollows, fun a ha => hwrote.out_outside (.inr (hlen ▸ ha))⟩
  · refine ⟨fun hfits => absurd hover (Nat.not_lt.mpr hfits), fun _ => ?_⟩
    have hwrote : Wrote 0 s (c.take s.outCap.toNat) t := Wrote.of_prepared hemitted.wrote
    have htake : (c.take s.outCap.toNat).length = s.outCap.toNat := List.length_take_of_le hover.le
    have hlen : t.outLen.toNat = s.outCap.toNat := hwrote.outLen.trans ((Nat.zero_add _).trans htake)
    have hbytes := hwrote.outBytes_eq
    rw [htake] at hbytes
    have hframe := hemitted.same.eq_of_fields (BitVec.eq_of_toNat_eq hlen) rfl rfl
    dsimp only [State.prepared] at hframe
    rw [hwrite] at hexec
    exact ⟨t, hexec, hframe, hbytes, hwrote.ringFollows,
      hemitted.packer, hemitted.pending, fun a ha => hwrote.out_outside (.inr (hlen ▸ ha))⟩

/-- Settles O60: a COMPRESS without a fault wrote the whole container, which DECOMPRESS expands to what the derived
tokens denote, the input (R232). -/
theorem compressThenDecompressIsIdentity : Obligations.CompressThenDecompressIsIdentity := by
  intro s t u hs hu _ hcompress hfault hlen hcap hcopy
  obtain ⟨ft, tree, bits, c, hft, htree, hbits, hc, hfits, hover⟩ := compressWritesContainer s hs
  obtain ⟨hexpand, hwf, -⟩ := derivedTokensDenoteInput s
  rcases Nat.lt_or_ge s.outCap.toNat c.length with hshort | hroom
  · obtain ⟨t', hnext, -⟩ := hover hshort
    obtain rfl : t = _ := Host.Outcome.next.inj (hcompress.symm.trans hnext)
    cases hfault
  · obtain ⟨t', hnext, hframe, hbytes, -⟩ := hfits hroom
    obtain rfl : t = t' := Host.Outcome.next.inj (hcompress.symm.trans hnext)
    have hout : t.outLen.toNat = c.length := by
      rw [hframe]
      exact Nat.mod_eq_of_lt (hroom.trans_lt s.outCap.isLt)
    have hin : inBytes u 0 c.length = c := by
      refine (inBytes_eq_outBytes fun i hi => ?_).trans hbytes
      rw [Nat.zero_add]
      exact hcopy i (hout ▸ hi)
    have hcount := inBytes_length s 0 s.inLen.toNat
    obtain ⟨v, hexec, hv, hexpanded, -⟩ := decompressExpandsContainer.1 u ft tree (derive s) bits _ c hu
      (hft.length_le hwf) htree hbits hwf hexpand (by rw [hcount, hc]) (by rw [hlen, hout]) hin (by rwa [hcount])
    rw [hcount] at hv hexpanded
    rw [BitVec.ofNat_toNat, BitVec.setWidth_eq] at hv
    refine ⟨v, hexec, ?_, hexpanded, ?_, ?_, ?_⟩ <;> rw [hv]

end Sys2Proof.Machine
end

section
/-! NOP (R380) and SOFT_RESET (R381): the two commands that run whatever the start checks and the fault lock say. -/

namespace Sys2Proof.Machine

section
variable {s : State} {w : Word} {ops : List HostOp} {i : Instr}

/-- The host submits NOP or SOFT_RESET outside a command: it runs, under the fault lock too (R402). -/
theorem step_unlocked_command (hp : s.pending = .wr .cmd w :: ops) (hrst : s.rst = false)
    (hbusy : s.status.busy = false) (hw : w = 0 ∨ w = 1) (hi : decodeCommand w = .ok i) :
    step s = exec i (accept { s with pending := ops }) := by
  have hlock : ¬ (w ≠ 0 ∧ w ≠ 1 ∧ s.status.fault = true) := fun ⟨h0, h1, _⟩ => hw.elim h0 h1
  rw [step_move hp, hostMove, hostWrite, if_neg (Bool.eq_false_iff.mp hrst), onCmdWrite,
    if_neg (Bool.eq_false_iff.mp hbusy), if_neg hlock, executeWord, hi]

end

/-- Settles O21: NOP is a completion without results, so the flags but DONE stay. -/
theorem nopOnlySetsDone : Obligations.NopOnlySetsDone := by
  refine ⟨fun s => rfl, fun s ops hp hrst hbusy => ?_⟩
  have hstep := step_unlocked_command (i := .nop) hp hrst hbusy (.inl rfl)
    (decodeCommand_eq_ok_iff_encodeCommand.mpr rfl)
  refine ⟨complete Results.none (accept { s with pending := ops }), hstep, ?_, ?_⟩
  · simp [irq, hrst]
  · have hstatus : { s.status with done := true } = doneStatus s := by rw [doneStatus, ← hbusy]
    rw [hstatus]
    rfl

/-- Every register of the reset state reads 0, but for ID. -/
theorem readReg_softResetState (s : State) (r : Reg) :
    readReg (softResetState s) r = if r = .id then 0x4C5A484300000007 else 0 := by
  cases r
  case status => exact BitVec.eq_of_toNat_eq (Status.word_toNat _)
  case bwState => exact BitVec.eq_of_toNat_eq (bwState_toNat _)
  case tblInfo => exact BitVec.eq_of_toNat_eq (tblInfo_toNat (Nat.zero_le _))
  all_goals rfl

/-- Settles O22: the state after SOFT_RESET is the reset state with the memories kept. -/
theorem softResetKeepsMemories : Obligations.SoftResetKeepsMemories := by
  refine ⟨fun s => rfl, fun s ops hp hrst hbusy => ?_⟩
  have hstep := step_unlocked_command (i := .softReset) hp hrst hbusy (.inr rfl)
    (decodeCommand_eq_ok_iff_encodeCommand.mpr rfl)
  have hirq : irq (softResetState (accept { s with pending := ops })) = false := Bool.and_false _
  exact ⟨softResetState (accept { s with pending := ops }), hstep, readReg_softResetState _, hirq, rfl, rfl, rfl, rfl,
    rfl, rfl, rfl, rfl, rfl, rfl, hrst⟩

end Sys2Proof.Machine
end

section
/-! How a command starts and ends (R402–R405): a submitted word runs as its command, is ignored or faults; every command
but NOP and SOFT_RESET is its body behind the start checks; and what the end of a command records, no body writes. -/

namespace Sys2Proof.Machine

/-! ## Submission (R402) -/

section
variable {s : State} {w : Word} {ops : List HostOp}

theorem step_cmdWrite (hp : s.pending = .wr .cmd w :: ops) (hrst : s.rst = false) :
    step s = onCmdWrite w { s with pending := ops } := by
  rw [step_move hp, hostMove, hostWrite, if_neg (Bool.eq_false_iff.mp hrst)]

/-- Under the fault lock every word but those of NOP and SOFT_RESET is ignored. -/
theorem onCmdWrite_of_locked (hbusy : s.status.busy = false) (hfault : s.status.fault = true) (h0 : w ≠ 0)
    (h1 : w ≠ 1) : onCmdWrite w s = .next (setIgn s) := by
  rw [onCmdWrite, if_neg (Bool.eq_false_iff.mp hbusy), if_pos ⟨h0, h1, hfault⟩]

theorem onCmdWrite_of_accepted (hbusy : s.status.busy = false) (h : s.status.fault = false ∨ w = 0 ∨ w = 1) :
    onCmdWrite w s = executeWord w (accept s) := by
  have hlock : ¬ (w ≠ 0 ∧ w ≠ 1 ∧ s.status.fault = true) := by
    rintro ⟨h0, h1, hfault⟩
    rcases h with h | h | h
    · exact absurd hfault (Bool.eq_false_iff.mp h)
    · exact h0 h
    · exact h1 h
  rw [onCmdWrite, if_neg (Bool.eq_false_iff.mp hbusy), if_neg hlock]

end

/-- Settles O4: under BUSY any register write only sets IGN; otherwise the fault lock ignores the word or R402 executes
it. -/
theorem stepRunsSubmittedCommand : Obligations.StepRunsSubmittedCommand := by
  intro s w ops hp hrst
  have hstep := step_cmdWrite hp hrst
  refine ⟨step_write_busy hp hrst, fun hbusy hfault h0 h1 => ?_, fun hbusy hacc => ?_⟩
  · exact hstep.trans (onCmdWrite_of_locked hbusy hfault h0 h1)
  · have hrun := hstep.trans (onCmdWrite_of_accepted hbusy hacc)
    refine ⟨fun i hi => ?_, fun e he => ?_⟩
    · rw [executeWord, hi] at hrun
      exact hrun
    · rw [executeWord, he] at hrun
      exact hrun

/-! ## What only the end of a command writes -/

/-- The results, the fault record, DONE and IGN (R25, R26, R33, R34). -/
def State.endRecord (s : State) : Word × Word × Word × BitVec 8 × Bool × Bool × Bool :=
  (s.res0, s.res1, s.finfo, s.status.fcode, s.status.fault, s.status.done, s.status.ign)

/-- A piece of pseudocode that leaves all of it as it was, however the piece ends. -/
def KeepsEndRecord {α : Type} (f : State → Res α) : Prop :=
  ∀ s, (f s).Keeps (·.endRecord = s.endRecord)

section
variable {α β : Type} {s t : State}

theorem KeepsEndRecord.bind {f : State → Res α} {g : α → State → Res β} (hf : KeepsEndRecord f)
    (hg : ∀ a, KeepsEndRecord (g a)) : KeepsEndRecord fun s => (f s).bind g := fun s =>
  (hf s).bind (fun _ => id) fun a u hu => (hg a u).mono fun _ hv => hv.trans hu

/-- One piece after a change of the state. -/
theorem KeepsEndRecord.after {f : State → Res α} {g : State → State} (hf : KeepsEndRecord f)
    (hg : ∀ s, (g s).endRecord = s.endRecord) : KeepsEndRecord fun s => f (g s) := fun s =>
  (hf (g s)).mono fun _ hu => hu.trans (hg s)

/-! The frames of the model's pieces leave it out. -/

theorem SameButOutput.endRecord (h : SameButOutput s t) : t.endRecord = s.endRecord := by
  rw [SameButOutput] at h
  rw [h]
  rfl

theorem SameButReader.endRecord (h : SameButReader s t) : t.endRecord = s.endRecord := by
  rw [SameButReader] at h
  rw [h]
  rfl

theorem SameButDecode.endRecord (h : SameButDecode s t) : t.endRecord = s.endRecord := by
  rw [SameButDecode] at h
  rw [h]
  rfl

theorem SameButTable.endRecord (h : SameButTable s t) : t.endRecord = s.endRecord := by
  rw [SameButTable] at h
  rw [h]
  rfl

theorem SameButFinder.endRecord (h : SameButFinder s t) : t.endRecord = s.endRecord := by
  rw [SameButFinder] at h
  rw [h]
  rfl

theorem keepsEndRecord_of_output {f : State → Res α} (h : ∀ s, (f s).Keeps (SameButOutput s)) : KeepsEndRecord f :=
  fun s => (h s).mono fun _ => SameButOutput.endRecord

/-! ## Operands and checks -/

theorem startChecks_keepsEndRecord : KeepsEndRecord startChecks := by
  intro s
  rcases startChecks_cases s with ⟨_, heq⟩ | ⟨_, _, heq⟩ | ⟨_, _, heq⟩ <;> rw [heq] <;> rfl

theorem arg0Where_keepsEndRecord (ok : State → Nat → Bool) : KeepsEndRecord fun s => arg0Where (ok s) s := by
  intro s
  beta_reduce
  unfold arg0Where
  split_ifs <;> rfl

theorem arg1Where_keepsEndRecord (ok : Nat → Bool) : KeepsEndRecord (arg1Where ok) := by
  intro s
  unfold arg1Where
  split_ifs <;> rfl

theorem argIndexed_keepsEndRecord (l : State → List α) : KeepsEndRecord fun s => argIndexed (l s) s := by
  intro s
  beta_reduce
  unfold argIndexed
  split <;> rfl

theorem require_keepsEndRecord (cond : State → Bool) (c : FaultCode) (i : Word) :
    KeepsEndRecord fun s => require (cond s) c i s := by
  intro s
  beta_reduce
  unfold require
  split_ifs <;> rfl

theorem needTree_keepsEndRecord : KeepsEndRecord needTree := by
  intro s
  unfold needTree
  split <;> rfl

theorem needCode_keepsEndRecord (tree : Node) (v : Sym) : KeepsEndRecord (needCode tree v) := by
  intro s
  unfold needCode
  split
  · rfl
  · split_ifs <;> rfl

/-! ## Output -/

theorem outWrite_keepsEndRecord (v : Byte) : KeepsEndRecord (outWrite v) := keepsEndRecord_of_output (outWrite_same v)

theorem putBit_keepsEndRecord (b : Bool) : KeepsEndRecord (putBit b) := keepsEndRecord_of_output (putBit_same b)

theorem putBitList_keepsEndRecord (l : List Bool) : KeepsEndRecord (putBitList l) :=
  keepsEndRecord_of_output (putBitList_same l)

theorem putBits_keepsEndRecord (w : Nat) (v : State → Nat) : KeepsEndRecord fun s => putBits w (v s) s := fun s =>
  putBitList_keepsEndRecord (bitsOf w (v s)) s

theorem flush_keepsEndRecord : KeepsEndRecord flush := keepsEndRecord_of_output flush_same

theorem copyBytes_keepsEndRecord (d k : Nat) : KeepsEndRecord (copyBytes d k) :=
  keepsEndRecord_of_output (copyBytes_same d k)

/-! ## Table and tree -/

theorem tally_keepsEndRecord (v : Sym) : KeepsEndRecord (tally v) := fun s =>
  (tally_same v s).mono fun _ => SameButTable.endRecord

theorem ftFromTokensBody_keepsEndRecord : KeepsEndRecord ftFromTokensBody := fun s =>
  (ftFromTokensBody_same s).mono fun _ => SameButTable.endRecord

theorem htBuildBody_keepsEndRecord : KeepsEndRecord htBuildBody := by
  intro s
  rcases htBuildBody_cases s with ⟨t, _, heq⟩ | ⟨_, heq⟩ <;> rw [heq] <;> rfl

/-! ## Container -/

theorem hdrWriteBody_keepsEndRecord : KeepsEndRecord hdrWriteBody := by
  intro s
  unfold hdrWriteBody
  split_ifs
  · exact (outWriteAll_same _ s).mono fun _ => SameButOutput.endRecord
  · rfl

theorem hdrReadBody_keepsEndRecord : KeepsEndRecord hdrReadBody := by
  intro s
  unfold hdrReadBody parseHeader
  split_ifs <;> rfl

theorem encLitBody_keepsEndRecord (b : Nat) : KeepsEndRecord (encLitBody b) :=
  (putBit_keepsEndRecord false).bind fun _ => putBitList_keepsEndRecord _

theorem encMatchBody_keepsEndRecord (d : Nat) (len : Sym) : KeepsEndRecord (encMatchBody d len) :=
  needTree_keepsEndRecord.bind fun tree => (needCode_keepsEndRecord tree len).bind fun code =>
  (putBit_keepsEndRecord true).bind fun _ => (putBitList_keepsEndRecord _).bind fun _ =>
  (putBitList_keepsEndRecord code).bind fun _ _ => rfl

theorem encTokenList_keepsEndRecord (ts : List Token) (n : Nat) : KeepsEndRecord (encTokenList ts n) := by
  induction ts generalizing n with
  | nil => exact fun _ => rfl
  | cons t ts ih =>
    cases t with
    | lit b => exact (encLitBody_keepsEndRecord b.toNat).bind fun _ => ih _
    | pair x len => exact (encMatchBody_keepsEndRecord (distOf x) len).bind fun _ => ih _

theorem encTokensBody_keepsEndRecord : KeepsEndRecord encTokensBody :=
  needTree_keepsEndRecord.bind fun _ s => encTokenList_keepsEndRecord s.tokbuf 0 s

/-! ## Replay -/

theorem treStepBody_keepsEndRecord (tree : Node) : KeepsEndRecord (treStepBody tree) := by
  have hstep : KeepsEndRecord (stepToken tree) := fun s => (stepToken_same tree s).mono fun _ => SameButDecode.endRecord
  refine hstep.bind fun r s => ?_
  cases r with
  | none =>
    dsimp only
    split_ifs <;> rfl
  | some kindAndCount => rfl

theorem treRunBody_keepsEndRecord : KeepsEndRecord treRunBody := by
  have hloop : ∀ tree, KeepsEndRecord fun s => treRunLoop tree (bitsLeft s + 2) s := fun tree s =>
    (treRunLoop_same tree _ s).mono fun _ => SameButDecode.endRecord
  exact needTree_keepsEndRecord.bind fun tree => (hloop tree).bind fun _ _ => rfl

/-! ## Whole transforms -/

theorem compressBody_keepsEndRecord : KeepsEndRecord compressBody := by
  have hderive : ∀ s, (tokDeriveBody (compressStart s)).endRecord = s.endRecord := fun s =>
    (tokDeriveBody_same (compressStart s)).endRecord
  exact (ftFromTokensBody_keepsEndRecord.after hderive).bind fun _ => htBuildBody_keepsEndRecord.bind fun _ =>
    hdrWriteBody_keepsEndRecord.bind fun _ => encTokensBody_keepsEndRecord.bind fun _ =>
    flush_keepsEndRecord.bind fun _ _ => rfl

theorem decompressBody_keepsEndRecord : KeepsEndRecord decompressBody :=
  hdrReadBody_keepsEndRecord.bind fun _ => htBuildBody_keepsEndRecord.bind fun _ =>
  treRunBody_keepsEndRecord.after fun _ => rfl

end

/-! ## Commands -/

/-- Command by command: start checks (R403), then a body that is a chain of pieces that keep the end record. -/
theorem exec_eq_runCommand {i : Instr} (htoken : i.isToken = false) (hnop : i ≠ .nop) (hreset : i ≠ .softReset) :
    ∃ body, (∀ s, exec i s = runCommand body s) ∧ KeepsEndRecord body := by
  cases i with
  | nop => exact absurd rfl hnop
  | softReset => exact absurd rfl hreset
  | outReset => exact ⟨_, fun _ => rfl, fun _ => rfl⟩
  | compress => exact ⟨_, fun _ => rfl, compressBody_keepsEndRecord⟩
  | decompress => exact ⟨_, fun _ => rfl, decompressBody_keepsEndRecord⟩
  | mfClear => exact ⟨_, fun _ => rfl, fun _ => rfl⟩
  | mfHash => exact ⟨_, fun _ => rfl, (arg0Where_keepsEndRecord _).bind fun _ _ => rfl⟩
  | mfSearch => exact ⟨_, fun _ => rfl, (arg0Where_keepsEndRecord _).bind fun _ _ => rfl⟩
  | mfInsert =>
    exact ⟨_, fun _ => rfl, (arg0Where_keepsEndRecord _).bind fun p s => (insertPos_same s p).endRecord⟩
  | mfStep =>
    exact ⟨_, fun _ => rfl, (arg0Where_keepsEndRecord _).bind fun p s => (insertPos_same s p).endRecord⟩
  | tokDerive => exact ⟨_, fun _ => rfl, fun s => (tokDeriveBody_same s).endRecord⟩
  | tokRead => exact ⟨_, fun _ => rfl, (argIndexed_keepsEndRecord _).bind fun _ _ => rfl⟩
  | ftClear => exact ⟨_, fun _ => rfl, fun _ => rfl⟩
  | ftTally =>
    exact ⟨_, fun _ => rfl, (arg0Where_keepsEndRecord _).bind fun _ => (tally_keepsEndRecord _).bind fun _ _ => rfl⟩
  | ftFromTokens => exact ⟨_, fun _ => rfl, ftFromTokensBody_keepsEndRecord.bind fun _ _ => rfl⟩
  | ftRead => exact ⟨_, fun _ => rfl, (argIndexed_keepsEndRecord _).bind fun _ _ => rfl⟩
  | htBuild => exact ⟨_, fun _ => rfl, htBuildBody_keepsEndRecord.bind fun _ _ => rfl⟩
  | htCode =>
    exact ⟨_, fun _ => rfl, (arg0Where_keepsEndRecord _).bind fun _ => (arg1Where_keepsEndRecord _).bind fun _ =>
      needTree_keepsEndRecord.bind fun tree => (needCode_keepsEndRecord tree _).bind fun _ _ => rfl⟩
  | hdWalk =>
    refine ⟨_, fun _ => rfl, needTree_keepsEndRecord.bind fun tree s => ?_⟩
    have hsame := (walk_same tree s).endRecord
    rcases hw : walk tree s with ⟨_ | _ | _, u⟩ <;> rw [hw] at hsame <;> exact hsame
  | bwPutbits =>
    exact ⟨_, fun _ => rfl, (arg0Where_keepsEndRecord _).bind fun w =>
      (putBits_keepsEndRecord w fun s => s.arg1.toNat % 2 ^ w).bind fun _ _ => rfl⟩
  | bwFlush => exact ⟨_, fun _ => rfl, flush_keepsEndRecord.bind fun _ _ => rfl⟩
  | brGetbits =>
    exact ⟨_, fun _ => rfl, (arg0Where_keepsEndRecord _).bind fun w s => (getBits_same w s).endRecord⟩
  | hdrWrite => exact ⟨_, fun _ => rfl, hdrWriteBody_keepsEndRecord.bind fun _ _ => rfl⟩
  | hdrRead => exact ⟨_, fun _ => rfl, hdrReadBody_keepsEndRecord.bind fun _ _ => rfl⟩
  | encLit =>
    exact ⟨_, fun _ => rfl, (arg0Where_keepsEndRecord _).bind fun b =>
      (encLitBody_keepsEndRecord b).bind fun _ _ => rfl⟩
  | encMatch =>
    exact ⟨_, fun _ => rfl, (arg0Where_keepsEndRecord _).bind fun d => (arg1Where_keepsEndRecord _).bind fun _ =>
      (encMatchBody_keepsEndRecord d _).bind fun _ _ => rfl⟩
  | encTokens => exact ⟨_, fun _ => rfl, encTokensBody_keepsEndRecord.bind fun _ _ => rfl⟩
  | treLit =>
    exact ⟨_, fun _ => rfl, (arg0Where_keepsEndRecord _).bind fun _ =>
      (outWrite_keepsEndRecord _).bind fun _ _ => rfl⟩
  | treCopy =>
    exact ⟨_, fun _ => rfl, (arg0Where_keepsEndRecord _).bind fun d => (arg1Where_keepsEndRecord _).bind fun l =>
      (require_keepsEndRecord (fun s => decide (d ≤ s.outLen.toNat)) _ _).bind fun _ =>
      (copyBytes_keepsEndRecord d l).bind fun _ _ => rfl⟩
  | treStep => exact ⟨_, fun _ => rfl, needTree_keepsEndRecord.bind treStepBody_keepsEndRecord⟩
  | treRun => exact ⟨_, fun _ => rfl, treRunBody_keepsEndRecord⟩
  | litTok b => cases htoken
  | matchTok x len => cases htoken

/-- Settles O7: each of these commands is a body behind the start checks, which fault in their order. -/
theorem startChecksComeFirst : Obligations.StartChecksComeFirst := by
  intro i s htoken hnop hreset
  obtain ⟨body, hexec, -⟩ := exec_eq_runCommand htoken hnop hreset
  refine ⟨fun hin => ?_, fun hin hout => ?_⟩
  · rw [hexec, runCommand, startChecks, if_pos hin]
    rfl
  · rw [hexec, runCommand, startChecks, if_neg (Nat.not_lt.mpr hin), if_pos hout]
    rfl

/-- R404: from `s`, a command ended in `t`, normally or in a fault with a code of R400. -/
def Ended (s t : State) : Prop :=
  t.status.busy = false ∧ t.status.ign = s.status.ign ∧
    ((t.status.done = true ∧ t.status.fault = s.status.fault ∧ t.status.fcode = s.status.fcode ∧ t.finfo = s.finfo) ∨
      (t.status.fault = true ∧ 1 ≤ t.status.fcode.toNat ∧ t.status.fcode.toNat ≤ 14 ∧
        t.status.done = s.status.done ∧ t.res0 = s.res0 ∧ t.res1 = s.res1))

/-- Whatever leaves the end record alone is ended by R404 alone. -/
theorem finish_ended {s : State} {r : Res Results} (h : r.Keeps (·.endRecord = s.endRecord)) :
    ∃ t, finish r = .next t ∧ Ended s t := by
  rcases finish_cases r with ⟨x, u, rfl, heq⟩ | ⟨c, i, u, rfl, heq⟩ <;>
    simp only [Res.Keeps, State.endRecord, Prod.mk.injEq] at h <;>
    obtain ⟨hres0, hres1, hfinfo, hfcode, hfault, hdone, hign⟩ := h
  · exact ⟨_, heq, rfl, hign, .inl ⟨rfl, hfault, hfcode, hfinfo⟩⟩
  · obtain ⟨hpos, hmax⟩ := c.code_range
    exact ⟨_, heq, rfl, hign, .inr ⟨rfl, hpos, hmax, hdone, hres0, hres1⟩⟩

theorem runCommand_ended {body : State → Res Results} (h : KeepsEndRecord body) (s : State) :
    ∃ t, runCommand body s = .next t ∧ Ended s t :=
  finish_ended (startChecks_keepsEndRecord.bind (fun _ => h) s)

theorem exec_ended {i : Instr} (htoken : i.isToken = false) (hreset : i ≠ .softReset) (s : State) :
    ∃ t, exec i s = .next t ∧ Ended s t := by
  by_cases hnop : i = .nop
  · subst hnop
    exact finish_ended (r := .ok Results.none s) rfl
  · obtain ⟨body, hexec, hbody⟩ := exec_eq_runCommand htoken hnop hreset
    rw [hexec]
    exact runCommand_ended hbody s

theorem finishToken_next (r : Res Word) : ∃ t, finishToken r = .next t := by
  cases r with
  | ok k u => exact ⟨u, rfl⟩
  | fault c i u => exact ⟨takeFault c i u, rfl⟩

/-- Settles O14: a command ends by R404, SOFT_RESET and the tokens in a next state. -/
theorem commandsEndDoneOrFaulted : Obligations.CommandsEndDoneOrFaulted := by
  intro i s
  by_cases hreset : i = .softReset
  · subst hreset
    exact ⟨softResetState s, rfl, fun _ h => absurd rfl h⟩
  · cases htoken : i.isToken with
    | false =>
      obtain ⟨t, hexec, hend⟩ := exec_ended htoken hreset s
      exact ⟨t, hexec, fun _ _ => hend⟩
    | true =>
      have hnext : ∃ t, exec i s = .next t := by
        cases i <;> cases htoken
        case litTok b => exact finishToken_next _
        case matchTok x len => exact finishToken_next _
      obtain ⟨t, hexec⟩ := hnext
      exact ⟨t, hexec, nofun⟩

end Sys2Proof.Machine
end

section
/-! The hardware reset (R440, R441): the moves that drive RST, what a register write does while it is high, and what the
reset state shows the host. -/

namespace Sys2Proof.Machine

section
variable {s : State} {r : Reg} {v : Word} {level : Bool} {ops : List HostOp}

/-- RST driven high, or low after having been high, resets the core (R440). -/
theorem step_rst (hp : s.pending = .rst level :: ops) (h : level = true ∨ s.rst = true) :
    step s = .next (hardReset level { s with pending := ops }) := by
  have hdrive : (level || s.rst) = true := (Bool.or_eq_true _ _).mpr h
  rw [step_move hp, hostMove, driveRst, if_pos hdrive]

/-- A register write while RST is high is only taken from the queue (R440). -/
theorem step_write_rst (hp : s.pending = .wr r v :: ops) (hrst : s.rst = true) :
    step s = .next { s with pending := ops } :=
  (step_move hp).trans (if_pos hrst)

end

theorem readReg_reset (r : Reg) : readReg State.reset r = if r = .id then 0x4C5A484300000007 else 0 :=
  readReg_softResetState State.reset r

/-- No register shows what a hardware reset keeps: the parameters, the host's moves and the level of RST. -/
theorem readReg_hardReset (level : Bool) (s : State) (r : Reg) :
    readReg (hardReset level s) r = if r = .id then 0x4C5A484300000007 else 0 := by
  have hshown : readReg (hardReset level s) r = readReg State.reset r := by cases r <;> rfl
  rw [hshown, readReg_reset]

/-- IE is off after a hardware reset, so IRQ is low at either level of RST. -/
theorem irq_hardReset (level : Bool) (s : State) : irq (hardReset level s) = false := Bool.and_false _

/-- Settles O12: the registers read as reset, and with no move pending the core is idle. -/
theorem resetRegisterValues : Obligations.ResetRegisterValues :=
  ⟨readReg_reset, rfl, rfl, rfl, rfl, rfl, step_idle rfl⟩

/-- Settles O11: both edges of RST give `hardReset`, and between them the write is dropped. -/
theorem hardwareResetClearsState : Obligations.HardwareResetClearsState := by
  intro s r v ops hp
  let t := hardReset true { s with pending := .wr r v :: .rst false :: ops }
  have hread (q : Reg) : step { t with pending := [.rd q] } = .next { t with
      pending := [], hostData := if q = .id then 0x4C5A484300000007 else 0 } := by
    rw [step_read rfl (.inr rfl), readReg_with_pending, readReg_hardReset]
  exact ⟨t, hardReset false { t with pending := ops },
    step_rst hp (.inl rfl), rfl, irq_hardReset _ _,
    step_write_rst rfl rfl, hread,
    step_rst rfl (.inr rfl), rfl, irq_hardReset _ _, rfl, rfl, readReg_hardReset _ _,
    rfl, rfl, rfl, rfl, rfl, rfl, rfl, rfl, rfl, rfl⟩

end Sys2Proof.Machine
end
